-- ==== Sys2Proof/Word.lean ====
section
/-! DEFINITION. The word types of the HBS codec (spec/00_scope.md R14, R15). -/

namespace Sys2Proof

/-- A byte is a `u8` (R15). -/
abbrev Byte := BitVec 8

/-- A `u32`, and the raw pattern of a 32-bit storage cell (R14, R114). -/
abbrev U32 := BitVec 32

/-- A `u64` (R14). -/
abbrev U64 := BitVec 64

/-- A finite sequence of bytes, first byte first (R15). -/
abbrev Bytes := List Byte

end Sys2Proof
end

