-- ==== Sys2Proof/Config.lean ====
section
/-! DEFINITION. The implementation parameters of the HBS codec (spec/00_scope.md R6 to R11) and the free values of
the model. A free value is an opaque constant without a body: nothing can be proved of what it is. -/

namespace Sys2Proof

/-- The parameters one machine is built with (R6 to R9, R11). No step changes them. They stand in the state so that every
statement over all states is a statement over all parameters. -/
structure Params where
  /-- `CFG_BLOCKSIZE`, the configuration input read at power-on reset, an `s32` (R6). -/
  cfgBlockSize : U32
  /-- `DEFAULT_BLOCK_SIZE` (R7). -/
  defaultBlockSize : Nat
  /-- `MAX_BLOCK_LEN`, the decoder's sane maximum (R8). -/
  maxBlockLen : Nat
  /-- `SHA256_AVAILABLE`: the digest engine is present (R9). -/
  sha256Available : Bool
deriving DecidableEq, Repr

/-- The ranges R7 and R8 give the two open parameters. -/
abbrev Params.Legal (p : Params) : Prop :=
  (1 ≤ p.defaultBlockSize ∧ p.defaultBlockSize ≤ 2 ^ 31 - 1) ∧ (1 ≤ p.maxBlockLen ∧ p.maxBlockLen ≤ 2 ^ 31 - 1)

namespace Config

/-- `CFG_BLOCKSIZE` of the machine that `State.reset` describes: any `s32` (R6). -/
opaque cfgBlockSize : U32

/-- One less than `DEFAULT_BLOCK_SIZE` of that machine, so that its range is the one of R7 (2147483647 is 2^31 - 1). -/
opaque defaultBlockSizePred : Fin 2147483647

/-- One less than `MAX_BLOCK_LEN` of that machine, so that its range is the one of R8. -/
opaque maxBlockLenPred : Fin 2147483647

/-- The parameters of the machine `State.reset` describes. DESIGN CHOICE, unsafe (log 2): it contains the digest engine,
as R9 says of a hardware that has one; every statement about `State.powerOn` holds for all parameters. -/
def params : Params :=
  { cfgBlockSize := cfgBlockSize
    defaultBlockSize := defaultBlockSizePred.val + 1
    maxBlockLen := maxBlockLenPred.val + 1
    sha256Available := true }

/-- FREE VALUE (R53, U4): how many bytes the sink keeps of a `SinkWrite` that did not answer `ok`, by the number of the
sink call. More than the length of the sequence means all of it. -/
opaque keptPrefix : Nat → Nat

/-- FREE VALUE (R53, N13): whether the sink is open after a `SinkClose` that did not answer `ok`, by the number of the
sink call. -/
opaque openAfterFailedClose : Nat → Bool

/-- FREE VALUE (R54, U5): the position of the source after a call that did not answer `ok`, by the number of the source
call. -/
opaque sourcePosition : Nat → Nat

/-- FREE VALUE (R22, U6): what a byte of `ENC.BUF` that nothing has written holds, by its offset. -/
opaque unwrittenEncBuf : Nat → Byte

/-- FREE VALUE (R29, U6): what a byte of `DEC.RES` that nothing has written holds, by its offset. -/
opaque unwrittenDecRes : Nat → Byte

/-- FREE VALUE (R130): the 32 bytes `SHA256` answers for a message of 2^61 bytes or more, a length outside its range. -/
opaque digestBeyondRange : Bytes → Fin 32 → Byte

end Config

end Sys2Proof
end

