-- ==== Sys2Proof/Machine/Operands.lean ====
section
/-! DEFINITION. The primitive functions on operand values: little-endian integers and the U32 value type
(spec/40_primitive_io.md R110 to R120), the signed reading of a cell (spec/00_scope.md R14) and the effective block
size (R6). -/

namespace Sys2Proof.Machine

/-- The little-endian bytes of a value: byte `i` is bits `8i+7 .. 8i` (R15, R110, R112). -/
def leEnc {w : Nat} (n : Nat) (v : BitVec w) : Bytes :=
  (List.range n).map fun i => v.extractLsb' (8 * i) 8

/-- The unsigned value of a little-endian byte sequence, the sum of `2^(8i) * b[i]` (R111, R113). -/
def leDec : Bytes → Nat
  | [] => 0
  | b :: bs => b.toNat + 2 ^ 8 * leDec bs

/-- `LE32enc` (R110). -/
def le32Enc (v : U32) : Bytes := leEnc 4 v

/-- `LE32dec`; its operand has four bytes (R111). -/
def le32Dec (b : Bytes) : U32 := BitVec.ofNat 32 (leDec b)

/-- `LE64enc` (R112). -/
def le64Enc (v : U64) : Bytes := leEnc 8 v

/-- `LE64dec`; its operand has eight bytes (R113). -/
def le64Dec (b : Bytes) : U64 := BitVec.ofNat 64 (leDec b)

/-- `as_s32`: the signed reading of a 32-bit pattern (R14, R114). -/
def asS32 (v : U32) : Int := v.toInt

/-- `U32toU64`: the signed cell widened to 64 bits, then masked to the low 32 (R115). -/
def u32ToU64 (c : U32) : U64 := c.signExtend 64 &&& 0x00000000FFFFFFFF#64

/-- `U32fromU64`: no cell when the value exceeds 2^32 - 1, which the caller reports as `RangeError` (R116). -/
def u32FromU64 (v : U64) : Option U32 :=
  if 0xFFFFFFFF#64 < v then none else some (v.extractLsb' 0 32)

/-- `U32fromByte`: zero-extension (R117). -/
def u32FromByte (b : Byte) : U32 := b.zeroExtend 32

/-- `U32.EQ`: one when all 32 bits agree (R118). -/
def u32Eq (a b : U32) : Byte := if a = b then 0x01 else 0x00

/-- `U32.CMP`: the unsigned order of the patterns (R119). -/
def u32Cmp (a b : U32) : Byte := if a < b then 0xFF else if a = b then 0x00 else 0x01

/-- `U32.HASH`: the identity on the pattern (R120). -/
def u32Hash (c : U32) : U32 := c

/-- The effective block size: `cfg` when positive as an `s32`, else the built-in default (R6, R143). -/
def effectiveBlockSize (p : Params) (cfg : U32) : Nat :=
  if 0 < asS32 cfg then (asS32 cfg).toNat else p.defaultBlockSize

end Sys2Proof.Machine
end

