-- ==== Sys2Proof/Syntax.lean ====
section
/-! DEFINITION. The commands of the HBS codec, one constructor for each row of spec/opcode_table.json
(spec/30_encoding.md R89). R94 gives the source's names. -/

namespace Sys2Proof

/-- A command with its operands (R88, R89, R91). The operand types keep the difference between an integer and a byte
sequence that R89 asks a model to keep: `LE32.ENC` takes a `u32`, `LE32.DEC` four bytes. -/
inductive Instr where
  /-- `ENC.INIT cfg`: construct the encoder with configured block size `cfg`, an `s32` (R143). -/
  | encInit (cfg : U32)
  /-- `ENC.WRITE data`: the source's `write(bytes)` (R144); the operand `n` is the length of `data`. -/
  | encWrite (data : Bytes)
  /-- `ENC.FLUSH`: the source's `flush()` (R145). -/
  | encFlush
  /-- `ENC.CLOSE`: the source's `close()` (R146). -/
  | encClose
  /-- `DEC.INIT`: construct the decoder (R171). -/
  | decInit
  /-- `DEC.READ n`: the source's `read()` (R172). -/
  | decRead (n : U32)
  /-- `LE32.ENC v` (R110). -/
  | le32Enc (v : U32)
  /-- `LE32.DEC b`, `b` exactly four bytes (R111). -/
  | le32Dec (b0 b1 b2 b3 : Byte)
  /-- `LE64.ENC v` (R112). -/
  | le64Enc (v : U64)
  /-- `LE64.DEC b`, `b` exactly eight bytes (R113). -/
  | le64Dec (b0 b1 b2 b3 b4 b5 b6 b7 : Byte)
  /-- `U32.TOU64 c`: the source's `toUnsignedLong()` (R115). -/
  | u32ToU64 (c : U32)
  /-- `U32.FROMU64 v`: the source's `fromUnsignedLong(value)` (R116). -/
  | u32FromU64 (v : U64)
  /-- `U32.FROMBYTE b`: the source's `fromByte(b)` (R117). -/
  | u32FromByte (b : Byte)
  /-- `U32.EQ a, b` (R118). -/
  | u32Eq (a b : U32)
  /-- `U32.CMP a, b` (R119). -/
  | u32Cmp (a b : U32)
  /-- `U32.HASH c` (R120). -/
  | u32Hash (c : U32)
  /-- `SHA256 m` (R130). -/
  | sha256 (data : Bytes)
deriving DecidableEq, Repr

end Sys2Proof
end

