-- ==== Sys2Proof/WellFormed.lean ====
section
/-! DEFINITION. Which commands are well formed: the operand ranges of spec/30_encoding.md R88, R89 and R92. -/

namespace Sys2Proof

/-- A format D byte count is a `u64` (R88), so it counts at most 2^64 - 1 bytes. -/
abbrev WellFormedData (data : Bytes) : Prop := data.length < 2 ^ 64

/-- `DEC.READ` takes `n >= 1`; with `n = 0` it is an illegal command (R89, R92). -/
abbrev WellFormedCount (n : U32) : Prop := n ≠ 0#32

/-- The well-formed commands. Every other operand range is its Lean type. -/
def WellFormed : Instr → Bool
  | .encInit _ => true
  | .encWrite data => decide (WellFormedData data)
  | .encFlush => true
  | .encClose => true
  | .decInit => true
  | .decRead n => decide (WellFormedCount n)
  | .le32Enc _ => true
  | .le32Dec _ _ _ _ => true
  | .le64Enc _ => true
  | .le64Dec _ _ _ _ _ _ _ _ => true
  | .u32ToU64 _ => true
  | .u32FromU64 _ => true
  | .u32FromByte _ => true
  | .u32Eq _ _ => true
  | .u32Cmp _ _ => true
  | .u32Hash _ => true
  | .sha256 data => decide (WellFormedData data)

end Sys2Proof
end

