-- ==== Sys2Proof/Decode.lean ====
section
/-! DEFINITION. The command encoding (spec/30_encoding.md R87 to R92): formats, opcodes, the decoder of a command
transaction, and after it the encoder. -/

namespace Sys2Proof

open Machine (leDec le32Dec le64Dec)

/-- The command formats of R88. -/
inductive Format where
  | N | B | W | WW | Q | D
deriving DecidableEq, Repr

/-- Why a transaction is not a command (R92). -/
inductive DecodeError where
  /-- The transaction has no byte, so no opcode (R87). -/
  | noOpcode
  /-- The opcode is not in the table of R89. -/
  | unknownOpcode (op : Byte)
  /-- The length is not the one the opcode's format requires. -/
  | badLength (op : Byte)
deriving DecidableEq, Repr

/-- The format of each opcode of the table (R89). -/
def opcodeFormat (op : Byte) : Option Format :=
  match op.toNat with
  | 0x10 => some .W
  | 0x11 => some .D
  | 0x12 => some .N
  | 0x13 => some .N
  | 0x20 => some .N
  | 0x21 => some .W
  | 0x30 => some .W
  | 0x31 => some .W
  | 0x32 => some .Q
  | 0x33 => some .Q
  | 0x34 => some .W
  | 0x35 => some .Q
  | 0x36 => some .B
  | 0x37 => some .WW
  | 0x38 => some .WW
  | 0x39 => some .W
  | 0x3A => some .D
  | _ => none

/-- Format N: nothing after the opcode (R88). -/
def decodeN (op : Byte) (i : Instr) : Bytes → Except DecodeError Instr
  | [] => .ok i
  | _ => .error (.badLength op)

/-- Format B: one operand byte (R88). -/
def decodeB (op : Byte) (f : Byte → Instr) : Bytes → Except DecodeError Instr
  | [b] => .ok (f b)
  | _ => .error (.badLength op)

/-- Format W: four operand bytes (R88). -/
def decodeW (op : Byte) (f : Byte → Byte → Byte → Byte → Instr) : Bytes → Except DecodeError Instr
  | [b0, b1, b2, b3] => .ok (f b0 b1 b2 b3)
  | _ => .error (.badLength op)

/-- Formats Q and WW: eight operand bytes (R88). -/
def decodeQ (op : Byte) (f : Byte → Byte → Byte → Byte → Byte → Byte → Byte → Byte → Instr) :
    Bytes → Except DecodeError Instr
  | [b0, b1, b2, b3, b4, b5, b6, b7] => .ok (f b0 b1 b2 b3 b4 b5 b6 b7)
  | _ => .error (.badLength op)

/-- Format D: an eight-byte count, then exactly that many data bytes (R88, R92). -/
def decodeD (op : Byte) (f : Bytes → Instr) (rest : Bytes) : Except DecodeError Instr :=
  if 8 ≤ rest.length ∧ leDec (rest.take 8) = (rest.drop 8).length then .ok (f (rest.drop 8))
  else .error (.badLength op)

/-- A `u32` operand from its four bytes (R91). -/
def word (f : U32 → Instr) (b0 b1 b2 b3 : Byte) : Instr := f (le32Dec [b0, b1, b2, b3])

/-- A `u64` operand from its eight bytes (R91). -/
def quad (f : U64 → Instr) (b0 b1 b2 b3 b4 b5 b6 b7 : Byte) : Instr := f (le64Dec [b0, b1, b2, b3, b4, b5, b6, b7])

/-- The two `u32` operands of format WW from their eight bytes (R88, R91). -/
def twoWords (f : U32 → U32 → Instr) (b0 b1 b2 b3 b4 b5 b6 b7 : Byte) : Instr :=
  f (le32Dec [b0, b1, b2, b3]) (le32Dec [b4, b5, b6, b7])

/-- The decoder of one transaction (R87 to R92). Total; what it refuses it refuses as a whole and by name. `DEC.READ`
with `n = 0`, the one illegal command of R92 that has an opcode and length of the table, is decoded to the ill-formed
`Instr.decRead 0`, which its meaning answers `IllegalCommand` (log 11). -/
def decode : Bytes → Except DecodeError Instr
  | [] => .error .noOpcode
  | op :: rest =>
    match op.toNat with
    | 0x10 => decodeW op (word .encInit) rest
    | 0x11 => decodeD op .encWrite rest
    | 0x12 => decodeN op .encFlush rest
    | 0x13 => decodeN op .encClose rest
    | 0x20 => decodeN op .decInit rest
    | 0x21 => decodeW op (word .decRead) rest
    | 0x30 => decodeW op (word .le32Enc) rest
    | 0x31 => decodeW op .le32Dec rest
    | 0x32 => decodeQ op (quad .le64Enc) rest
    | 0x33 => decodeQ op .le64Dec rest
    | 0x34 => decodeW op (word .u32ToU64) rest
    | 0x35 => decodeQ op (quad .u32FromU64) rest
    | 0x36 => decodeB op .u32FromByte rest
    | 0x37 => decodeQ op (twoWords .u32Eq) rest
    | 0x38 => decodeQ op (twoWords .u32Cmp) rest
    | 0x39 => decodeW op (word .u32Hash) rest
    | 0x3A => decodeD op .sha256 rest
    | _ => .error (.unknownOpcode op)

/-- How many bytes the transaction with opcode `op` and operand bytes `rest` has in all, by its format (R88). An opcode
outside the table has no format and is taken alone. -/
def commandLength (op : Byte) (rest : Bytes) : Nat :=
  match opcodeFormat op with
  | some .N => 1
  | some .B => 2
  | some .W => 5
  | some .WW => 9
  | some .Q => 9
  | some .D => 9 + leDec (rest.take 8)
  | none => 1

/-- The transaction whose bits are `w`, byte `i` being bits `8i+7 .. 8i`, with every bit above `nbits` zero, as long as
its format requires (log 14). -/
def tableBytes (nbits w : Nat) : Bytes :=
  let low := (List.range ((nbits + 7) / 8)).map fun i => BitVec.ofNat 8 (w / 2 ^ (8 * i))
  match low with
  | [] => []
  | op :: rest => low ++ List.replicate (commandLength op rest - low.length) 0x00

/-- The command the decoder reads from a row of spec/opcode_table.json. -/
def decodeTableWord (nbits w : Nat) : Option Instr := (decode (tableBytes nbits w)).toOption

/-- The opcode byte of each command (R89). -/
def Instr.opcode : Instr → Byte
  | .encInit _ => 0x10
  | .encWrite _ => 0x11
  | .encFlush => 0x12
  | .encClose => 0x13
  | .decInit => 0x20
  | .decRead _ => 0x21
  | .le32Enc _ => 0x30
  | .le32Dec _ _ _ _ => 0x31
  | .le64Enc _ => 0x32
  | .le64Dec _ _ _ _ _ _ _ _ => 0x33
  | .u32ToU64 _ => 0x34
  | .u32FromU64 _ => 0x35
  | .u32FromByte _ => 0x36
  | .u32Eq _ _ => 0x37
  | .u32Cmp _ _ => 0x38
  | .u32Hash _ => 0x39
  | .sha256 _ => 0x3A

/-- The operand bytes of each command, little-endian (R88, R91). -/
def Instr.operandBytes : Instr → Bytes
  | .encInit cfg => Machine.le32Enc cfg
  | .encWrite data => Machine.le64Enc (BitVec.ofNat 64 data.length) ++ data
  | .encFlush => []
  | .encClose => []
  | .decInit => []
  | .decRead n => Machine.le32Enc n
  | .le32Enc v => Machine.le32Enc v
  | .le32Dec b0 b1 b2 b3 => [b0, b1, b2, b3]
  | .le64Enc v => Machine.le64Enc v
  | .le64Dec b0 b1 b2 b3 b4 b5 b6 b7 => [b0, b1, b2, b3, b4, b5, b6, b7]
  | .u32ToU64 c => Machine.le32Enc c
  | .u32FromU64 v => Machine.le64Enc v
  | .u32FromByte b => [b]
  | .u32Eq a b => Machine.le32Enc a ++ Machine.le32Enc b
  | .u32Cmp a b => Machine.le32Enc a ++ Machine.le32Enc b
  | .u32Hash c => Machine.le32Enc c
  | .sha256 data => Machine.le64Enc (BitVec.ofNat 64 data.length) ++ data

/-- The transaction of a command: its opcode, then its operands (R87, R88). -/
def encode (i : Instr) : Bytes := i.opcode :: i.operandBytes

end Sys2Proof
end

