-- ==== Sys2Proof/Machine/Memory.lean ====
section
/-! DEFINITION. The two internal byte arrays `ENC.BUF` and `DEC.RES` (spec/20_memory.md R50 to R52) as lists of
(offset, byte) pairs in one canonical form: offsets strictly rising. An unlisted offset has no value of its own; the
reader supplies the free byte of spec/93_implementation_defined.md U6, so no listed entry can equal it. -/

namespace Sys2Proof.Machine

/-- The written bytes of one array, by offset. -/
abbrev Memory := List Host.Cell

/-- The canonical form. -/
abbrev Memory.wf (m : Memory) : Prop := m.Pairwise fun a b => a.1 < b.1

/-- The byte at an offset, `none` where nothing has written. -/
def readCell : Memory → Nat → Option Byte
  | [], _ => none
  | c :: m, a => if c.1 = a then some c.2 else readCell m a

/-- Store one byte. -/
def writeByte : Memory → Nat → Byte → Memory
  | [], a, v => [(a, v)]
  | c :: m, a, v => if a < c.1 then (a, v) :: c :: m else if a = c.1 then (a, v) :: m else c :: writeByte m a v

/-- The byte at an offset as a unit reads it; `free` gives the bytes nothing has written. -/
def readByte (free : Nat → Byte) (m : Memory) (a : Nat) : Byte := (readCell m a).getD (free a)

/-- `MemRead(space, a, n)`: the bytes at offsets `a .. a + n - 1` (R51, R52). -/
def memRead (free : Nat → Byte) (m : Memory) (a n : Nat) : Bytes := (List.range n).map fun i => readByte free m (a + i)

/-- `MemWrite(space, a, n, v)` with `n` the length of `v` (R51, R52). -/
def memWrite (m : Memory) (a : Nat) : Bytes → Memory
  | [] => m
  | b :: bs => memWrite (writeByte m a b) (a + 1) bs

end Sys2Proof.Machine
end

