-- ==== Sys2Proof/Machine/Units.lean ====
section
/-! DEFINITION. The parts the machine's state is made of: errors and responses, the encoder's and the decoder's
registers (spec/10_state.md R20 to R30), and the sink and source beside them (R42; spec/20_memory.md R53, R54). -/

namespace Sys2Proof.Machine

/-- The five error kinds (R200). -/
inductive ErrKind where
  | configurationError | malformedFrame | integrityViolation | ioFailure | rangeError
deriving DecidableEq, Repr

/-- What an error records: its kind and one cause byte (R208). -/
structure Err where
  kind : ErrKind
  cause : Byte
deriving DecidableEq, Repr

/-- The `OK` payload of a response, typed as R89's table has it. -/
inductive Payload where
  /-- No payload. -/
  | empty
  /-- A byte sequence. -/
  | bytes (b : Bytes)
  /-- A `u32` or a U32 cell. -/
  | word (v : U32)
  /-- A `u64`. -/
  | quad (v : U64)
  /-- One byte. -/
  | byte (b : Byte)
  /-- `DEC.READ`: `k`, then `k` bytes (R179). -/
  | chunk (k : U32) (out : Bytes)
deriving DecidableEq, Repr

/-- A response (R17, R90). -/
inductive Response where
  | ok (p : Payload)
  | eos
  | error (e : Err)
  | illegalCommand
deriving DecidableEq, Repr

/-- What the sink answers to one call (R53), or that it never answers (R13). -/
inductive SinkAnswer where
  | ok | fail | never
deriving DecidableEq, Repr

/-- What the source does with one call (R54): serve it (`ok` when it has the bytes, else `short`), answer `short` or
`fail` whatever it has, or never answer (R13). -/
inductive SourceAnswer where
  | serve | short | fail | never
deriving DecidableEq, Repr

/-- A sink (R42, R53). -/
structure Sink where
  /-- `SINK.DATA`: the bytes the sink holds. -/
  data : Bytes
  /-- Whether it is open. -/
  isOpen : Bool
  /-- How many flushes it has seen. -/
  flushes : Nat
  /-- Its answers to the coming calls, an input of the step; when none is left it answers `ok`, as the memory sink of
  R55 (log 3). -/
  answers : List SinkAnswer
  /-- The model's own: how many calls it has got; the free values of Config are drawn by it (log 4). -/
  calls : Nat
deriving DecidableEq, Repr

/-- A source (R42, R54). -/
structure Source where
  /-- The bytes it delivers. -/
  data : Bytes
  /-- Its read position. -/
  pos : Nat
  /-- What it does with the coming calls, an input of the step; when none is left it serves, as the memory source of
  R55 (log 3). -/
  answers : List SourceAnswer
  /-- The model's own: how many calls it has got; the free values of Config are drawn by it (log 4). -/
  calls : Nat
deriving DecidableEq, Repr

/-- The memory sink of R55: empty, open, answering `ok`. -/
def Sink.memory : Sink := { data := [], isOpen := true, flushes := 0, answers := [], calls := 0 }

/-- The memory source of R55 over a byte sequence. -/
def Source.memory (data : Bytes) : Source := { data := data, pos := 0, answers := [], calls := 0 }

/-- The encoder's registers (R20 to R26). -/
structure Encoder where
  /-- `ENC.BLOCKSIZE` (R21). -/
  blockSize : Nat
  /-- `ENC.BUF` (R22). -/
  buf : Memory
  /-- `ENC.FILL` (R23). -/
  fill : Nat
  /-- `ENC.NEXT_INDEX`, a counter over `0 .. 2^32` (R24). -/
  nextIndex : Nat
  /-- `ENC.CLOSED` (R25). -/
  closed : Bool
  /-- `ENC.ERR` (R26). -/
  err : Option Err
  /-- A command is blocked on a sink call that never answers (R13). -/
  waiting : Bool
deriving DecidableEq, Repr

/-- The decoder's registers (R20, R27 to R30). -/
structure Decoder where
  /-- `DEC.EXPECTED_INDEX`, a counter over `0 .. 2^32` (R27). -/
  expectedIndex : Nat
  /-- `DEC.TERM` (R28). -/
  term : Bool
  /-- `DEC.RES` (R29). -/
  res : Memory
  /-- `DEC.RES_LEN` (R29). -/
  resLen : Nat
  /-- `DEC.RES_POS` (R29). -/
  resPos : Nat
  /-- `DEC.ERR` (R30). -/
  err : Option Err
  /-- A command is blocked on a source call that never answers (R13). -/
  waiting : Bool
deriving DecidableEq, Repr

/-- What the host does, one at a time and between commands (R12; 70 R240, R243). -/
inductive HostEvent where
  /-- Issue one transaction on the command port (R87). -/
  | command (b : Bytes)
  /-- Attach a sink to the sink port (R243). -/
  | attachSink (k : Sink)
  /-- Attach a source to the source port (R243). -/
  | attachSource (r : Source)
  /-- Apply power-on reset (R240). -/
  | powerOnReset
deriving DecidableEq, Repr

end Sys2Proof.Machine
end

