-- ==== Sys2Proof/Machine/Flags.lean ====
section
/-! DEFINITION. The status flags (spec/10_state.md R34): the failure registers and how they are set, the modes that are
functions of the flags (R26, R30; spec/60_exceptions.md R222, R223), and construction, which sets every flag (R39). -/

namespace Sys2Proof.Machine

/-- `ConfigurationError(0)` (R201). -/
def configurationError : Err := ⟨.configurationError, 0⟩

/-- `MalformedFrame(cause)`: 1 bad index, 2 bad length, 3 non-zero terminal digest, 4 short read (R202). -/
def malformedFrame (cause : Byte) : Err := ⟨.malformedFrame, cause⟩

/-- `IntegrityViolation(0)` (R203). -/
def integrityViolation : Err := ⟨.integrityViolation, 0⟩

/-- `IOFailure(cause)`: 1 write, 2 flush, 3 close, 4 source, 5 closed encoder (R204). -/
def ioFailure (cause : Byte) : Err := ⟨.ioFailure, cause⟩

/-- `RangeError(0)` (R205). -/
def rangeError : Err := ⟨.rangeError, 0⟩

/-- The failure register of a unit just constructed (R39). -/
def constructionError (p : Params) : Option Err := if p.sha256Available then none else some configurationError

/-- The encoder's registers after construction with configured block size `cfg` (R39, R143). `ENC.BUF` is left as it is:
its contents are unspecified and nothing reads them before writing (log 8). -/
def constructEncoder (p : Params) (cfg : U32) (e : Encoder) : Encoder :=
  { blockSize := effectiveBlockSize p cfg
    buf := e.buf
    fill := 0
    nextIndex := 0
    closed := false
    err := constructionError p
    waiting := false }

/-- The decoder's registers after construction (R39, R171). `DEC.RES` is left as it is (log 8). -/
def constructDecoder (p : Params) (d : Decoder) : Decoder :=
  { expectedIndex := 0
    term := false
    res := d.res
    resLen := 0
    resPos := 0
    err := constructionError p
    waiting := false }

/-- An encoder nothing has constructed or written, the argument of the first construction. -/
def Encoder.unconstructed : Encoder :=
  { blockSize := 0, buf := [], fill := 0, nextIndex := 0, closed := false, err := none, waiting := false }

/-- A decoder nothing has constructed or written, the argument of the first construction. -/
def Decoder.unconstructed : Decoder :=
  { expectedIndex := 0, term := false, res := [], resLen := 0, resPos := 0, err := none, waiting := false }

/-- The encoder's modes (R26, R222). -/
inductive EncMode where
  | opened | closed | failed
deriving DecidableEq, Repr

/-- The decoder's modes (R30, R223). -/
inductive DecMode where
  | active | terminated | failed
deriving DecidableEq, Repr

/-- The encoder's mode, a function of `ENC.ERR` and `ENC.CLOSED` (R26). -/
def Encoder.mode (e : Encoder) : EncMode :=
  if e.err.isSome then .failed else if e.closed then .closed else .opened

/-- The residual is empty (R29). -/
abbrev Decoder.ResidualEmpty (d : Decoder) : Prop := d.resPos = d.resLen

/-- The decoder's mode, a function of `DEC.ERR`, `DEC.TERM` and the residual (R30). -/
def Decoder.mode (d : Decoder) : DecMode :=
  if d.err.isSome then .failed else if d.term ∧ d.ResidualEmpty then .terminated else .active

end Sys2Proof.Machine
end

