-- ==== Sys2Proof/Machine/State.lean ====
section
/-! DEFINITION. The state of the machine, the reasons a step can stop, and the state after reset
(spec/10_state.md; spec/70_reset_and_hazards.md R240 to R242). -/

namespace Sys2Proof.Machine

/-- The whole machine: one encoder, one decoder, the sink and the source beside them, and the host's two ports.
PRIM and the digest function hold no state (R20). -/
structure State where
  /-- The construction parameters; no step changes them (R6 to R9). -/
  params : Params
  /-- The encoder's registers. -/
  enc : Encoder
  /-- The sink on the sink port. -/
  sink : Sink
  /-- The decoder's registers. -/
  dec : Decoder
  /-- The source on the source port. -/
  source : Source
  /-- What the host does next, oldest first; the command port is a part of it (R67, log 1). -/
  events : List HostEvent
  /-- The responses given on the response port, oldest first (R90, log 15). -/
  responses : List Response
deriving DecidableEq, Repr

/-- Faults that stop the machine. There is none: every error of this hardware is a response, after which the machine
goes on (R200, R213), so this type has no constructor. -/
inductive Fault where
deriving DecidableEq, Repr

/-- Reasons a step has no meaning. -/
inductive Refusal where
  /-- Raised by `exec` for an instruction without a meaning. Safe. No instruction of this model raises it. -/
  | notModelled (mnemonic : String)
  /-- Raised by every ENC command that reaches the encoder while an earlier one is blocked on a sink call that never
  answers: the unit accepts no further command, and such a run has no meaning (R13, R245, U7, U8). Safe. -/
  | encoderBusy
  /-- Raised by every DEC command that reaches the decoder while an earlier one is blocked on a source call that never
  answers (R13, R245, U7, U8). Safe. -/
  | decoderBusy
deriving DecidableEq, Repr

/-- The machine right after power-on reset with parameters `p`, the memory sink and an empty memory source attached
(R39, R240, R242; the attached devices: log 16). -/
def State.powerOn (p : Params) : State :=
  { params := p
    enc := constructEncoder p p.cfgBlockSize .unconstructed
    sink := .memory
    dec := constructDecoder p .unconstructed
    source := .memory []
    events := []
    responses := [] }

/-- The machine right after reset. -/
def State.reset : State := State.powerOn Config.params

end Sys2Proof.Machine
end

