-- ==== Sys2Proof/Machine/Ops.lean ====
section
/-! DEFINITION. The operations the meanings share: responses, the latch of an error (what stands for taking an exception,
spec/60_exceptions.md R213), the calls to the sink and the source (spec/20_memory.md R53, R54), and how a command of a
unit begins and ends. There is no return from an error but construction (R215), which is `constructEncoder` and
`constructDecoder`. -/

namespace Sys2Proof.Machine

/-! ### Responses -/

/-- The status byte of an error kind (R207). -/
def ErrKind.status : ErrKind → Byte
  | .configurationError => 0x81
  | .malformedFrame => 0x82
  | .integrityViolation => 0x83
  | .ioFailure => 0x84
  | .rangeError => 0x85

/-- The bytes of an `OK` payload (R89, R90). -/
def Payload.encode : Payload → Bytes
  | .empty => []
  | .bytes b => b
  | .word v => le32Enc v
  | .quad v => le64Enc v
  | .byte b => [b]
  | .chunk k out => le32Enc k ++ out

/-- The transaction of a response on the response port (R90, R207). -/
def Response.encode : Response → Bytes
  | .ok p => 0x00 :: p.encode
  | .eos => [0x01]
  | .error e => [e.kind.status, e.cause]
  | .illegalCommand => [0x8F, 0x00]

/-- Give one response (R90). -/
def State.respond (s : State) (r : Response) : State := { s with responses := s.responses ++ [r] }

/-- An illegal command: the response `IllegalCommand` and nothing else (R92, R206). -/
def State.refuseCommand (s : State) : State := s.respond .illegalCommand

/-! ### The latch -/

/-- The two units that hold a failure register (R34). -/
inductive CodecUnit where
  | enc | dec
deriving DecidableEq, Repr

/-- Write the failure register of one unit (R213, first step). -/
def State.latch (s : State) : CodecUnit → Err → State
  | .enc, e => { s with enc := { s.enc with err := some e } }
  | .dec, e => { s with dec := { s.dec with err := some e } }

/-- `raise Kind(cause)`: latch the error in the unit's failure register and respond with it; nothing else changes
(R213). This is the one operation by which every error of an ENC or DEC operation is taken. -/
def State.raise (s : State) (u : CodecUnit) (e : Err) : State := (s.latch u e).respond (.error e)

/-! ### How an operation goes on or ends -/

/-- How far an operation of a unit has come, `σ` being what it works on. -/
inductive Flow (σ α : Type) where
  /-- It goes on, with a value. -/
  | done (a : α) (u : σ)
  /-- It raised an error, which is to be latched (R213). -/
  | raised (e : Err) (u : σ)
  /-- It ended with a response that latches nothing: a re-raise (R214), `IOFailure(5)` (R140), `EOS` (R177). -/
  | answered (r : Response) (u : σ)
  /-- It waits on a call that never answers (R13). -/
  | stuck (u : σ)
deriving DecidableEq, Repr

/-- Go on with `g` where `f` is done; every other outcome ends the operation, no later line runs (R213). -/
def Flow.bind {σ α β : Type} (f : Flow σ α) (g : α → σ → Flow σ β) : Flow σ β :=
  match f with
  | .done a u => g a u
  | .raised e u => .raised e u
  | .answered r u => .answered r u
  | .stuck u => .stuck u

/-- What an encoder command works on: the encoder's registers and its sink (R31, R41). -/
structure EncSide where
  enc : Encoder
  sink : Sink
deriving DecidableEq, Repr

/-- What a decoder command works on: the decoder's registers and its source (R31, R41). -/
structure DecSide where
  dec : Decoder
  source : Source
deriving DecidableEq, Repr

/-- The encoder's side of a state. -/
def State.encSide (s : State) : EncSide := ⟨s.enc, s.sink⟩

/-- The decoder's side of a state. -/
def State.decSide (s : State) : DecSide := ⟨s.dec, s.source⟩

/-- Put the encoder's side back. -/
def State.withEncSide (s : State) (u : EncSide) : State := { s with enc := u.enc, sink := u.sink }

/-- Put the decoder's side back. -/
def State.withDecSide (s : State) (u : DecSide) : State := { s with dec := u.dec, source := u.source }

/-- How an encoder command ends: with its one response (R90), or waiting, with none (R13). -/
def State.finishEnc (s : State) : Flow EncSide Payload → State
  | .done p u => (s.withEncSide u).respond (.ok p)
  | .raised e u => (s.withEncSide u).raise .enc e
  | .answered r u => (s.withEncSide u).respond r
  | .stuck u => s.withEncSide { u with enc := { u.enc with waiting := true } }

/-- How a decoder command ends: with its one response (R90), or waiting, with none (R13). -/
def State.finishDec (s : State) : Flow DecSide Payload → State
  | .done p u => (s.withDecSide u).respond (.ok p)
  | .raised e u => (s.withDecSide u).raise .dec e
  | .answered r u => (s.withDecSide u).respond r
  | .stuck u => s.withDecSide { u with dec := { u.dec with waiting := true } }

/-- Run one encoder command. A waiting encoder accepts none (R13, R245). -/
def encCommand (op : EncSide → Flow EncSide Payload) (s : State) : Host.Outcome State Fault Refusal :=
  if s.enc.waiting then .refused .encoderBusy else .next (s.finishEnc (op s.encSide))

/-- Run one decoder command. A waiting decoder accepts none (R13, R245). -/
def decCommand (op : DecSide → Flow DecSide Payload) (s : State) : Host.Outcome State Fault Refusal :=
  if s.dec.waiting then .refused .decoderBusy else .next (s.finishDec (op s.decSide))

/-! ### The sink -/

/-- The sink's answer to the next call (R53, R55). -/
def Sink.answer (k : Sink) : SinkAnswer := k.answers.headD .ok

/-- The sink after a call has been made, its content and flags apart. -/
def Sink.called (k : Sink) : Sink := { k with answers := k.answers.tail, calls := k.calls + 1 }

/-- `SinkWrite(b)`: on `ok` the sink holds `b` too; otherwise it holds some prefix of `b`, a FREE VALUE (R53, U4). -/
def sinkWrite (b : Bytes) (k : Sink) : SinkAnswer × Sink :=
  match k.answer with
  | .ok => (.ok, { k.called with data := k.data ++ b })
  | .fail => (.fail, { k.called with data := k.data ++ b.take (Config.keptPrefix k.calls) })
  | .never => (.never, { k.called with data := k.data ++ b.take (Config.keptPrefix k.calls) })

/-- `SinkFlush()`: the content is unchanged; the sink has seen one more flush (R42, R53, log 7). -/
def sinkFlush (k : Sink) : SinkAnswer × Sink := (k.answer, { k.called with flushes := k.flushes + 1 })

/-- `SinkClose()`: on `ok` the sink is closed; otherwise whether it is open is a FREE VALUE (R53, N13). -/
def sinkClose (k : Sink) : SinkAnswer × Sink :=
  match k.answer with
  | .ok => (.ok, { k.called with isOpen := false })
  | .fail => (.fail, { k.called with isOpen := Config.openAfterFailedClose k.calls })
  | .never => (.never, { k.called with isOpen := Config.openAfterFailedClose k.calls })

/-- Make one sink call in an encoder operation; a `fail` answer raises `IOFailure(cause)` (R141, R145, R146). -/
def encCall (call : Sink → SinkAnswer × Sink) (cause : Byte) (u : EncSide) : Flow EncSide Unit :=
  match call u.sink with
  | (.ok, k) => .done () { u with sink := k }
  | (.fail, k) => .raised (ioFailure cause) { u with sink := k }
  | (.never, k) => .stuck { u with sink := k }

/-! ### The source -/

/-- The outcome of one source call (R54, R13). -/
inductive SourceReply where
  | ok (b : Bytes)
  | short
  | fail
  | never
deriving DecidableEq, Repr

/-- What the source does with the next call (R54, R55). -/
def Source.answer (r : Source) : SourceAnswer := r.answers.headD .serve

/-- The source after a call has been made, its position apart. -/
def Source.called (r : Source) : Source := { r with answers := r.answers.tail, calls := r.calls + 1 }

/-- The source after a call that did not answer `ok`: its position is a FREE VALUE (R54, U5). -/
def Source.lost (r : Source) : Source := { r.called with pos := Config.sourcePosition r.calls }

/-- `SrcReadExactly(n)` (R54). -/
def srcReadExactly (n : Nat) (r : Source) : SourceReply × Source :=
  match r.answer with
  | .serve =>
    if r.pos + n ≤ r.data.length then (.ok ((r.data.drop r.pos).take n), { r.called with pos := r.pos + n })
    else (.short, r.lost)
  | .short => (.short, r.lost)
  | .fail => (.fail, r.lost)
  | .never => (.never, r.lost)

/-! ### The host's other events -/

/-- Attach a sink (R243). -/
def State.attachSink (s : State) (k : Sink) : State := { s with sink := k }

/-- Attach a source (R243). -/
def State.attachSource (s : State) (r : Source) : State := { s with source := r }

/-- Power-on reset: both units are constructed, the encoder with `CFG_BLOCKSIZE`; no response is given and neither the
sink nor the source is touched (R240 to R242). -/
def State.powerOnReset (s : State) : State :=
  { s with
    enc := constructEncoder s.params s.params.cfgBlockSize s.enc
    dec := constructDecoder s.params s.dec }

end Sys2Proof.Machine
end

