-- ==== Sys2Proof/Machine/Sha256.lean ====
section
/-! DEFINITION. The digest function `SHA256` (spec/41_sha256_digest.md R130 to R137). -/

namespace Sys2Proof.Machine

/-- `ROTR(x, n)` (R135). -/
def rotr (x : U32) (n : Nat) : U32 := (x >>> n) ||| (x <<< (32 - n))

/-- `Ch` (R135). -/
def sha256Ch (x y z : U32) : U32 := (x &&& y) ^^^ (~~~x &&& z)

/-- `Maj` (R135). -/
def sha256Maj (x y z : U32) : U32 := (x &&& y) ^^^ (x &&& z) ^^^ (y &&& z)

/-- `S0`, big sigma 0 (R135). -/
def sha256BigSigma0 (x : U32) : U32 := rotr x 2 ^^^ rotr x 13 ^^^ rotr x 22

/-- `S1`, big sigma 1 (R135). -/
def sha256BigSigma1 (x : U32) : U32 := rotr x 6 ^^^ rotr x 11 ^^^ rotr x 25

/-- `s0`, small sigma 0 (R135). -/
def sha256SmallSigma0 (x : U32) : U32 := rotr x 7 ^^^ rotr x 18 ^^^ (x >>> 3)

/-- `s1`, small sigma 1 (R135). -/
def sha256SmallSigma1 (x : U32) : U32 := rotr x 17 ^^^ rotr x 19 ^^^ (x >>> 10)

/-- The round constants `K_0 .. K_63`, eight a row (R134). -/
def sha256K : List U32 :=
  [0x428a2f98, 0x71374491, 0xb5c0fbcf, 0xe9b5dba5, 0x3956c25b, 0x59f111f1, 0x923f82a4, 0xab1c5ed5] ++
  [0xd807aa98, 0x12835b01, 0x243185be, 0x550c7dc3, 0x72be5d74, 0x80deb1fe, 0x9bdc06a7, 0xc19bf174] ++
  [0xe49b69c1, 0xefbe4786, 0x0fc19dc6, 0x240ca1cc, 0x2de92c6f, 0x4a7484aa, 0x5cb0a9dc, 0x76f988da] ++
  [0x983e5152, 0xa831c66d, 0xb00327c8, 0xbf597fc7, 0xc6e00bf3, 0xd5a79147, 0x06ca6351, 0x14292967] ++
  [0x27b70a85, 0x2e1b2138, 0x4d2c6dfc, 0x53380d13, 0x650a7354, 0x766a0abb, 0x81c2c92e, 0x92722c85] ++
  [0xa2bfe8a1, 0xa81a664b, 0xc24b8b70, 0xc76c51a3, 0xd192e819, 0xd6990624, 0xf40e3585, 0x106aa070] ++
  [0x19a4c116, 0x1e376c08, 0x2748774c, 0x34b0bcb5, 0x391c0cb3, 0x4ed8aa4a, 0x5b9cca4f, 0x682e6ff3] ++
  [0x748f82ee, 0x78a5636f, 0x84c87814, 0x8cc70208, 0x90befffa, 0xa4506ceb, 0xbef9a3f7, 0xc67178f2]

/-- Eight 32-bit words: the hash value `H0 .. H7`, or the working variables `a .. h` (R133, R136). -/
structure HashWords where
  a : U32
  b : U32
  c : U32
  d : U32
  e : U32
  f : U32
  g : U32
  h : U32
deriving DecidableEq, Repr

/-- The initial hash value (R133). -/
def sha256Initial : HashWords :=
  { a := 0x6a09e667, b := 0xbb67ae85, c := 0x3c6ef372, d := 0xa54ff53a,
    e := 0x510e527f, f := 0x9b05688c, g := 0x1f83d9ab, h := 0x5be0cd19 }

/-- The `n`-byte big-endian encoding of a number: `BE64`, `BE32` (R131, R137). -/
def beEnc (n v : Nat) : Bytes := (List.range n).map fun i => BitVec.ofNat 8 (v / 2 ^ (8 * (n - 1 - i)))

/-- Padding: `m ++ [0x80] ++ zeros(k) ++ BE64(8 L)`, `k = (55 - L) mod 64` (R131). -/
def sha256Pad (m : Bytes) : Bytes :=
  m ++ [0x80] ++ List.replicate ((119 - m.length % 64) % 64) 0x00 ++ beEnc 8 (8 * m.length)

/-- The big-endian 32-bit words of a byte sequence, four bytes each (R132). -/
def beWords : Bytes → List U32
  | b0 :: b1 :: b2 :: b3 :: rest => (b0 ++ b1 ++ b2 ++ b3 : U32) :: beWords rest
  | _ => []

/-- `n` more words of the message schedule, the newest word first (R136). -/
def sha256Extend : Nat → List U32 → List U32
  | 0, ws => ws
  | n + 1, ws =>
    sha256Extend n
      ((sha256SmallSigma1 (ws.getD 1 0) + ws.getD 6 0 + sha256SmallSigma0 (ws.getD 14 0) + ws.getD 15 0) :: ws)

/-- The message schedule `W_0 .. W_63` of one block (R136). -/
def sha256Schedule (block : Bytes) : List U32 := (sha256Extend 48 (beWords block).reverse).reverse

/-- One round, with its constant `K_t` and its word `W_t` (R136). -/
def sha256Round (v : HashWords) (kw : U32 × U32) : HashWords :=
  let t1 := v.h + sha256BigSigma1 v.e + sha256Ch v.e v.f v.g + kw.1 + kw.2
  let t2 := sha256BigSigma0 v.a + sha256Maj v.a v.b v.c
  { a := t1 + t2, b := v.a, c := v.b, d := v.c, e := v.d + t1, f := v.e, g := v.f, h := v.g }

/-- The compression of one 64-byte block into the hash value (R136). -/
def sha256Compress (hv : HashWords) (block : Bytes) : HashWords :=
  let v := (sha256K.zip (sha256Schedule block)).foldl sha256Round hv
  { a := hv.a + v.a, b := hv.b + v.b, c := hv.c + v.c, d := hv.d + v.d,
    e := hv.e + v.e, f := hv.f + v.f, g := hv.g + v.g, h := hv.h + v.h }

/-- The compression of `n` blocks in order (R132, R136). -/
def sha256Blocks : Nat → HashWords → Bytes → HashWords
  | 0, hv, _ => hv
  | n + 1, hv, m => sha256Blocks n (sha256Compress hv (m.take 64)) (m.drop 64)

/-- The output: `BE32(H0) ++ ... ++ BE32(H7)` (R137). -/
def HashWords.bytes (v : HashWords) : Bytes :=
  [v.a, v.b, v.c, v.d, v.e, v.f, v.g, v.h].flatMap fun w => beEnc 4 w.toNat

/-- `SHA256(m)` for a message in the range of R130 (R131 to R137). -/
def sha256InRange (m : Bytes) : Bytes :=
  (sha256Blocks ((sha256Pad m).length / 64) sha256Initial (sha256Pad m)).bytes

/-- `SHA256(m)` (R130). The spec gives the digest for fewer than 2^61 bytes; beyond, the 32 bytes are a FREE VALUE
(log 12). -/
def sha256 (m : Bytes) : Bytes :=
  if m.length < 2 ^ 61 then sha256InRange m else List.ofFn (Config.digestBeyondRange m)

end Sys2Proof.Machine
end

