-- ==== Sys2Proof/Machine/Decoder.lean ====
section
/-! DEFINITION. The Block Decoder (spec/43_block_decoder.md R171 to R184). -/

namespace Sys2Proof.Machine

/-- `SrcField(n)` (R174). -/
def srcField (n : Nat) (u : DecSide) : Flow DecSide Bytes :=
  match srcReadExactly n u.source with
  | (.ok b, r) => .done b { u with source := r }
  | (.short, r) => .raised (malformedFrame 4) { u with source := r }
  | (.fail, r) => .raised (ioFailure 4) { u with source := r }
  | (.never, r) => .stuck { u with source := r }

/-- `CheckIndex(idx)` (R175). -/
def checkIndex (idx : U32) (u : DecSide) : Flow DecSide Unit :=
  if idx.toNat ≠ u.dec.expectedIndex then .raised (malformedFrame 1) u else .done () u

/-- `CheckLength(len)`, the length read back as an unsigned value (R176). -/
def checkLength (p : Params) (len : Nat) (u : DecSide) : Flow DecSide Unit :=
  if p.maxBlockLen < len then .raised (malformedFrame 2) u else .done () u

/-- `AcceptTerminal(d)` (R177). -/
def acceptTerminal (d : Bytes) (u : DecSide) : Flow DecSide Unit :=
  if d ≠ List.replicate 32 0x00 then .raised (malformedFrame 3) u
  else .answered .eos { u with dec := { u.dec with term := true } }

/-- The registers after a data block with payload `p` is accepted (R178). -/
def acceptBlock (p : Bytes) (d : Decoder) : Decoder :=
  { d with
    expectedIndex := d.expectedIndex + 1
    res := memWrite d.res 0 p
    resLen := p.length
    resPos := 0 }

/-- `AcceptData(d, len)` (R178). -/
def acceptData (d : Bytes) (len : Nat) (u : DecSide) : Flow DecSide Unit :=
  (srcField len u).bind fun p u =>
  if sha256 p ≠ d then .raised integrityViolation u else .done () { u with dec := acceptBlock p u.dec }

/-- `ReadFrame()`: the source's steps 1 to 5 in their order (R173). -/
def readFrame (p : Params) (u : DecSide) : Flow DecSide Unit :=
  (srcField 4 u).bind fun b u =>
  (checkIndex (le32Dec b) u).bind fun _ u =>
  (srcField 32 u).bind fun d u =>
  (srcField 4 u).bind fun b u =>
  (checkLength p (u32ToU64 (le32Dec b)).toNat u).bind fun _ u =>
  if (u32ToU64 (le32Dec b)).toNat = 0 then acceptTerminal d u
  else acceptData d (u32ToU64 (le32Dec b)).toNat u

/-- How many bytes `Deliver(n)` returns (R179). -/
def deliverLength (n : U32) (d : Decoder) : Nat := min n.toNat (d.resLen - d.resPos)

/-- The bytes `Deliver(n)` returns: `MemRead(DEC.RES, DEC.RES_POS, k)` (R179). -/
def deliverBytes (n : U32) (d : Decoder) : Bytes :=
  memRead Config.unwrittenDecRes d.res d.resPos (deliverLength n d)

/-- `Deliver(n)` (R179). -/
def deliver (n : U32) (u : DecSide) : Flow DecSide Payload :=
  .done (.chunk (BitVec.ofNat 32 (deliverLength n u.dec)) (deliverBytes n u.dec))
    { u with dec := { u.dec with resPos := u.dec.resPos + deliverLength n u.dec } }

/-- The frame `DEC.READ` reads when the residual is empty, or `EOS` once the terminal flag is set (R172). -/
def refill (p : Params) (u : DecSide) : Flow DecSide Unit :=
  if u.dec.ResidualEmpty then
    if u.dec.term then .answered .eos u else readFrame p u
  else .done () u

/-- The first step of `DEC.READ`: a latched error is re-raised (R172, R214). -/
def decAdmit (u : DecSide) : Flow DecSide Unit :=
  match u.dec.err with
  | some e => .answered (.error e) u
  | none => .done () u

/-- `DEC.INIT` (R171): accepted in every mode, no source call. -/
def execDecInit (s : State) : Host.Outcome State Fault Refusal :=
  decCommand (fun u =>
    let u' := { u with dec := constructDecoder s.params u.dec }
    match constructionError s.params with
    | none => .done .empty u'
    | some e => .raised e u') s

/-- `DEC.READ n` (R172). With `n = 0` it is an illegal command, answered before the unit sees it (R92, R211). -/
def execDecRead (n : U32) (s : State) : Host.Outcome State Fault Refusal :=
  if n = 0#32 then .next s.refuseCommand
  else
    decCommand (fun u =>
      (decAdmit u).bind fun _ u =>
      (refill s.params u).bind fun _ u =>
      deliver n u) s

end Sys2Proof.Machine
end

