-- ==== Sys2Proof/Machine/Encoder.lean ====
section
/-! DEFINITION. The Block Encoder (spec/42_block_encoder.md R140 to R148). -/

namespace Sys2Proof.Machine

/-- `EncAdmit()`: a latched error is re-raised; a closed encoder answers `IOFailure(5)`, unlatched (R140). -/
def encAdmit (u : EncSide) : Flow EncSide Unit :=
  match u.enc.err with
  | some e => .answered (.error e) u
  | none => if u.enc.closed then .answered (.error (ioFailure 5)) u else .done () u

/-- The last write of a frame: its payload, when it has one (R141). -/
def writePayload (p : Bytes) (u : EncSide) : Flow EncSide Unit :=
  if p.length = 0 then .done () u else encCall (sinkWrite p) 1 u

/-- The late increment of `ENC.NEXT_INDEX` (R141). -/
def advanceIndex (u : EncSide) : EncSide := { u with enc := { u.enc with nextIndex := u.enc.nextIndex + 1 } }

/-- `EmitFrame(p, d)`: index, digest, length and payload in four writes, the index counted after the last (R141). -/
def emitFrame (p d : Bytes) (u : EncSide) : Flow EncSide Unit :=
  if 2 ^ 32 ≤ u.enc.nextIndex then .raised rangeError u
  else
    (encCall (sinkWrite (le32Enc (BitVec.ofNat 32 u.enc.nextIndex))) 1 u).bind fun _ u =>
    (encCall (sinkWrite d) 1 u).bind fun _ u =>
    (encCall (sinkWrite (le32Enc (BitVec.ofNat 32 p.length))) 1 u).bind fun _ u =>
    (writePayload p u).bind fun _ u =>
    .done () (advanceIndex u)

/-- `EmitData(p)` (R142). -/
def emitData (p : Bytes) (u : EncSide) : Flow EncSide Unit := emitFrame p (sha256 p) u

/-- `EmitTerminal()` (R142). -/
def emitTerminal (u : EncSide) : Flow EncSide Unit := emitFrame [] (List.replicate 32 0x00) u

/-- The bytes of `ENC.BUF` not yet emitted: `MemRead(ENC.BUF, 0, ENC.FILL)` (R51). -/
def pendingBytes (e : Encoder) : Bytes := memRead Config.unwrittenEncBuf e.buf 0 e.fill

/-- `MemWrite(ENC.BUF, ENC.FILL, k, d)` and the advance of `ENC.FILL` by `k`, the length of `d` (R144). -/
def fillBuffer (d : Bytes) (u : EncSide) : EncSide :=
  { u with enc := { u.enc with buf := memWrite u.enc.buf u.enc.fill d, fill := u.enc.fill + d.length } }

/-- Emit the buffered bytes as a data block and empty the buffer (R144, R146). -/
def emitBuffer (u : EncSide) : Flow EncSide Unit :=
  (emitData (pendingBytes u.enc) u).bind fun _ u => .done () { u with enc := { u.enc with fill := 0 } }

/-- How many bytes one pass of the loop copies: `min(ENC.BLOCKSIZE - ENC.FILL, n - i)` (R144). -/
def passLength (data : Bytes) (u : EncSide) : Nat := min (u.enc.blockSize - u.enc.fill) data.length

/-- The loop of `ENC.WRITE` over the bytes not yet copied (R144). The first argument bounds the passes: one more than
the bytes suffices whenever `ENC.FILL <= ENC.BLOCKSIZE`, the range R23 gives; outside it the loop of the spec does not
end (log 18). -/
def writeLoop : Nat → Bytes → EncSide → Flow EncSide Unit
  | _, [], u => .done () u
  | 0, _ :: _, u => .stuck u
  | passes + 1, b :: bs, u =>
    let data := b :: bs
    let k := passLength data u
    let u' := fillBuffer (data.take k) u
    if u'.enc.fill = u'.enc.blockSize then
      (emitBuffer u').bind fun _ u'' => writeLoop passes (data.drop k) u''
    else writeLoop passes (data.drop k) u'

/-- The end of `ENC.CLOSE` after the terminal block: flush, close, and only then the flag (R146). -/
def flushAndClose (u : EncSide) : Flow EncSide Payload :=
  (encCall sinkFlush 2 u).bind fun _ u =>
  (encCall sinkClose 3 u).bind fun _ u =>
  .done .empty { u with enc := { u.enc with closed := true } }

/-- The last data block of `ENC.CLOSE`, when the buffer holds bytes (R146). -/
def emitRest (u : EncSide) : Flow EncSide Unit := if 0 < u.enc.fill then emitBuffer u else .done () u

/-- `ENC.INIT cfg` (R143): accepted in every mode, no sink call. -/
def execEncInit (cfg : U32) (s : State) : Host.Outcome State Fault Refusal :=
  encCommand (fun u =>
    let u' := { u with enc := constructEncoder s.params cfg u.enc }
    match constructionError s.params with
    | none => .done .empty u'
    | some e => .raised e u') s

/-- `ENC.WRITE data` (R144). -/
def execEncWrite (data : Bytes) (s : State) : Host.Outcome State Fault Refusal :=
  encCommand (fun u =>
    (encAdmit u).bind fun _ u =>
    (writeLoop (data.length + 1) data u).bind fun _ u =>
    .done .empty u) s

/-- `ENC.FLUSH` (R145). -/
def execEncFlush (s : State) : Host.Outcome State Fault Refusal :=
  encCommand (fun u =>
    (encAdmit u).bind fun _ u =>
    (encCall sinkFlush 2 u).bind fun _ u =>
    .done .empty u) s

/-- `ENC.CLOSE` (R146). -/
def execEncClose (s : State) : Host.Outcome State Fault Refusal :=
  encCommand (fun u =>
    (encAdmit u).bind fun _ u =>
    (emitRest u).bind fun _ u =>
    (emitTerminal u).bind fun _ u =>
    flushAndClose u) s

end Sys2Proof.Machine
end

