-- ==== Sys2Proof/Machine/Primitive.lean ====
section
/-! DEFINITION. The primitive operations as commands (spec/40_primitive_io.md R110 to R120) and the digest command
(spec/41_sha256_digest.md R130, R139). Each answers and changes no register; its errors are not latched (R205, R201). -/

namespace Sys2Proof.Machine

/-- A command of PRIM: one response, nothing else (R20, R31). -/
def primCommand (r : Response) (s : State) : Host.Outcome State Fault Refusal := .next (s.respond r)

/-- `LE32.ENC v` (R110). -/
def execLe32Enc (v : U32) (s : State) : Host.Outcome State Fault Refusal :=
  primCommand (.ok (.bytes (le32Enc v))) s

/-- `LE32.DEC b` (R111). -/
def execLe32Dec (b0 b1 b2 b3 : Byte) (s : State) : Host.Outcome State Fault Refusal :=
  primCommand (.ok (.word (le32Dec [b0, b1, b2, b3]))) s

/-- `LE64.ENC v` (R112). -/
def execLe64Enc (v : U64) (s : State) : Host.Outcome State Fault Refusal :=
  primCommand (.ok (.bytes (le64Enc v))) s

/-- `LE64.DEC b` (R113). -/
def execLe64Dec (b0 b1 b2 b3 b4 b5 b6 b7 : Byte) (s : State) : Host.Outcome State Fault Refusal :=
  primCommand (.ok (.quad (le64Dec [b0, b1, b2, b3, b4, b5, b6, b7]))) s

/-- `U32.TOU64 c` (R115). -/
def execU32ToU64 (c : U32) (s : State) : Host.Outcome State Fault Refusal :=
  primCommand (.ok (.quad (u32ToU64 c))) s

/-- `U32.FROMU64 v` (R116): `RangeError(0)`, unlatched, when `v` exceeds 2^32 - 1. -/
def execU32FromU64 (v : U64) (s : State) : Host.Outcome State Fault Refusal :=
  match u32FromU64 v with
  | some c => primCommand (.ok (.word c)) s
  | none => primCommand (.error rangeError) s

/-- `U32.FROMBYTE b` (R117). -/
def execU32FromByte (b : Byte) (s : State) : Host.Outcome State Fault Refusal :=
  primCommand (.ok (.word (u32FromByte b))) s

/-- `U32.EQ a, b` (R118). -/
def execU32Eq (a b : U32) (s : State) : Host.Outcome State Fault Refusal :=
  primCommand (.ok (.byte (u32Eq a b))) s

/-- `U32.CMP a, b` (R119). -/
def execU32Cmp (a b : U32) (s : State) : Host.Outcome State Fault Refusal :=
  primCommand (.ok (.byte (u32Cmp a b))) s

/-- `U32.HASH c` (R120). -/
def execU32Hash (c : U32) (s : State) : Host.Outcome State Fault Refusal :=
  primCommand (.ok (.word (u32Hash c))) s

/-- `SHA256 m` (R130): `ConfigurationError(0)`, unlatched, when the digest engine is absent (R139). -/
def execSha256 (data : Bytes) (s : State) : Host.Outcome State Fault Refusal :=
  if s.params.sha256Available then primCommand (.ok (.bytes (sha256 data))) s
  else primCommand (.error configurationError) s

end Sys2Proof.Machine
end

