-- ==== Sys2Proof/Machine/Dispatch.lean ====
section
/-! DEFINITION. One arm per command, each one direct call of its meaning (spec/30_encoding.md R89). -/

namespace Sys2Proof.Machine

def exec (i : Instr) (s : State) : Host.Outcome State Fault Refusal :=
  match i with
  | .encInit cfg => Sys2Proof.Machine.execEncInit cfg s
  | .encWrite data => Sys2Proof.Machine.execEncWrite data s
  | .encFlush => Sys2Proof.Machine.execEncFlush s
  | .encClose => Sys2Proof.Machine.execEncClose s
  | .decInit => Sys2Proof.Machine.execDecInit s
  | .decRead n => Sys2Proof.Machine.execDecRead n s
  | .le32Enc v => Sys2Proof.Machine.execLe32Enc v s
  | .le32Dec b0 b1 b2 b3 => Sys2Proof.Machine.execLe32Dec b0 b1 b2 b3 s
  | .le64Enc v => Sys2Proof.Machine.execLe64Enc v s
  | .le64Dec b0 b1 b2 b3 b4 b5 b6 b7 => Sys2Proof.Machine.execLe64Dec b0 b1 b2 b3 b4 b5 b6 b7 s
  | .u32ToU64 c => Sys2Proof.Machine.execU32ToU64 c s
  | .u32FromU64 v => Sys2Proof.Machine.execU32FromU64 v s
  | .u32FromByte b => Sys2Proof.Machine.execU32FromByte b s
  | .u32Eq a b => Sys2Proof.Machine.execU32Eq a b s
  | .u32Cmp a b => Sys2Proof.Machine.execU32Cmp a b s
  | .u32Hash c => Sys2Proof.Machine.execU32Hash c s
  | .sha256 data => Sys2Proof.Machine.execSha256 data s

end Sys2Proof.Machine
end

