-- ==== Sys2Proof/Machine/Step.lean ====
section
/-! DEFINITION. One step: the host's next event (spec/00_scope.md R12; spec/20_memory.md R63, R67). -/

namespace Sys2Proof.Machine

/-- Run one transaction of the command port: the decoded command, or `IllegalCommand` (R92). -/
def runTransaction (b : Bytes) (s : State) : Host.Outcome State Fault Refusal :=
  match decode b with
  | .ok i => exec i s
  | .error _ => .next s.refuseCommand

/-- One step takes the host's oldest event and completes it. With none the machine is idle and keeps all its state
(R228). -/
def step (s : State) : Host.Outcome State Fault Refusal :=
  match s.events with
  | [] => .next s
  | .command b :: rest => runTransaction b { s with events := rest }
  | .attachSink k :: rest => .next (State.attachSink { s with events := rest } k)
  | .attachSource r :: rest => .next (State.attachSource { s with events := rest } r)
  | .powerOnReset :: rest => .next (State.powerOnReset { s with events := rest })

/-- `s` with the transaction of an opcode-table row as the next event, so that `step` runs exactly it (log 1). -/
def State.withFetchWord (s : State) (nbits w : Nat) : State :=
  { s with events := .command (tableBytes nbits w) :: s.events }

end Sys2Proof.Machine
end

