-- ==== Sys2Proof/Machine/Wire.lean ====
section
/-! DEFINITION. The frame wire format and the streams it makes (spec/30_encoding.md R80 to R85; spec/42_block_encoder.md
R149). The encoder does not use these: they say what its sink ends up holding. -/

namespace Sys2Proof.Machine

/-- `Frame(k, p)`: the data frame with index `k` and payload `p` (R80, R149). -/
def dataFrame (k : Nat) (p : Bytes) : Bytes :=
  le32Enc (BitVec.ofNat 32 k) ++ sha256 p ++ le32Enc (BitVec.ofNat 32 p.length) ++ p

/-- `Terminal(k)`: the terminal frame with index `k` (R81, R149). -/
def terminalFrame (k : Nat) : Bytes :=
  le32Enc (BitVec.ofNat 32 k) ++ List.replicate 32 0x00 ++ le32Enc 0

/-- The four sequences that carry a data frame to the sink, one `SinkWrite` each (R59, R141). -/
def dataWrites (k : Nat) (p : Bytes) : List Bytes :=
  [le32Enc (BitVec.ofNat 32 k), sha256 p, le32Enc (BitVec.ofNat 32 p.length), p]

/-- The three sequences that carry a terminal frame to the sink, one `SinkWrite` each (R59, R141). -/
def terminalWrites (k : Nat) : List Bytes := [le32Enc (BitVec.ofNat 32 k), List.replicate 32 0x00, le32Enc 0]

/-- The data frames of a list of payloads, the first with index `k`, one after another (R82). -/
def dataFrames : Nat → List Bytes → Bytes
  | _, [] => []
  | k, p :: ps => dataFrame k p ++ dataFrames (k + 1) ps

/-- A stream: the data frames of `ps` from index 0, then the terminal frame (R82). -/
def streamOf (ps : List Bytes) : Bytes := dataFrames 0 ps ++ terminalFrame ps.length

/-- The full blocks of `data` for block size `B`: `data[kB .. (k+1)B)` for `k < |data| / B` (R85). -/
def fullBlocks (B : Nat) (data : Bytes) : List Bytes :=
  (List.range (data.length / B)).map fun k => (data.drop (k * B)).take B

/-- What of `data` the full blocks leave: `data[qB .. |data|)` (R85). -/
def restBlock (B : Nat) (data : Bytes) : Bytes := data.drop (data.length / B * B)

/-- The payloads of the frames an encoder writes for `data`: the full blocks, then the rest when there is one (R85). -/
def blocksOf (B : Nat) (data : Bytes) : List Bytes :=
  fullBlocks B data ++ if (restBlock B data).length = 0 then [] else [restBlock B data]

/-- The stream an encoder writes for `data` with block size `B` (R149). -/
def encodedStream (B : Nat) (data : Bytes) : Bytes := streamOf (blocksOf B data)

end Sys2Proof.Machine
end

