-- ==== Sys2Proof/Machine/Pseudo.lean ====
section
/-! DEFINITION. Programs, and the pseudo-operations `ENCODE` and `DECODE` with their values (spec/30_encoding.md R93,
R95). -/

namespace Sys2Proof.Machine

/-- Let the host do `es` in order, from `s` (R93). -/
def runEvents (es : List HostEvent) (s : State) : Host.Outcome State Fault Refusal :=
  Host.Core.run Sys2Proof.core es.length { s with events := es }

/-- The event that issues one command. -/
def issue (i : Instr) : HostEvent := .command (encode i)

/-- `ENCODE(data, B)`: `ENC.INIT B; ENC.WRITE data; ENC.CLOSE` against a fresh memory sink (R95). -/
def encodeProgram (cfg : U32) (data : Bytes) : List HostEvent :=
  [.attachSink .memory, issue (.encInit cfg), issue (.encWrite data), issue .encClose]

/-- `DEC.INIT` and one `DEC.READ` for each of the counts `ns`, whatever the responses, over a memory source (R181).
`DECODE` itself stops at the first response other than `OK`: `decodeRun`. -/
def decodeProgram (stream : Bytes) (ns : List U32) : List HostEvent :=
  .attachSource (.memory stream) :: issue .decInit :: ns.map fun n => issue (.decRead n)

/-- The bytes one response delivers (R179). -/
def deliveredBy : Response → Bytes
  | .ok (.chunk _ out) => out
  | _ => []

/-- The concatenation of the bytes a list of responses delivers (R95, R181). -/
def delivered (rs : List Response) : Bytes := rs.flatMap deliveredBy

/-- What follows an outcome that is a next state; a fault or a refusal stands. -/
def andThen (o : Host.Outcome State Fault Refusal) (f : State → Host.Outcome State Fault Refusal) :
    Host.Outcome State Fault Refusal :=
  match o with
  | .next t => f t
  | .fault r => .fault r
  | .refused r => .refused r

/-- A quantity read off the state that a run ends in. -/
def valueOf {α : Type} (f : State → α) : Host.Outcome State Fault Refusal → Option α
  | .next t => some (f t)
  | .fault _ => none
  | .refused _ => none

/-- The responses given between `s` and a later state `t` (R90). -/
def newResponses (s t : State) : List Response := t.responses.drop s.responses.length

/-- The response is `OK` (R17). -/
def Response.isOk : Response → Bool
  | .ok _ => true
  | .eos => false
  | .error _ => false
  | .illegalCommand => false

/-- `DEC.READ (n 0)`, `DEC.READ (n 1)`, … until a response other than `OK` arrives (R95), at most `k` of them. -/
def readUntilEnd : Nat → (Nat → U32) → State → Host.Outcome State Fault Refusal
  | 0, _, s => .next s
  | k + 1, n, s =>
    andThen (runEvents [issue (.decRead (n 0))] s) fun t =>
      if (newResponses s t).any Response.isOk then readUntilEnd k (fun i => n (i + 1)) t else .next t

/-- The run of `DECODE(stream)` with the counts `n`, from `s` (R95). Every `OK` of a `DEC.READ` delivers at least one byte
of the stream, so one read more than the stream has bytes reaches a response other than `OK` (log 22). -/
def decodeRun (n : Nat → U32) (stream : Bytes) (s : State) : Host.Outcome State Fault Refusal :=
  andThen (runEvents [.attachSource (.memory stream), issue .decInit] s) (readUntilEnd (stream.length + 1) n)

/-- The value of `DECODE(stream)`: the bytes the `OK` responses deliver, one after another, and the final response
(R95). -/
def decodeValue (n : Nat → U32) (stream : Bytes) (s : State) : Option (Bytes × Response) :=
  (valueOf (newResponses s) (decodeRun n stream s)).bind fun rs => rs.getLast?.map fun r => (delivered rs, r)

/-- The value of `ENCODE(data, cfg)`: the final content of its sink (R95). -/
def encodeValue (cfg : U32) (data : Bytes) (s : State) : Option Bytes :=
  valueOf (·.sink.data) (runEvents (encodeProgram cfg data) s)

end Sys2Proof.Machine
end

