-- ==== Sys2Proof/Safety.lean ====
section
/-! DEFINITION. What holds of every state a run reaches (spec/10_state.md R40), and which steps complete. -/

namespace Sys2Proof.Machine

/-- The errors an encoder can hold latched (R26, R209): with the digest engine those of its operations, without it the
one of construction (R39). -/
def encErrors (p : Params) : List Err :=
  if p.sha256Available then [ioFailure 1, ioFailure 2, ioFailure 3, rangeError] else [configurationError]

/-- The errors a decoder can hold latched (R30, R209). -/
def decErrors (p : Params) : List Err :=
  if p.sha256Available then
    [malformedFrame 1, malformedFrame 2, malformedFrame 3, malformedFrame 4, integrityViolation, ioFailure 4]
  else [configurationError]

/-- The offsets below `n` have all been written (R22, R29). -/
def Written (m : Memory) (n : Nat) : Prop := ∀ i, i < n → (readCell m i).isSome

/-- The invariants of the encoder's registers. -/
structure Encoder.Inv (p : Params) (e : Encoder) : Prop where
  /-- `ENC.BUF` is in canonical form. -/
  wf : e.buf.wf
  /-- I-a of R40, R21. -/
  blockSize_range : 1 ≤ e.blockSize ∧ e.blockSize ≤ 2 ^ 31 - 1
  /-- R23. -/
  fill_le : e.fill ≤ e.blockSize
  /-- R22: no byte is read before it is written. -/
  written : Written e.buf e.fill
  /-- R24. -/
  nextIndex_le : e.nextIndex ≤ 2 ^ 32
  /-- I-b of R40; a command that waits is not between commands. -/
  open_fill : e.mode = .opened → e.waiting = false → e.fill < e.blockSize
  /-- I-c of R40. -/
  closed_fill : e.mode = .closed → e.fill = 0
  /-- R222: there is no way between CLOSED and FAILED. -/
  closed_err : e.closed = true → e.err = none
  /-- R26, R209. -/
  err_legal : ∀ x, e.err = some x → x ∈ encErrors p
  /-- R39, R241. -/
  unavailable : p.sha256Available = false → e.err = some configurationError
  /-- Only an OPEN encoder calls its sink (R140). -/
  waiting_open : e.waiting = true → e.mode = .opened

/-- The invariants of the decoder's registers. -/
structure Decoder.Inv (p : Params) (d : Decoder) : Prop where
  /-- `DEC.RES` is in canonical form. -/
  wf : d.res.wf
  /-- R50: no offset outside the array has been written. -/
  capacity : ∀ c ∈ d.res, c.1 < p.maxBlockLen
  /-- R27. -/
  expectedIndex_le : d.expectedIndex ≤ 2 ^ 32
  /-- I-d of R40. -/
  residual_range : d.resPos ≤ d.resLen ∧ d.resLen ≤ p.maxBlockLen
  /-- R29: no byte is read before it is written. -/
  written : Written d.res d.resLen
  /-- I-e of R40. -/
  term_empty : d.term = true → d.ResidualEmpty
  /-- I-f of R40. -/
  err_empty : d.err.isSome → d.ResidualEmpty
  /-- I-h of R40. -/
  term_err : d.term = true → d.err = none
  /-- R30, R209. -/
  err_legal : ∀ x, d.err = some x → x ∈ decErrors p
  /-- R39, R241. -/
  unavailable : p.sha256Available = false → d.err = some configurationError
  /-- Only an ACTIVE decoder with an empty residual calls its source (R172). -/
  waiting_active : d.waiting = true → d.mode = .active ∧ d.ResidualEmpty

/-- The invariants of the whole state (R40). -/
structure State.Inv (s : State) : Prop where
  /-- R7, R8. -/
  params : s.params.Legal
  enc : s.enc.Inv s.params
  dec : s.dec.Inv s.params

/-- Neither unit waits on a call that never answers. -/
abbrev State.Idle (s : State) : Prop := s.enc.waiting = false ∧ s.dec.waiting = false

/-- The sink answers `ok` to every coming call. -/
abbrev Sink.Reliable (k : Sink) : Prop := ∀ a ∈ k.answers, a = .ok

/-- The source serves every coming call from its bytes. -/
abbrev Source.Reliable (r : Source) : Prop := ∀ a ∈ r.answers, a = .serve

/-- The encoder is in mode OPEN and no command of it waits (R222). -/
abbrev Encoder.Ready (e : Encoder) : Prop := e.err = none ∧ e.closed = false ∧ e.waiting = false

/-- The decoder is in mode ACTIVE with an empty residual and no command of it waits: its next `DEC.READ` reads a frame
(R172, R223). -/
abbrev Decoder.AtFrame (d : Decoder) : Prop :=
  d.err = none ∧ d.term = false ∧ d.ResidualEmpty ∧ d.waiting = false

/-- The next bytes of the source are `b`. -/
abbrev Source.Holds (r : Source) (b : Bytes) : Prop := b <+: r.data.drop r.pos

/-- The source after `k` served calls that delivered `n` bytes together. -/
def Source.after (r : Source) (k n : Nat) : Source :=
  { r with pos := r.pos + n, answers := r.answers.drop k, calls := r.calls + k }

/-- The sink after `k` calls answered `ok` that wrote the bytes `b` together. -/
def Sink.after (r : Sink) (k : Nat) (b : Bytes) : Sink :=
  { r with data := r.data ++ b, answers := r.answers.drop k, calls := r.calls + k }

/-- The sink after `n` calls that brought it the bytes `b` and left it the answers `l`. -/
def Sink.got (k : Sink) (n : Nat) (b : Bytes) (l : List SinkAnswer) : Sink :=
  { k with data := k.data ++ b, answers := l, calls := k.calls + n }

/-- The sink answers `ok` to `j` calls, `a` to the one after them, and then as `l` says. -/
abbrev Sink.AnswersAfter (k : Sink) (j : Nat) (a : SinkAnswer) (l : List SinkAnswer) : Prop :=
  k.answers = List.replicate j .ok ++ a :: l

/-- The source serves `j` calls, does `a` with the one after them, and then as `l` says. -/
abbrev Source.AnswersAfter (r : Source) (j : Nat) (a : SourceAnswer) (l : List SourceAnswer) : Prop :=
  r.answers = List.replicate j .serve ++ a :: l

/-- One when the buffer holds bytes, for which `ENC.CLOSE` emits a last data block (R146). -/
def Encoder.lastBlocks (e : Encoder) : Nat := if e.fill = 0 then 0 else 1

/-- The sequences `ENC.CLOSE` writes to the sink, in order: the last data block when there is one, then the terminal block
(R59, R146). -/
def closeWrites (e : Encoder) : List Bytes :=
  (if e.fill = 0 then [] else dataWrites e.nextIndex (pendingBytes e)) ++ terminalWrites (e.nextIndex + e.lastBlocks)

/-- The encoder's registers after `j` answered sink calls of `ENC.CLOSE`, before `ENC.CLOSED` is set: the buffer is emptied
when its block is out, the index counts each block when it is out (R141, R146). The last data block takes four calls, the
terminal block three. -/
def closeRegisters (e : Encoder) (j : Nat) : Encoder :=
  if j < 4 * e.lastBlocks then e
  else { e with fill := 0, nextIndex := e.nextIndex + e.lastBlocks + if j < 4 * e.lastBlocks + 3 then 0 else 1 }

/-- The transactions that are commands, by opcode, length and count (R88, R89, R92): the spec's table, not the decoder. -/
abbrev LegalOperands (op : Byte) (rest : Bytes) : Prop :=
  (op ∈ [0x12#8, 0x13#8, 0x20#8] ∧ rest.length = 0) ∨
  (op = 0x36#8 ∧ rest.length = 1) ∨
  (op ∈ [0x10#8, 0x30#8, 0x31#8, 0x34#8, 0x39#8] ∧ rest.length = 4) ∨
  (op = 0x21#8 ∧ rest.length = 4 ∧ rest ≠ [0x00#8, 0x00#8, 0x00#8, 0x00#8]) ∨
  (op ∈ [0x32#8, 0x33#8, 0x35#8, 0x37#8, 0x38#8] ∧ rest.length = 8) ∨
  (op ∈ [0x11#8, 0x3A#8] ∧ 8 ≤ rest.length ∧ leDec (rest.take 8) = rest.length - 8)

/-- A transaction is legal when it has an opcode and legal operands (R87, R92). -/
abbrev LegalTransaction (b : Bytes) : Prop := ∃ op ∈ b.head?, LegalOperands op b.tail

/-- The unit a command addresses: ENC, DEC, or none for PRIM and the digest (R89). -/
def commandUnit : Instr → Option CodecUnit
  | .encInit _ => some .enc
  | .encWrite _ => some .enc
  | .encFlush => some .enc
  | .encClose => some .enc
  | .decInit => some .dec
  | .decRead _ => some .dec
  | .le32Enc _ => none
  | .le32Dec _ _ _ _ => none
  | .le64Enc _ => none
  | .le64Dec _ _ _ _ _ _ _ _ => none
  | .u32ToU64 _ => none
  | .u32FromU64 _ => none
  | .u32FromByte _ => none
  | .u32Eq _ _ => none
  | .u32Cmp _ _ => none
  | .u32Hash _ => none
  | .sha256 _ => none

/-- The event constructs the encoder: power-on reset or `ENC.INIT` (R240). -/
def ConstructsEnc : HostEvent → Prop
  | .command b => ∃ cfg, decode b = .ok (.encInit cfg)
  | .attachSink _ => False
  | .attachSource _ => False
  | .powerOnReset => True

/-- The event constructs the decoder: power-on reset or `DEC.INIT` (R240). -/
def ConstructsDec : HostEvent → Prop
  | .command b => decode b = .ok .decInit
  | .attachSink _ => False
  | .attachSource _ => False
  | .powerOnReset => True

/-- The two states differ at most in bytes of `ENC.BUF` at `ENC.FILL` or above and in bytes of `DEC.RES` at
`DEC.RES_LEN` or above: the bytes no rule reads (R22, R29, R38). -/
structure State.SameButStale (s s' : State) : Prop where
  rest : s' = { s with enc := { s.enc with buf := s'.enc.buf }, dec := { s.dec with res := s'.dec.res } }
  buf : ∀ a, a < s.enc.fill → readByte Config.unwrittenEncBuf s'.enc.buf a = readByte Config.unwrittenEncBuf s.enc.buf a
  res : ∀ a, a < s.dec.resLen → readByte Config.unwrittenDecRes s'.dec.res a = readByte Config.unwrittenDecRes s.dec.res a

end Sys2Proof.Machine
end

