-- ==== Sys2Proof/Certificates/Slice0/Obligations.lean ====
section
/-! DEFINITION. The statements for the provers. Each docstring names what of spec/ it formalises, and the log entry or
the spec's sentence behind a clause that is not a rule's own. -/

open Sys2Proof Sys2Proof.Machine

/-! ### The command encoding -/

/-- Decode and encode agree on every well-formed command, every operand at every value its encoding admits
(30_encoding.md section 2). -/
def Obligations.CommandEncodingRoundTrip : Prop :=
  ∀ i : Instr, WellFormed i = true → decode (encode i) = .ok i

/-- The decoder drops no bit: a transaction it accepts is the encoding of the command it answers
(30_encoding.md section 2). -/
def Obligations.DecodedTransactionIsTheEncoding : Prop :=
  ∀ (b : Bytes) (i : Instr), decode b = .ok i → encode i = b

/-- Every transaction that is not a command of the table, or has not the length its format requires, or is `DEC.READ` with
`n = 0`, is answered `IllegalCommand`, status 0x8F, and nothing else changes; every legal transaction decodes to a
well-formed command (30_encoding.md section 2; the spec's own choice, 92_eei_decisions.md D22). That this takes in the
empty transaction (log 21), a unit that waits (log 9) and the place of the check of `DEC.READ` (log 11) is the model's
reading. -/
def Obligations.IllegalTransactionsAreRefused : Prop :=
  (∀ (s : State) (b : Bytes) (rest : List HostEvent), s.events = .command b :: rest → ¬ LegalTransaction b →
    step s = .next { s with events := rest, responses := s.responses ++ [.illegalCommand] }) ∧
  Response.illegalCommand.encode = [0x8F#8, 0x00#8] ∧
  (∀ b : Bytes, LegalTransaction b → ∃ i, decode b = .ok i ∧ WellFormed i = true)

/-- One word for each of the 17 commands, and one illegal word of each kind, written out from the layouts of
30_encoding.md section 2 and from 95_test_vectors.md part 3, decode to what they stand for. -/
def Obligations.SampleWordsDecode : Prop :=
  decode [0x10, 0x04, 0x00, 0x00, 0x00] = .ok (.encInit 4) ∧
  decode [0x11, 0x02, 0, 0, 0, 0, 0, 0, 0, 0x7A, 0x7B] = .ok (.encWrite [0x7A, 0x7B]) ∧
  decode [0x12] = .ok .encFlush ∧
  decode [0x13] = .ok .encClose ∧
  decode [0x20] = .ok .decInit ∧
  decode [0x21, 0x64, 0x01, 0x00, 0x00] = .ok (.decRead 0x164) ∧
  decode [0x30, 0x78, 0x56, 0x34, 0x12] = .ok (.le32Enc 0x12345678) ∧
  decode [0x31, 0x78, 0x56, 0x34, 0x12] = .ok (.le32Dec 0x78 0x56 0x34 0x12) ∧
  decode [0x32, 0x08, 0x07, 0x06, 0x05, 0x04, 0x03, 0x02, 0x01] = .ok (.le64Enc 0x0102030405060708) ∧
  decode [0x33, 0x08, 0x07, 0x06, 0x05, 0x04, 0x03, 0x02, 0x01] = .ok (.le64Dec 8 7 6 5 4 3 2 1) ∧
  decode [0x34, 0xFF, 0x00, 0x00, 0x80] = .ok (.u32ToU64 0x800000FF) ∧
  decode [0x35, 0, 0, 0, 0, 0x01, 0, 0, 0] = .ok (.u32FromU64 4294967296) ∧
  decode [0x36, 0xFF] = .ok (.u32FromByte 0xFF) ∧
  decode [0x37, 0x01, 0x00, 0x00, 0x00, 0x00, 0x01, 0x00, 0x00] = .ok (.u32Eq 0x00000001 0x00000100) ∧
  decode [0x38, 0x01, 0, 0, 0, 0xFF, 0xFF, 0xFF, 0x7F] = .ok (.u32Cmp 1 0x7FFFFFFF) ∧
  decode [0x39, 0xEF, 0xBE, 0xAD, 0xDE] = .ok (.u32Hash 0xDEADBEEF) ∧
  decode [0x3A, 0x03, 0, 0, 0, 0, 0, 0, 0, 0x61, 0x62, 0x63] = .ok (.sha256 [0x61, 0x62, 0x63]) ∧
  decode [0x12, 0x00] = .error (.badLength 0x12) ∧
  decode [0x00] = .error (.unknownOpcode 0x00)

/-- The bytes of a response: a status, then the payload of the command's row, every integer of it little-endian, or the
cause (30_encoding.md section 2; 60_exceptions.md section 1). A `DEC.READ` that answers `OK` carries `k`, then `k` bytes,
at least one and at most as many as asked for (43_block_decoder.md section 2; 92_eei_decisions.md D8). -/
def Obligations.ResponsesCarryStatusAndPayload : Prop :=
  (Response.ok .empty).encode = [0x00#8] ∧
  (∀ b : Bytes, (Response.ok (.bytes b)).encode = 0x00#8 :: b) ∧
  (∀ v : U32, (Response.ok (.word v)).encode =
    [0x00#8, v.extractLsb' 0 8, v.extractLsb' 8 8, v.extractLsb' 16 8, v.extractLsb' 24 8]) ∧
  (∀ v : U64, (Response.ok (.quad v)).encode =
    [0x00#8, v.extractLsb' 0 8, v.extractLsb' 8 8, v.extractLsb' 16 8, v.extractLsb' 24 8,
      v.extractLsb' 32 8, v.extractLsb' 40 8, v.extractLsb' 48 8, v.extractLsb' 56 8]) ∧
  (∀ b : Byte, (Response.ok (.byte b)).encode = [0x00#8, b]) ∧
  (∀ (k : U32) (out : Bytes), (Response.ok (.chunk k out)).encode =
    [0x00#8, k.extractLsb' 0 8, k.extractLsb' 8 8, k.extractLsb' 16 8, k.extractLsb' 24 8] ++ out) ∧
  (∀ (n k : U32) (out : Bytes) (s t : State), s.Inv → exec (.decRead n) s = .next t →
    t.responses = s.responses ++ [.ok (.chunk k out)] →
    out.length = k.toNat ∧ 1 ≤ k.toNat ∧ k.toNat ≤ n.toNat) ∧
  Response.eos.encode = [0x01#8] ∧
  Response.illegalCommand.encode = [0x8F#8, 0x00#8] ∧
  (∀ c : Byte,
    (Response.error ⟨.configurationError, c⟩).encode = [0x81#8, c] ∧
    (Response.error ⟨.malformedFrame, c⟩).encode = [0x82#8, c] ∧
    (Response.error ⟨.integrityViolation, c⟩).encode = [0x83#8, c] ∧
    (Response.error ⟨.ioFailure, c⟩).encode = [0x84#8, c] ∧
    (Response.error ⟨.rangeError, c⟩).encode = [0x85#8, c])

/-! ### The machine's step -/

/-- A step runs the decoded command: when the host's next event is a transaction that decodes to `i`, the step is `exec`
of `i` with that event taken off the port (20_memory.md section 4, log 1). -/
def Obligations.StepRunsTheDecodedCommand : Prop :=
  ∀ (s : State) (b : Bytes) (rest : List HostEvent) (i : Instr),
    s.events = .command b :: rest → decode b = .ok i → step s = exec i { s with events := rest }

/-- The steps that are no command: an idle machine keeps its state (60_exceptions.md section 4), an attachment replaces
the sink or the source and nothing else (70_reset_and_hazards.md section 2, log 1). -/
def Obligations.OtherHostEvents : Prop :=
  (∀ s : State, s.events = [] → step s = .next s) ∧
  (∀ (s : State) (k : Sink) (rest : List HostEvent), s.events = .attachSink k :: rest →
    step s = .next { s with sink := k, events := rest }) ∧
  (∀ (s : State) (r : Source) (rest : List HostEvent), s.events = .attachSource r :: rest →
    step s = .next { s with source := r, events := rest })

/-- Power-on reset constructs both units with the values of R39, gives no response and touches neither the sink nor the
source, whatever the state before (70_reset_and_hazards.md section 1). That a waiting unit is constructed too, and that
the buffers are left as they are, is the model's reading (logs 8, 10). -/
def Obligations.PowerOnResetConstructsBothUnits : Prop :=
  ∀ (s : State) (rest : List HostEvent), s.events = .powerOnReset :: rest →
    step s = .next
      { s with
        events := rest
        enc :=
          { blockSize := if 0 < s.params.cfgBlockSize.toInt then s.params.cfgBlockSize.toNat
              else s.params.defaultBlockSize
            buf := s.enc.buf
            fill := 0
            nextIndex := 0
            closed := false
            err := if s.params.sha256Available then none else some ⟨.configurationError, 0⟩
            waiting := false }
        dec :=
          { expectedIndex := 0
            term := false
            res := s.dec.res
            resLen := 0
            resPos := 0
            err := if s.params.sha256Available then none else some ⟨.configurationError, 0⟩
            waiting := false } }

/-- The state after reset has the construction values of R39, for all parameters (10_state.md section 5). The attached
devices and the empty ports are the model's choice (logs 1, 15, 16). -/
def Obligations.ResetStateHasConstructionValues : Prop :=
  ∀ p : Params,
    (State.powerOn p).enc.blockSize = (if 0 < p.cfgBlockSize.toInt then p.cfgBlockSize.toNat else p.defaultBlockSize) ∧
    (State.powerOn p).enc.fill = 0 ∧ (State.powerOn p).enc.nextIndex = 0 ∧ (State.powerOn p).enc.closed = false ∧
    (State.powerOn p).enc.err = (if p.sha256Available then none else some ⟨.configurationError, 0⟩) ∧
    (State.powerOn p).dec.expectedIndex = 0 ∧ (State.powerOn p).dec.term = false ∧
    (State.powerOn p).dec.resLen = 0 ∧ (State.powerOn p).dec.resPos = 0 ∧
    (State.powerOn p).dec.err = (if p.sha256Available then none else some ⟨.configurationError, 0⟩) ∧
    (State.powerOn p).sink = .memory ∧ (State.powerOn p).source = .memory [] ∧
    (State.powerOn p).events = [] ∧ (State.powerOn p).responses = []

/-- The invariants of 10_state.md section 6 hold after reset, for all legal parameters, and of `State.reset`. -/
def Obligations.InvariantHoldsAfterReset : Prop :=
  (∀ p : Params, p.Legal → (State.powerOn p).Inv) ∧ State.reset.Inv

/-- Every step keeps the invariants of 10_state.md section 6: the ranges of the counters, the canonical form of the
buffers, no byte read before it is written, the modes exclusive, only legal errors latched. -/
def Obligations.EveryStepKeepsTheInvariant : Prop :=
  ∀ s t : State, s.Inv → step s = .next t → t.Inv

/-- Every step completes, whatever the operands, the modes and the answers of the devices, unless it is a command to a unit
that waits on a call that never answers, which is refused by name (00_scope.md section 4, 70_reset_and_hazards.md
section 3, log 9). -/
def Obligations.StepsCompleteUnlessTheUnitWaits : Prop :=
  (∀ s : State, (∃ t, step s = .next t) ∨
    (s.enc.waiting = true ∧ step s = .refused .encoderBusy) ∨
    (s.dec.waiting = true ∧ step s = .refused .decoderBusy)) ∧
  (∀ (i : Instr) (s : State), s.Idle → ∃ t, exec i s = .next t)

/-- A command gets exactly one response, or none because its unit waits (30_encoding.md section 2; 00_scope.md
section 4, log 9). -/
def Obligations.OneResponseOrNone : Prop :=
  ∀ (i : Instr) (s t : State), exec i s = .next t →
    (∃ r, t.responses = s.responses ++ [r] ∧ t.enc.waiting = s.enc.waiting ∧ t.dec.waiting = s.dec.waiting) ∨
    (t.responses = s.responses ∧
      ((commandUnit i = some .enc ∧ t.enc.waiting = true) ∨ (commandUnit i = some .dec ∧ t.dec.waiting = true)))

/-- A command whose sink and source calls all answer does itself answer (70_reset_and_hazards.md section 4). -/
def Obligations.AnsweredCallsGiveAnAnsweredCommand : Prop :=
  ∀ (i : Instr) (s t : State), s.Inv → (∀ a ∈ s.sink.answers, a ≠ .never) → (∀ a ∈ s.source.answers, a ≠ .never) →
    exec i s = .next t → ∃ r, t.responses = s.responses ++ [r]

/-- A sink or source call that never answers, whichever call of whichever command it is: the command gets no response, the
registers are as they were at the call, the sink has got a first part of the sequence being written, and the unit accepts
no further command, while the other unit is as it was (00_scope.md section 4, 70_reset_and_hazards.md section 3, log 9).
That such a flush is counted is the model's choice (log 7); the part of the sequence (log 4), the open flag after such a
close (log 5) and the position of such a source (log 6) are its free values. -/
def Obligations.UnansweredCallBlocksItsUnit : Prop :=
  (∀ (s : State) (l : List SinkAnswer), s.enc.Ready → s.sink.answers = .never :: l →
    exec .encFlush s = .next
      { s with
        enc := { s.enc with waiting := true }
        sink := { s.sink with answers := l, flushes := s.sink.flushes + 1, calls := s.sink.calls + 1 } }) ∧
  (∀ (data : Bytes) (s : State) (j : Nat) (l : List SinkAnswer), s.enc.Ready → s.enc.fill < s.enc.blockSize →
    j < 4 * ((s.enc.fill + data.length) / s.enc.blockSize) → s.enc.nextIndex + j / 4 < 2 ^ 32 →
    s.sink.AnswersAfter j .never l →
    ∃ (m : Memory) (p q : Bytes),
      (fullBlocks s.enc.blockSize (pendingBytes s.enc ++ data))[j / 4]? = some p ∧
      q <+: (dataWrites (s.enc.nextIndex + j / 4) p).getD (j % 4) [] ∧
      exec (.encWrite data) s = .next
        { s with
          enc := { s.enc with
            buf := m
            fill := s.enc.blockSize
            nextIndex := s.enc.nextIndex + j / 4
            waiting := true }
          sink := s.sink.got (j + 1)
            (dataFrames s.enc.nextIndex ((fullBlocks s.enc.blockSize (pendingBytes s.enc ++ data)).take (j / 4)) ++
              ((dataWrites (s.enc.nextIndex + j / 4) p).take (j % 4)).flatten ++ q) l } ∧
      memRead Config.unwrittenEncBuf m 0 s.enc.blockSize = p ∧
      ∀ a, s.enc.blockSize ≤ a →
        readByte Config.unwrittenEncBuf m a = readByte Config.unwrittenEncBuf s.enc.buf a) ∧
  (∀ (s : State) (j : Nat) (l : List SinkAnswer), s.enc.Ready → j < (closeWrites s.enc).length →
    (closeRegisters s.enc j).nextIndex < 2 ^ 32 → s.sink.AnswersAfter j .never l →
    ∃ q : Bytes, q <+: (closeWrites s.enc).getD j [] ∧
      exec .encClose s = .next
        { s with
          enc := { closeRegisters s.enc j with waiting := true }
          sink := s.sink.got (j + 1) (((closeWrites s.enc).take j).flatten ++ q) l }) ∧
  (∀ (s : State) (l : List SinkAnswer), s.enc.Ready → s.enc.nextIndex + s.enc.lastBlocks < 2 ^ 32 →
    s.sink.AnswersAfter (closeWrites s.enc).length .never l →
    exec .encClose s = .next
      { s with
        enc := { closeRegisters s.enc (closeWrites s.enc).length with waiting := true }
        sink := { s.sink.got ((closeWrites s.enc).length + 1) (closeWrites s.enc).flatten l with
          flushes := s.sink.flushes + 1 } }) ∧
  (∀ (s : State) (l : List SinkAnswer), s.enc.Ready → s.enc.nextIndex + s.enc.lastBlocks < 2 ^ 32 →
    s.sink.AnswersAfter ((closeWrites s.enc).length + 1) .never l →
    ∃ o : Bool, exec .encClose s = .next
      { s with
        enc := { closeRegisters s.enc (closeWrites s.enc).length with waiting := true }
        sink := { s.sink.got ((closeWrites s.enc).length + 2) (closeWrites s.enc).flatten l with
          isOpen := o
          flushes := s.sink.flushes + 1 } }) ∧
  (∀ (s : State) (n : U32) (l : List SourceAnswer), n ≠ 0 → s.dec.AtFrame → s.source.answers = .never :: l →
    ∃ pos : Nat, exec (.decRead n) s = .next
      { s with
        dec := { s.dec with waiting := true }
        source := { s.source with answers := l, pos := pos, calls := s.source.calls + 1 } }) ∧
  (∀ (n : U32) (f : Bytes) (j : Nat) (l : List SourceAnswer) (s : State), n ≠ 0 → s.params.Legal → s.dec.AtFrame →
    s.dec.expectedIndex < 2 ^ 32 →
    ((∃ p : Bytes, f = dataFrame s.dec.expectedIndex p ∧ 1 ≤ p.length ∧ p.length ≤ s.params.maxBlockLen ∧ j < 4) ∨
      (f = terminalFrame s.dec.expectedIndex ∧ j < 3)) →
    s.source.Holds f → s.source.AnswersAfter j .never l →
    ∃ pos : Nat, exec (.decRead n) s = .next
      { s with
        dec := { s.dec with waiting := true }
        source := { s.source with answers := l, pos := pos, calls := s.source.calls + j + 1 } }) ∧
  (∀ (i : Instr) (s : State), commandUnit i = some .enc → s.enc.waiting = true → exec i s = .refused .encoderBusy) ∧
  (∀ (i : Instr) (s : State), commandUnit i = some .dec → i ≠ .decRead 0 → s.dec.waiting = true →
    exec i s = .refused .decoderBusy)

/-! ### The primitive operations -/

/-- R110: `LE32.ENC v`, opcode 0x30 in format W, answers the four bytes of `v`, least significant first, and changes
nothing else. -/
def Obligations.Le32EncAnswersTheBytes : Prop :=
  (∀ (v : U32) (s : State), exec (.le32Enc v) s = .next (s.respond (.ok (.bytes
    [v.extractLsb' 0 8, v.extractLsb' 8 8, v.extractLsb' 16 8, v.extractLsb' 24 8])))) ∧
  (∀ v : U32, encode (.le32Enc v) =
    [0x30, v.extractLsb' 0 8, v.extractLsb' 8 8, v.extractLsb' 16 8, v.extractLsb' 24 8]) ∧
  le32Enc 0x12345678 = [0x78, 0x56, 0x34, 0x12]

/-- R111: `LE32.DEC b`, opcode 0x31 in format W, answers the unsigned value of the four bytes and changes nothing else;
a sequence of another length is no operand of it. -/
def Obligations.Le32DecAnswersTheUnsignedValue : Prop :=
  (∀ (b0 b1 b2 b3 : Byte) (s : State), ∃ v : U32,
    exec (.le32Dec b0 b1 b2 b3) s = .next (s.respond (.ok (.word v))) ∧
    v.toNat = b0.toNat + 2 ^ 8 * b1.toNat + 2 ^ 16 * b2.toNat + 2 ^ 24 * b3.toNat) ∧
  (∀ b0 b1 b2 b3 : Byte, encode (.le32Dec b0 b1 b2 b3) = [0x31, b0, b1, b2, b3]) ∧
  (∀ rest : Bytes, rest.length ≠ 4 → decode (0x31 :: rest) = .error (.badLength 0x31))

/-- R112: `LE64.ENC v`, opcode 0x32 in format Q, answers the eight bytes of `v`, least significant first, and changes
nothing else. -/
def Obligations.Le64EncAnswersTheBytes : Prop :=
  (∀ (v : U64) (s : State), ∃ b : Bytes, exec (.le64Enc v) s = .next (s.respond (.ok (.bytes b))) ∧
    b.length = 8 ∧ ∀ i, i < 8 → b[i]? = some (v.extractLsb' (8 * i) 8)) ∧
  (∀ v : U64, ∃ b : Bytes, encode (.le64Enc v) = 0x32#8 :: b ∧
    b.length = 8 ∧ ∀ i, i < 8 → b[i]? = some (v.extractLsb' (8 * i) 8))

/-- R113: `LE64.DEC b`, opcode 0x33 in format Q, answers the unsigned value of the eight bytes and changes nothing
else. -/
def Obligations.Le64DecAnswersTheUnsignedValue : Prop :=
  (∀ (b0 b1 b2 b3 b4 b5 b6 b7 : Byte) (s : State), ∃ v : U64,
    exec (.le64Dec b0 b1 b2 b3 b4 b5 b6 b7) s = .next (s.respond (.ok (.quad v))) ∧
    v.toNat = b0.toNat + 2 ^ 8 * b1.toNat + 2 ^ 16 * b2.toNat + 2 ^ 24 * b3.toNat +
      2 ^ 32 * b4.toNat + 2 ^ 40 * b5.toNat + 2 ^ 48 * b6.toNat + 2 ^ 56 * b7.toNat) ∧
  (∀ b0 b1 b2 b3 b4 b5 b6 b7 : Byte,
    encode (.le64Dec b0 b1 b2 b3 b4 b5 b6 b7) = [0x33, b0, b1, b2, b3, b4, b5, b6, b7])

/-- R115: `U32.TOU64 c`, opcode 0x34 in format W, answers the stored bits read as unsigned, always succeeds and changes
nothing else: sign-extension and masking together are zero-extension. -/
def Obligations.U32ToU64ReadsTheCellAsUnsigned : Prop :=
  (∀ (c : U32) (s : State), exec (.u32ToU64 c) s = .next (s.respond (.ok (.quad (c.zeroExtend 64))))) ∧
  (∀ c : U32, c.signExtend 64 &&& 0x00000000FFFFFFFF#64 = c.zeroExtend 64) ∧
  (∀ c : U32, encode (.u32ToU64 c) = 0x34#8 :: le32Enc c)

/-- R116: `U32.FROMU64 v`, opcode 0x35 in format Q, answers the cell of `v`, or `RangeError(0)` exactly when `v` exceeds
2^32 - 1, reported in the response and latched nowhere; 2^32 - 1 itself round-trips through `U32.TOU64`. -/
def Obligations.U32FromU64RaisesRangeErrorAbove32Bits : Prop :=
  (∀ (v : U64) (s : State), v.toNat ≤ 2 ^ 32 - 1 →
    ∃ c : U32, c.toNat = v.toNat ∧ exec (.u32FromU64 v) s = .next (s.respond (.ok (.word c)))) ∧
  (∀ (v : U64) (s : State), 2 ^ 32 - 1 < v.toNat →
    exec (.u32FromU64 v) s = .next (s.respond (.error ⟨.rangeError, 0⟩))) ∧
  (u32FromU64 0xFFFFFFFF).map u32ToU64 = some 0xFFFFFFFF ∧
  (∀ v : U64, encode (.u32FromU64 v) = 0x35#8 :: le64Enc v)

/-- R117: `U32.FROMBYTE b`, opcode 0x36 in format B, answers the zero-extended byte and changes nothing else. -/
def Obligations.U32FromByteZeroExtends : Prop :=
  (∀ (b : Byte) (s : State), ∃ c : U32, exec (.u32FromByte b) s = .next (s.respond (.ok (.word c))) ∧
    c.toNat = b.toNat ∧ c.extractLsb' 8 24 = 0#24) ∧
  (∀ b : Byte, encode (.u32FromByte b) = [0x36, b])

/-- R118: `U32.EQ a, b`, opcode 0x37 in format WW, compares all 32 bits and changes nothing else. -/
def Obligations.U32EqComparesThePatterns : Prop :=
  (∀ (a b : U32) (s : State), exec (.u32Eq a b) s = .next (s.respond (.ok (.byte (if a = b then 1 else 0))))) ∧
  (∀ a b : U32, encode (.u32Eq a b) = 0x37#8 :: (le32Enc a ++ le32Enc b))

/-- `U32.CMP a, b` orders the patterns as unsigned numbers and changes nothing else (40_primitive_io.md section 2; the
order is the spec's own choice, 92_eei_decisions.md D18). -/
def Obligations.U32CmpOrdersAsUnsigned : Prop :=
  ∀ (a b : U32) (s : State),
    exec (.u32Cmp a b) s = .next (s.respond (.ok (.byte
      (if a.toNat < b.toNat then 0xFF else if a.toNat = b.toNat then 0x00 else 0x01))))

/-- `U32.HASH c` answers the pattern and changes nothing else (40_primitive_io.md section 2; the function is the spec's
own choice, 92_eei_decisions.md D19). -/
def Obligations.U32HashIsTheRawPattern : Prop :=
  ∀ (c : U32) (s : State), exec (.u32Hash c) s = .next (s.respond (.ok (.word c)))

/-- The laws of the primitive functions, L-a to L-e (40_primitive_io.md section 3). -/
def Obligations.PrimitiveFunctionLaws : Prop :=
  (∀ v : U32, le32Dec (le32Enc v) = v) ∧ (∀ b : Bytes, b.length = 4 → le32Enc (le32Dec b) = b) ∧
  (∀ v : U64, le64Dec (le64Enc v) = v) ∧ (∀ b : Bytes, b.length = 8 → le64Enc (le64Dec b) = b) ∧
  (∀ v : U64, v.toNat ≤ 2 ^ 32 - 1 → (u32FromU64 v).map u32ToU64 = some v) ∧
  (∀ c : U32, u32FromU64 (u32ToU64 c) = some c) ∧
  (∀ b : Byte, (u32ToU64 (u32FromByte b)).toNat = b.toNat) ∧
  (∀ c : U32, (u32ToU64 c).toNat < 2 ^ 32)

/-- `SHA256 m` answers the 32 bytes of the digest, or `ConfigurationError(0)`, not latched, when the digest engine is
absent; nothing else changes (41_sha256_digest.md R130 and R139). The digest has the known values of R138: of the empty
message, of `"abc"`, and of the message of 56 bytes, which takes two blocks. For a message of 2^61 bytes or more the answer
is the model's free value (log 12). -/
def Obligations.Sha256CommandAnswers : Prop :=
  (∀ (m : Bytes) (s : State), s.params.sha256Available = true → m.length < 2 ^ 61 →
    exec (.sha256 m) s = .next (s.respond (.ok (.bytes (sha256InRange m)))) ∧ (sha256InRange m).length = 32) ∧
  (∀ (m : Bytes) (s : State), s.params.sha256Available = true →
    ∃ d : Bytes, d.length = 32 ∧ exec (.sha256 m) s = .next (s.respond (.ok (.bytes d)))) ∧
  (∀ (m : Bytes) (s : State), s.params.sha256Available = false →
    exec (.sha256 m) s = .next (s.respond (.error ⟨.configurationError, 0⟩))) ∧
  sha256InRange [] =
    [0xe3, 0xb0, 0xc4, 0x42, 0x98, 0xfc, 0x1c, 0x14, 0x9a, 0xfb, 0xf4, 0xc8, 0x99, 0x6f, 0xb9, 0x24] ++
    [0x27, 0xae, 0x41, 0xe4, 0x64, 0x9b, 0x93, 0x4c, 0xa4, 0x95, 0x99, 0x1b, 0x78, 0x52, 0xb8, 0x55] ∧
  sha256InRange [0x61, 0x62, 0x63] =
    [0xba, 0x78, 0x16, 0xbf, 0x8f, 0x01, 0xcf, 0xea, 0x41, 0x41, 0x40, 0xde, 0x5d, 0xae, 0x22, 0x23] ++
    [0xb0, 0x03, 0x61, 0xa3, 0x96, 0x17, 0x7a, 0x9c, 0xb4, 0x10, 0xff, 0x61, 0xf2, 0x00, 0x15, 0xad] ∧
  sha256InRange
      ([0x61, 0x62, 0x63, 0x64, 0x62, 0x63, 0x64, 0x65, 0x63, 0x64, 0x65, 0x66, 0x64, 0x65] ++
        [0x66, 0x67, 0x65, 0x66, 0x67, 0x68, 0x66, 0x67, 0x68, 0x69, 0x67, 0x68, 0x69, 0x6a] ++
        [0x68, 0x69, 0x6a, 0x6b, 0x69, 0x6a, 0x6b, 0x6c, 0x6a, 0x6b, 0x6c, 0x6d, 0x6b, 0x6c] ++
        [0x6d, 0x6e, 0x6c, 0x6d, 0x6e, 0x6f, 0x6d, 0x6e, 0x6f, 0x70, 0x6e, 0x6f, 0x70, 0x71]) =
    [0x24, 0x8d, 0x6a, 0x61, 0xd2, 0x06, 0x38, 0xb8, 0xe5, 0xc0, 0x26, 0x93, 0x0c, 0x3e, 0x60, 0x39] ++
    [0xa3, 0x3c, 0xe4, 0x59, 0x64, 0xff, 0x21, 0x67, 0xf6, 0xec, 0xed, 0xd4, 0x19, 0xdb, 0x06, 0xc1]

/-- R131: the padded message is the message, one byte 0x80, the least number `k` of zero bytes, `(55 - L) mod 64`, and the
eight-byte big-endian bit length; a whole number of 64-byte blocks, one up to 55 bytes, two from 56 to 119. -/
def Obligations.Sha256PaddingIsMinimal : Prop :=
  ∀ m : Bytes, m.length < 2 ^ 61 → ∃ (k : Nat) (be : Bytes),
    sha256Pad m = m ++ [0x80#8] ++ List.replicate k 0x00#8 ++ be ∧
    (m.length + 1 + k + 8) % 64 = 0 ∧ (∀ j, (m.length + 1 + j + 8) % 64 = 0 → k ≤ j) ∧
    (k : Int) = (55 - (m.length : Int)) % 64 ∧
    be.length = 8 ∧ leDec be.reverse = 8 * m.length ∧
    (sha256Pad m).length % 64 = 0 ∧
    (m.length ≤ 55 → (sha256Pad m).length = 64) ∧
    (56 ≤ m.length → m.length ≤ 119 → (sha256Pad m).length = 128)

/-! ### The encoder -/

/-- `ENC.INIT cfg` constructs the encoder in every mode, makes no sink call, and answers `OK`, or `ConfigurationError(0)`
latched when the digest engine is absent (42_block_encoder.md section 2). That `ENC.BUF` is left as it is is the model's
reading (log 8). -/
def Obligations.EncInitConstructs : Prop :=
  ∀ (cfg : U32) (s : State), s.enc.waiting = false →
    exec (.encInit cfg) s = .next
      { s with
        enc :=
          { blockSize := if 0 < cfg.toInt then cfg.toNat else s.params.defaultBlockSize
            buf := s.enc.buf
            fill := 0
            nextIndex := 0
            closed := false
            err := if s.params.sha256Available then none else some ⟨.configurationError, 0⟩
            waiting := false }
        responses := s.responses ++
          [if s.params.sha256Available then .ok .empty else .error ⟨.configurationError, 0⟩] }

/-- R214: while a unit holds a latched error, every command of it but its `INIT` is answered with that error; it reads no
other register, writes none and calls neither sink nor source. -/
def Obligations.FailedUnitsReRaise : Prop :=
  (∀ (s : State) (e : Err) (i : Instr), s.enc.waiting = false → s.enc.err = some e → commandUnit i = some .enc →
    (∀ cfg, i ≠ .encInit cfg) → exec i s = .next (s.respond (.error e))) ∧
  (∀ (s : State) (e : Err) (i : Instr), s.dec.waiting = false → s.dec.err = some e → commandUnit i = some .dec →
    i ≠ .decInit → WellFormed i = true → exec i s = .next (s.respond (.error e)))

/-- A closed encoder answers every command but `ENC.INIT` with `IOFailure(5)`, unlatched, and calls the sink not at all
(42_block_encoder.md section 1; the spec's own choice, 92_eei_decisions.md D11). -/
def Obligations.ClosedEncoderAnswersIOFailure : Prop :=
  ∀ (s : State) (i : Instr), s.enc.waiting = false → s.enc.err = none → s.enc.closed = true →
    commandUnit i = some .enc → (∀ cfg, i ≠ .encInit cfg) → exec i s = .next (s.respond (.error ⟨.ioFailure, 5⟩))

/-- `ENC.FLUSH`, opcode 0x12 in format N, is admitted as every command of the encoder, forwards to the sink's flush without
emitting a block, and changes no register but `ENC.ERR` when that fails (42_block_encoder.md section 2). That the failure,
`IOFailure(2)`, is latched, and what a closed encoder answers, `IOFailure(5)`, are the spec's own choices
(92_eei_decisions.md D12 and D11). -/
def Obligations.EncFlushForwardsToTheSink : Prop :=
  (∀ s : State, s.enc.Ready → s.sink.answer = .ok →
    exec .encFlush s = .next
      { s with
        sink := { s.sink with
          flushes := s.sink.flushes + 1, answers := s.sink.answers.tail, calls := s.sink.calls + 1 }
        responses := s.responses ++ [.ok .empty] }) ∧
  (∀ s : State, s.enc.Ready → s.sink.answer = .fail → ∃ k : Sink,
    exec .encFlush s = .next
      { s with
        enc := { s.enc with err := some ⟨.ioFailure, 2⟩ }
        sink := k
        responses := s.responses ++ [.error ⟨.ioFailure, 2⟩] } ∧
    k.data = s.sink.data ∧ k.isOpen = s.sink.isOpen ∧ k.answers = s.sink.answers.tail) ∧
  (∀ (s : State) (e : Err), s.enc.waiting = false → s.enc.err = some e →
    exec .encFlush s = .next (s.respond (.error e))) ∧
  (∀ s : State, s.enc.waiting = false → s.enc.err = none → s.enc.closed = true →
    exec .encFlush s = .next (s.respond (.error ⟨.ioFailure, 5⟩))) ∧
  encode .encFlush = [0x12#8]

/-- `ENC.WRITE` of fewer bytes than the buffer has room for only fills the buffer and makes no sink call; with no byte it
changes no register (42_block_encoder.md section 2). Every offset outside the bytes stored reads as before. -/
def Obligations.EncWriteShortFillsTheBuffer : Prop :=
  ∀ (data : Bytes) (s : State), s.enc.Ready → s.enc.fill + data.length < s.enc.blockSize →
    ∃ m : Memory,
      exec (.encWrite data) s = .next
        { s with
          enc := { s.enc with buf := m, fill := s.enc.fill + data.length }
          responses := s.responses ++ [.ok .empty] } ∧
      (∀ i (h : i < data.length), readByte Config.unwrittenEncBuf m (s.enc.fill + i) = data[i]) ∧
      (∀ a, ¬ (s.enc.fill ≤ a ∧ a < s.enc.fill + data.length) →
        readByte Config.unwrittenEncBuf m a = readByte Config.unwrittenEncBuf s.enc.buf a) ∧
      (data = [] → m = s.enc.buf)

/-- `ENC.WRITE` with a sink that answers `ok` and enough indices left emits every full block of the buffered bytes followed
by `data`, in order and with consecutive indices, and keeps the rest in the buffer (42_block_encoder.md section 2). Every
offset that none of the bytes is copied to reads as before. -/
def Obligations.EncWriteEmitsEveryFullBlock : Prop :=
  ∀ (data : Bytes) (s : State), s.enc.Ready → s.enc.fill < s.enc.blockSize → s.sink.Reliable →
    s.enc.nextIndex + (s.enc.fill + data.length) / s.enc.blockSize ≤ 2 ^ 32 →
    ∃ m : Memory,
      exec (.encWrite data) s = .next
        { s with
          enc := { s.enc with
            buf := m
            fill := (s.enc.fill + data.length) % s.enc.blockSize
            nextIndex := s.enc.nextIndex + (s.enc.fill + data.length) / s.enc.blockSize }
          sink := s.sink.after (4 * ((s.enc.fill + data.length) / s.enc.blockSize))
            (dataFrames s.enc.nextIndex (fullBlocks s.enc.blockSize (pendingBytes s.enc ++ data)))
          responses := s.responses ++ [.ok .empty] } ∧
      memRead Config.unwrittenEncBuf m 0 ((s.enc.fill + data.length) % s.enc.blockSize) =
        restBlock s.enc.blockSize (pendingBytes s.enc ++ data) ∧
      (∀ a, (∀ j, s.enc.fill ≤ j → j < s.enc.fill + data.length → j % s.enc.blockSize ≠ a) →
        readByte Config.unwrittenEncBuf m a = readByte Config.unwrittenEncBuf s.enc.buf a)

/-- What an `ENC.WRITE` that raises leaves: the frames before the failing one are on the sink, of the failing one some
first part; its index is not counted, the full buffer is kept, the error is latched and answered
(42_block_encoder.md sections 1 and 3). The index exhausted is `RangeError(0)` before any write of that frame
(92_eei_decisions.md D10). -/
def Obligations.EncWriteFailureStopsInsideOneFrame : Prop :=
  ∀ (data : Bytes) (s t : State) (e : Err), s.enc.Ready → s.enc.fill < s.enc.blockSize → s.enc.nextIndex ≤ 2 ^ 32 →
    exec (.encWrite data) s = .next t → t.enc.err = some e →
    ∃ (j : Nat) (q : Bytes),
      j < (s.enc.fill + data.length) / s.enc.blockSize ∧
      t.enc.nextIndex = s.enc.nextIndex + j ∧ t.enc.fill = s.enc.blockSize ∧ t.enc.closed = false ∧
      t.enc.blockSize = s.enc.blockSize ∧
      t.sink.data = s.sink.data ++
        dataFrames s.enc.nextIndex ((fullBlocks s.enc.blockSize (pendingBytes s.enc ++ data)).take j) ++ q ∧
      t.sink.isOpen = s.sink.isOpen ∧ t.sink.flushes = s.sink.flushes ∧
      ((e = ⟨.ioFailure, 1⟩ ∧ t.enc.nextIndex < 2 ^ 32 ∧
          q <+: dataFrame (s.enc.nextIndex + j)
            ((fullBlocks s.enc.blockSize (pendingBytes s.enc ++ data)).getD j [])) ∨
        (e = ⟨.rangeError, 0⟩ ∧ t.enc.nextIndex = 2 ^ 32 ∧ q = [])) ∧
      t.responses = s.responses ++ [.error e]

/-- Writing two byte sequences in two commands leaves the encoder and the sink as writing them in one does, whatever the
sink answers, if the first command succeeds (42_block_encoder.md section 3, which speaks of a sink that never fails). That
the sinks agree after a write that did not answer `ok` too is the model's choice: it draws the part of the sequence the sink
keeps by the number of the call (log 4). -/
def Obligations.SplitWritesAgreeWithOneWrite : Prop :=
  ∀ (d d' : Bytes) (s a : State), s.enc.Ready → s.enc.fill < s.enc.blockSize →
    exec (.encWrite d) s = .next a → a.enc.err = none → a.enc.waiting = false →
    ∃ b t, exec (.encWrite d') a = .next b ∧ exec (.encWrite (d ++ d')) s = .next t ∧
      t.enc = b.enc ∧ t.sink = b.sink

/-- `ENC.CLOSE` with a sink that answers `ok` and enough indices left emits the buffered bytes as a last data block when
there are any, then one terminal block, flushes and closes the sink, sets the flag and answers `OK`
(42_block_encoder.md section 2). -/
def Obligations.EncCloseEndsTheStream : Prop :=
  ∀ s : State, s.enc.Ready → s.sink.Reliable →
    s.enc.nextIndex + (if s.enc.fill = 0 then 0 else 1) < 2 ^ 32 →
    exec .encClose s = .next
      { s with
        enc := { s.enc with
          fill := 0
          nextIndex := s.enc.nextIndex + (if s.enc.fill = 0 then 0 else 1) + 1
          closed := true }
        sink := { (s.sink.after ((if s.enc.fill = 0 then 0 else 4) + 5)
            (dataFrames s.enc.nextIndex (if s.enc.fill = 0 then [] else [pendingBytes s.enc]) ++
              terminalFrame (s.enc.nextIndex + if s.enc.fill = 0 then 0 else 1))) with
          isOpen := false
          flushes := s.sink.flushes + 1 }
        responses := s.responses ++ [.ok .empty] }

/-- `ENC.CLOSE` stops at its first failure: a failed flush leaves the sink unclosed and is `IOFailure(2)`, a failed close
is `IOFailure(3)`; a failed write, of the last data block or of the terminal block, is `IOFailure(1)`, the sink having got
the sequences before it and a first part of its own; an index used up by the last data block is `RangeError(0)` before the
terminal block's first write. Each is latched, the other registers keep the values they had there, and `ENC.CLOSED` stays 0
(42_block_encoder.md sections 1 to 3; the order and the `RangeError` are the spec's own choices, 92_eei_decisions.md D13,
D10). The part of the sequence is the model's free value (log 4). That a failed flush is counted is the model's choice (log 7), whether the sink is open
after a failed close its free value (log 5). -/
def Obligations.EncCloseStopsAtItsFirstFailure : Prop :=
  (∀ (s : State) (l : List SinkAnswer), s.enc.Ready →
    s.enc.nextIndex + (if s.enc.fill = 0 then 0 else 1) < 2 ^ 32 →
    s.sink.answers = List.replicate ((if s.enc.fill = 0 then 0 else 4) + 3) .ok ++ .fail :: l →
    exec .encClose s = .next
      { s with
        enc := { s.enc with
          fill := 0
          nextIndex := s.enc.nextIndex + (if s.enc.fill = 0 then 0 else 1) + 1
          err := some ⟨.ioFailure, 2⟩ }
        sink := { (s.sink.after ((if s.enc.fill = 0 then 0 else 4) + 4)
            (dataFrames s.enc.nextIndex (if s.enc.fill = 0 then [] else [pendingBytes s.enc]) ++
              terminalFrame (s.enc.nextIndex + if s.enc.fill = 0 then 0 else 1))) with
          flushes := s.sink.flushes + 1 }
        responses := s.responses ++ [.error ⟨.ioFailure, 2⟩] }) ∧
  (∀ (s : State) (l : List SinkAnswer), s.enc.Ready →
    s.enc.nextIndex + (if s.enc.fill = 0 then 0 else 1) < 2 ^ 32 →
    s.sink.answers = List.replicate ((if s.enc.fill = 0 then 0 else 4) + 4) .ok ++ .fail :: l →
    ∃ o : Bool, exec .encClose s = .next
      { s with
        enc := { s.enc with
          fill := 0
          nextIndex := s.enc.nextIndex + (if s.enc.fill = 0 then 0 else 1) + 1
          err := some ⟨.ioFailure, 3⟩ }
        sink := { (s.sink.after ((if s.enc.fill = 0 then 0 else 4) + 5)
            (dataFrames s.enc.nextIndex (if s.enc.fill = 0 then [] else [pendingBytes s.enc]) ++
              terminalFrame (s.enc.nextIndex + if s.enc.fill = 0 then 0 else 1))) with
          isOpen := o
          flushes := s.sink.flushes + 1 }
        responses := s.responses ++ [.error ⟨.ioFailure, 3⟩] }) ∧
  (∀ (s : State) (j : Nat) (l : List SinkAnswer), s.enc.Ready → j < (closeWrites s.enc).length →
    (closeRegisters s.enc j).nextIndex < 2 ^ 32 → s.sink.AnswersAfter j .fail l →
    ∃ q : Bytes, q <+: (closeWrites s.enc).getD j [] ∧
      exec .encClose s = .next
        { s with
          enc := { closeRegisters s.enc j with err := some ⟨.ioFailure, 1⟩ }
          sink := s.sink.got (j + 1) (((closeWrites s.enc).take j).flatten ++ q) l
          responses := s.responses ++ [.error ⟨.ioFailure, 1⟩] }) ∧
  (∀ s : State, s.enc.Ready → s.enc.fill ≠ 0 → s.enc.nextIndex = 2 ^ 32 - 1 → (∀ a ∈ s.sink.answers.take 4, a = .ok) →
    exec .encClose s = .next
      { s with
        enc := { s.enc with fill := 0, nextIndex := 2 ^ 32, err := some ⟨.rangeError, 0⟩ }
        sink := s.sink.after 4 (dataFrame (2 ^ 32 - 1) (pendingBytes s.enc))
        responses := s.responses ++ [.error ⟨.rangeError, 0⟩] })

/-- An encoder whose index has run out raises `RangeError(0)`, latched, before any sink write: on `ENC.CLOSE`, and on an
`ENC.WRITE` that fills the buffer (42_block_encoder.md section 1; the spec's own choice, 92_eei_decisions.md D10). -/
def Obligations.ExhaustedIndexRaisesRangeError : Prop :=
  (∀ s : State, s.enc.Ready → s.enc.nextIndex = 2 ^ 32 →
    exec .encClose s = .next
      { s with
        enc := { s.enc with err := some ⟨.rangeError, 0⟩ }
        responses := s.responses ++ [.error ⟨.rangeError, 0⟩] }) ∧
  (∀ (data : Bytes) (s : State), s.enc.Ready → s.enc.nextIndex = 2 ^ 32 → s.enc.fill < s.enc.blockSize →
    s.enc.blockSize ≤ s.enc.fill + data.length →
    exec (.encWrite data) s = .next
      { s with
        enc := { s.enc with
          buf := memWrite s.enc.buf s.enc.fill (data.take (s.enc.blockSize - s.enc.fill))
          fill := s.enc.blockSize
          err := some ⟨.rangeError, 0⟩ }
        responses := s.responses ++ [.error ⟨.rangeError, 0⟩] })

/-- What a run of the encoder writes, however its data is split over writes and wherever flushes stand between them: from
`ENC.INIT`, through writes (`some d`) and flushes (`none`), to `ENC.CLOSE`, over a sink that never fails, the sink gets
exactly the stream of the concatenated data in blocks of the configured size (42_block_encoder.md section 3). -/
def Obligations.EncoderRunWritesTheStream : Prop :=
  ∀ (s : State) (cfg : U32) (ops : List (Option Bytes)),
    s.enc.waiting = false → s.params.Legal → s.params.sha256Available = true → s.sink.Reliable →
    (∀ d, some d ∈ ops → d.length < 2 ^ 64) →
    (blocksOf (effectiveBlockSize s.params cfg) (ops.reduceOption.flatten)).length + 1 ≤ 2 ^ 32 →
    ∃ t, runEvents
        (issue (.encInit cfg) :: (ops.map fun o => issue (o.elim .encFlush .encWrite)) ++ [issue .encClose]) s = .next t ∧
      t.sink.data = s.sink.data ++ encodedStream (effectiveBlockSize s.params cfg) ops.reduceOption.flatten ∧
      (encodedStream (effectiveBlockSize s.params cfg) ops.reduceOption.flatten).length =
        ops.reduceOption.flatten.length +
          40 * ((blocksOf (effectiveBlockSize s.params cfg) ops.reduceOption.flatten).length + 1) ∧
      t.sink.isOpen = false ∧ t.sink.flushes = s.sink.flushes + ops.count none + 1 ∧
      t.enc.mode = .closed ∧
      t.enc.nextIndex = (blocksOf (effectiveBlockSize s.params cfg) ops.reduceOption.flatten).length + 1 ∧
      t.responses = s.responses ++ List.replicate (ops.length + 2) (.ok .empty) ∧
      t.dec = s.dec ∧ t.source = s.source

/-- The two properties of the source, of runs of the encoder over a sink that never fails: closing at once after
construction writes one terminal block, 40 zero bytes; writing exactly one block and closing writes that block with index 0
and the terminal block with index 1. The streams of the wire format for no data and for one block are these
(42_block_encoder.md section 3). -/
def Obligations.SingleTerminatorAndBoundaryBlock : Prop :=
  (∀ (s : State) (cfg : U32), s.enc.waiting = false → s.params.sha256Available = true → s.sink.Reliable →
    ∃ t, runEvents [issue (.encInit cfg), issue .encClose] s = .next t ∧
      t.sink.data = s.sink.data ++ List.replicate 40 0x00#8 ∧ t.enc.mode = .closed ∧ t.enc.nextIndex = 1 ∧
      t.responses = s.responses ++ [.ok .empty, .ok .empty]) ∧
  (∀ (s : State) (B : U32) (data : Bytes), s.enc.waiting = false → s.params.sha256Available = true → s.sink.Reliable →
    0 < B.toInt → data.length = B.toNat →
    ∃ t, runEvents [issue (.encInit B), issue (.encWrite data), issue .encClose] s = .next t ∧
      t.sink.data = s.sink.data ++
        (le32Enc 0 ++ sha256 data ++ le32Enc B ++ data) ++ (le32Enc 1 ++ List.replicate 32 0x00#8 ++ le32Enc 0) ∧
      t.enc.mode = .closed ∧ t.enc.nextIndex = 2 ∧
      t.responses = s.responses ++ [.ok .empty, .ok .empty, .ok .empty]) ∧
  (∀ B : Nat, 1 ≤ B → encodedStream B [] = List.replicate 40 0x00#8) ∧
  (∀ data : Bytes, 1 ≤ data.length → encodedStream data.length data = dataFrame 0 data ++ terminalFrame 1)

/-! ### The decoder -/

/-- `DEC.INIT` constructs the decoder in every mode, makes no source call, and answers `OK`, or `ConfigurationError(0)`
latched when the digest engine is absent (43_block_decoder.md section 1). That `DEC.RES` is left as it is is the model's
reading (log 8). -/
def Obligations.DecInitConstructs : Prop :=
  ∀ s : State, s.dec.waiting = false →
    exec .decInit s = .next
      { s with
        dec :=
          { expectedIndex := 0
            term := false
            res := s.dec.res
            resLen := 0
            resPos := 0
            err := if s.params.sha256Available then none else some ⟨.configurationError, 0⟩
            waiting := false }
        responses := s.responses ++
          [if s.params.sha256Available then .ok .empty else .error ⟨.configurationError, 0⟩] }

/-- `DEC.READ n` with bytes left of the last block returns at most `n` of them, from that block only, makes no source call
and changes nothing but the position (43_block_decoder.md sections 1 and 2; the count is the spec's own choice,
92_eei_decisions.md D8). -/
def Obligations.DecReadDeliversTheResidualFirst : Prop :=
  ∀ (n : U32) (s : State), n ≠ 0 → s.dec.waiting = false → s.dec.err = none → s.dec.resPos < s.dec.resLen →
    exec (.decRead n) s = .next
      { s with
        dec := { s.dec with resPos := s.dec.resPos + min n.toNat (s.dec.resLen - s.dec.resPos) }
        responses := s.responses ++ [.ok (.chunk
          (BitVec.ofNat 32 (min n.toNat (s.dec.resLen - s.dec.resPos)))
          (memRead Config.unwrittenDecRes s.dec.res s.dec.resPos (min n.toNat (s.dec.resLen - s.dec.resPos))))] }

/-- Once the terminal frame has been accepted, every `DEC.READ` answers `EOS` and makes no source call, whatever follows in
the source (43_block_decoder.md sections 1 and 3). -/
def Obligations.TerminatedDecoderAnswersEos : Prop :=
  ∀ (n : U32) (s : State), n ≠ 0 → s.dec.waiting = false → s.dec.err = none → s.dec.term = true →
    s.dec.ResidualEmpty → exec (.decRead n) s = .next { s with responses := s.responses ++ [.eos] }

/-- A data frame under the expected index, within the maximum and with the digest of its payload, is accepted: the index
advances by one, the payload is buffered (R178), its first bytes are returned, at most as many as asked for (R179; the count
is the spec's own choice, 92_eei_decisions.md D8). With another digest it is `IntegrityViolation(0)`, latched, and nothing of
it is kept or returned (R178). -/
def Obligations.DataFrameIsAcceptedExactlyOnItsDigest : Prop :=
  ∀ (n : U32) (p d : Bytes) (s : State), n ≠ 0 → s.params.Legal → s.dec.AtFrame → s.source.Reliable →
    s.dec.expectedIndex < 2 ^ 32 → 1 ≤ p.length → p.length ≤ s.params.maxBlockLen → d.length = 32 →
    s.source.Holds
      (le32Enc (BitVec.ofNat 32 s.dec.expectedIndex) ++ d ++ le32Enc (BitVec.ofNat 32 p.length) ++ p) →
    (sha256 p = d → ∃ m : Memory,
      exec (.decRead n) s = .next
        { s with
          dec := { s.dec with
            expectedIndex := s.dec.expectedIndex + 1
            res := m
            resLen := p.length
            resPos := min n.toNat p.length }
          source := s.source.after 4 (40 + p.length)
          responses := s.responses ++ [.ok (.chunk (BitVec.ofNat 32 (min n.toNat p.length)) (p.take n.toNat))] } ∧
      memRead Config.unwrittenDecRes m 0 p.length = p ∧
      ∀ a, p.length ≤ a → readByte Config.unwrittenDecRes m a = readByte Config.unwrittenDecRes s.dec.res a) ∧
    (sha256 p ≠ d →
      exec (.decRead n) s = .next
        { s with
          dec := { s.dec with err := some ⟨.integrityViolation, 0⟩ }
          source := s.source.after 4 (40 + p.length)
          responses := s.responses ++ [.error ⟨.integrityViolation, 0⟩] })

/-- R177: a frame with length 0 under the expected index ends the stream exactly when its digest is 32 zero bytes: the
terminal flag is set, the index stays, the answer is `EOS`. With any other digest it is `MalformedFrame(3)`, latched. -/
def Obligations.TerminalFrameIsAcceptedExactlyOnZeroDigest : Prop :=
  ∀ (n : U32) (d : Bytes) (s : State), n ≠ 0 → s.dec.AtFrame → s.source.Reliable → s.dec.expectedIndex < 2 ^ 32 →
    d.length = 32 → s.source.Holds (le32Enc (BitVec.ofNat 32 s.dec.expectedIndex) ++ d ++ le32Enc 0) →
    (d = List.replicate 32 0x00 →
      exec (.decRead n) s = .next
        { s with
          dec := { s.dec with term := true }
          source := s.source.after 3 40
          responses := s.responses ++ [.eos] }) ∧
    (d ≠ List.replicate 32 0x00 →
      exec (.decRead n) s = .next
        { s with
          dec := { s.dec with err := some ⟨.malformedFrame, 3⟩ }
          source := s.source.after 3 40
          responses := s.responses ++ [.error ⟨.malformedFrame, 3⟩] })

/-- R175: an index field that differs from the expected index, on a data frame as on a terminal frame, a repetition, a gap
or the exhausted counter, is `MalformedFrame(1)`, latched, before any further field is read. -/
def Obligations.WrongIndexIsMalformed : Prop :=
  ∀ (n idx : U32) (s : State), n ≠ 0 → s.dec.AtFrame → s.source.Reliable → s.source.Holds (le32Enc idx) →
    idx.toNat ≠ s.dec.expectedIndex →
    exec (.decRead n) s = .next
      { s with
        dec := { s.dec with err := some ⟨.malformedFrame, 1⟩ }
        source := s.source.after 1 4
        responses := s.responses ++ [.error ⟨.malformedFrame, 1⟩] }

/-- R176: a length field above `MAX_BLOCK_LEN`, which takes in every length whose signed reading is negative, is
`MalformedFrame(2)`, latched, before any payload byte is read. -/
def Obligations.LengthAboveMaximumIsMalformed : Prop :=
  (∀ (n len : U32) (d : Bytes) (s : State), n ≠ 0 → s.dec.AtFrame → s.source.Reliable →
    s.dec.expectedIndex < 2 ^ 32 → d.length = 32 →
    s.source.Holds (le32Enc (BitVec.ofNat 32 s.dec.expectedIndex) ++ d ++ le32Enc len) →
    s.params.maxBlockLen < len.toNat →
    exec (.decRead n) s = .next
      { s with
        dec := { s.dec with err := some ⟨.malformedFrame, 2⟩ }
        source := s.source.after 3 40
        responses := s.responses ++ [.error ⟨.malformedFrame, 2⟩] }) ∧
  (∀ (p : Params) (len : U32), p.Legal → len.toInt < 0 → p.maxBlockLen < len.toNat)

/-- R174: in each field of a data frame and of a terminal frame, a short read is `MalformedFrame(4)` and a failed source is
`IOFailure(4)`, latched, the registers otherwise as they were; a source that only ends too soon, even at a frame boundary,
is a short read. The source afterwards is left open (log 6). -/
def Obligations.FieldFailuresAreReported : Prop :=
  (∀ (n : U32) (f : Bytes) (j : Nat) (a : SourceAnswer) (e : Err) (l : List SourceAnswer) (s : State), n ≠ 0 →
    s.params.Legal → s.dec.AtFrame → s.dec.expectedIndex < 2 ^ 32 →
    ((∃ p : Bytes, f = dataFrame s.dec.expectedIndex p ∧ 1 ≤ p.length ∧ p.length ≤ s.params.maxBlockLen ∧ j < 4) ∨
      (f = terminalFrame s.dec.expectedIndex ∧ j < 3)) →
    s.source.Holds f → s.source.answers = List.replicate j .serve ++ a :: l →
    ((a = .short ∧ e = ⟨.malformedFrame, 4⟩) ∨ (a = .fail ∧ e = ⟨.ioFailure, 4⟩)) →
    ∃ pos : Nat, exec (.decRead n) s = .next
      { s with
        dec := { s.dec with err := some e }
        source := { s.source with answers := l, calls := s.source.calls + j + 1, pos := pos }
        responses := s.responses ++ [.error e] }) ∧
  (∀ (n : U32) (p q : Bytes) (s : State), n ≠ 0 → s.params.Legal → s.dec.AtFrame → s.source.Reliable →
    s.dec.expectedIndex < 2 ^ 32 → 1 ≤ p.length → p.length ≤ s.params.maxBlockLen →
    (q <+: dataFrame s.dec.expectedIndex p ∧ q.length < 40 + p.length ∨
      q <+: terminalFrame s.dec.expectedIndex ∧ q.length < 40) →
    s.source.data.drop s.source.pos = q →
    ∃ r : Source, exec (.decRead n) s = .next
      { s with
        dec := { s.dec with err := some ⟨.malformedFrame, 4⟩ }
        source := r
        responses := s.responses ++ [.error ⟨.malformedFrame, 4⟩] } ∧ r.data = s.source.data)

/-- What any `DEC.READ` that raises leaves: the error latched and answered, and every other register as it was
(43_block_decoder.md section 3). -/
def Obligations.DecoderFailureKeepsItsRegisters : Prop :=
  ∀ (n : U32) (s t : State) (e : Err), exec (.decRead n) s = .next t → s.dec.err = none → t.dec.err = some e →
    t.dec = { s.dec with err := some e } ∧ s.dec.term = false ∧ s.dec.ResidualEmpty ∧
    t.source.data = s.source.data ∧ t.responses = s.responses ++ [.error e]

/-- One byte of a data frame changed is met at that frame: in the index always `MalformedFrame(1)`, in the digest always
`IntegrityViolation(0)`, in the payload `IntegrityViolation(0)` unless the digests collide, in the length, now `L`,
`MalformedFrame(2)` above the maximum, `MalformedFrame(3)` at 0 (unless the digest in the frame is 32 zero bytes),
`MalformedFrame(4)` when the source ends first, else `IntegrityViolation(0)` unless the `L` bytes read collide
(43_block_decoder.md section 3, 90_conflicts.md C1). -/
def Obligations.ChangedByteOfADataFrameIsDetected : Prop :=
  ∀ (n : U32) (p f rest : Bytes) (j L : Nat) (x : Byte) (s : State), n ≠ 0 → s.params.Legal → s.dec.AtFrame →
    s.source.Reliable → s.dec.expectedIndex < 2 ^ 32 → 1 ≤ p.length → p.length ≤ s.params.maxBlockLen →
    f = dataFrame s.dec.expectedIndex p → (∃ h : j < f.length, f[j] ≠ x) →
    L = leDec (((f.set j x).drop 36).take 4) →
    s.source.data.drop s.source.pos = f.set j x ++ rest →
    (40 ≤ j → sha256 (p.set (j - 40) x) ≠ sha256 p) →
    (36 ≤ j → j < 40 → L = 0 → sha256 p ≠ List.replicate 32 0x00) →
    (36 ≤ j → j < 40 → 1 ≤ L → L ≤ (p ++ rest).length → sha256 ((p ++ rest).take L) ≠ sha256 p) →
    ∃ t e, exec (.decRead n) s = .next t ∧ t.dec = { s.dec with err := some e } ∧
      t.responses = s.responses ++ [.error e] ∧
      e = if j < 4 then ⟨.malformedFrame, 1⟩
        else if j < 36 ∨ 40 ≤ j then ⟨.integrityViolation, 0⟩
        else if s.params.maxBlockLen < L then ⟨.malformedFrame, 2⟩
        else if L = 0 then ⟨.malformedFrame, 3⟩
        else if (p ++ rest).length < L then ⟨.malformedFrame, 4⟩
        else ⟨.integrityViolation, 0⟩

/-- What a run of the decoder returns: over a source that begins with a stream of blocks within the maximum, `DEC.INIT`
and enough `DEC.READ`s with any counts return exactly the blocks' bytes in order and end in `EOS`, whatever follows the
terminal frame (43_block_decoder.md section 3); so `DECODE`, which stops at its first response other than `OK`, has those
bytes and `EOS` as its value, whatever the counts. Over any byte sequence at all `DECODE` comes to such a response
(30_encoding.md section 3; log 22). -/
def Obligations.DecoderRunReturnsTheStream : Prop :=
  (∀ (s : State) (ps : List Bytes) (trailing : Bytes) (ns : List U32),
    s.dec.waiting = false → s.params.Legal → s.params.sha256Available = true →
    (∀ p ∈ ps, 1 ≤ p.length ∧ p.length ≤ s.params.maxBlockLen) → ps.length + 1 ≤ 2 ^ 32 →
    (∀ n ∈ ns, n ≠ 0) → ps.flatten.length < ns.length →
    ∃ t rs, runEvents (decodeProgram (streamOf ps ++ trailing) ns) s = .next t ∧
      t.responses = s.responses ++ .ok .empty :: rs ∧ rs.length = ns.length ∧
      delivered rs = ps.flatten ∧ rs.getLast? = some .eos ∧
      t.dec.mode = .terminated ∧ t.dec.expectedIndex = ps.length ∧ t.source.pos = (streamOf ps).length ∧
      t.enc = s.enc ∧ t.sink = s.sink) ∧
  (∀ (s : State) (ps : List Bytes) (trailing : Bytes) (n : Nat → U32),
    s.dec.waiting = false → s.params.Legal → s.params.sha256Available = true →
    (∀ p ∈ ps, 1 ≤ p.length ∧ p.length ≤ s.params.maxBlockLen) → ps.length + 1 ≤ 2 ^ 32 → (∀ i, n i ≠ 0) →
    decodeValue n (streamOf ps ++ trailing) s = some (ps.flatten, .eos)) ∧
  (∀ (s : State) (stream : Bytes) (n : Nat → U32), s.dec.waiting = false → (∀ i, n i ≠ 0) →
    ∃ out r, decodeValue n stream s = some (out, r) ∧ r.isOk = false)

/-- The round trip: for every byte sequence and every configured block size within the decoder's maximum and the limit of
2^32 frames, `DECODE` of the value of `ENCODE` is the bytes and `EOS`, whatever counts the reads ask for, and so do any
reads, enough of them, return (43_block_decoder.md section 3, 30_encoding.md section 3; the premises are
90_conflicts.md C2). -/
def Obligations.EncodeThenDecodeIsTheIdentity : Prop :=
  ∀ (p : Params) (cfg : U32) (data : Bytes) (ns : List U32),
    p.Legal → p.sha256Available = true → effectiveBlockSize p cfg ≤ p.maxBlockLen →
    (blocksOf (effectiveBlockSize p cfg) data).length + 1 ≤ 2 ^ 32 → data.length < 2 ^ 64 →
    (∀ n ∈ ns, n ≠ 0) → data.length < ns.length →
    ∃ t v, runEvents (encodeProgram cfg data) (State.powerOn p) = .next t ∧
      t.responses = [.ok .empty, .ok .empty, .ok .empty] ∧
      runEvents (decodeProgram t.sink.data ns) (State.powerOn p) = .next v ∧
      delivered v.responses = data ∧ v.responses.getLast? = some .eos ∧
      encodeValue cfg data (State.powerOn p) = some t.sink.data ∧
      ∀ n : Nat → U32, (∀ i, n i ≠ 0) →
        (encodeValue cfg data (State.powerOn p)).bind (fun stream => decodeValue n stream (State.powerOn p)) =
          some (data, .eos)

/-! ### The whole machine -/

/-- The units share nothing: an encoder command leaves the decoder and the source as they were, a decoder command the
encoder and the sink, a primitive command everything but the responses (10_state.md sections 4 and 6). -/
def Obligations.CommandsTouchOnlyTheirUnit : Prop :=
  ∀ (i : Instr) (s t : State), exec i s = .next t →
    t.params = s.params ∧ t.events = s.events ∧
    (commandUnit i ≠ some .enc → t.enc = s.enc ∧ t.sink = s.sink) ∧
    (commandUnit i ≠ some .dec → t.dec = s.dec ∧ t.source = s.source)

/-- An encoder command and a decoder command commute, but for the order of their responses (20_memory.md section 4). -/
def Obligations.UnitsCommute : Prop :=
  ∀ (i j : Instr) (s a c : State), commandUnit i = some .enc → commandUnit j = some .dec →
    exec i s = .next a → exec j s = .next c →
    ∃ b d, exec j a = .next b ∧ exec i c = .next d ∧ { b with responses := [] } = { d with responses := [] } ∧
      ∃ ri rj : List Response, a.responses = s.responses ++ ri ∧ c.responses = s.responses ++ rj ∧
        b.responses = s.responses ++ ri ++ rj ∧ d.responses = s.responses ++ rj ++ ri

/-- A latched error stays until the unit is constructed anew (10_state.md sections 2 and 3; 60_exceptions.md section 2). -/
def Obligations.LatchedErrorsLastUntilConstruction : Prop :=
  ∀ (s t : State) (ev : HostEvent) (rest : List HostEvent) (e : Err), s.events = ev :: rest → step s = .next t →
    (s.enc.err = some e → ¬ ConstructsEnc ev → t.enc = s.enc) ∧
    (s.dec.err = some e → ¬ ConstructsDec ev → t.dec = s.dec)

/-- The modes change only as the spec says: CLOSED, FAILED and TERMINATED are left by construction alone, CLOSED is entered
by an `ENC.CLOSE` that answers `OK`, TERMINATED by a `DEC.READ` that answers `EOS`, FAILED by an error that is answered
(60_exceptions.md section 3). -/
def Obligations.ModesChangeOnlyAsTheSpecSays : Prop :=
  ∀ (s t : State) (ev : HostEvent) (rest : List HostEvent), s.Inv → s.events = ev :: rest → step s = .next t →
    (¬ ConstructsEnc ev →
      (s.enc.mode ≠ .opened → t.enc.mode = s.enc.mode) ∧
      (s.enc.mode = .opened → t.enc.mode = .closed →
        ev = .command (encode .encClose) ∧ t.responses = s.responses ++ [.ok .empty]) ∧
      (s.enc.mode = .opened → t.enc.mode = .failed →
        ∃ e, t.enc.err = some e ∧ t.responses = s.responses ++ [.error e])) ∧
    (¬ ConstructsDec ev →
      (s.dec.mode ≠ .active → t.dec.mode = s.dec.mode) ∧
      (s.dec.mode = .active → t.dec.mode = .terminated →
        (∃ n, ev = .command (encode (.decRead n))) ∧ t.responses = s.responses ++ [.eos]) ∧
      (s.dec.mode = .active → t.dec.mode = .failed →
        ∃ e, t.dec.err = some e ∧ t.responses = s.responses ++ [.error e]))

/-- The index counters never wrap and never go back but by construction; the decoder's advances by at most one a command
(10_state.md sections 2 and 3). -/
def Obligations.IndexCountersOnlyAdvance : Prop :=
  ∀ (i : Instr) (s t : State), exec i s = .next t →
    ((∀ cfg, i ≠ .encInit cfg) → s.enc.nextIndex ≤ t.enc.nextIndex ∧
      (s.enc.nextIndex ≤ 2 ^ 32 → t.enc.nextIndex ≤ 2 ^ 32)) ∧
    (i ≠ .decInit → s.dec.expectedIndex ≤ t.dec.expectedIndex ∧ t.dec.expectedIndex ≤ s.dec.expectedIndex + 1 ∧
      (s.dec.expectedIndex ≤ 2 ^ 32 → t.dec.expectedIndex ≤ 2 ^ 32))

/-- The sink is append-only, and the source's bytes never change: no command takes back a byte
(20_memory.md sections 1 and 2). -/
def Obligations.SinkIsAppendOnly : Prop :=
  ∀ (i : Instr) (s t : State), exec i s = .next t → s.sink.data <+: t.sink.data ∧ t.source.data = s.source.data

/-- No result depends on a stale or unwritten buffer byte: two states that differ in such bytes alone go on alike
(10_state.md sections 2 and 3; 93_implementation_defined.md U6, log 8). -/
def Obligations.StaleBytesNeverShow : Prop :=
  ∀ (i : Instr) (s s' t : State), s.SameButStale s' → exec i s = .next t →
    ∃ t', exec i s' = .next t' ∧ t.SameButStale t'
end

