-- ==== Sys2Proof/Laws/Bytes.lean ====
section
/-! SUPPORT. Lengths, ranges and inverses of the little-endian functions. -/

namespace Sys2Proof.Machine

@[simp] theorem leEnc_length {w : Nat} (n : Nat) (v : BitVec w) : (leEnc n v).length = n := by simp [leEnc]

@[simp] theorem le32Enc_length (v : U32) : (le32Enc v).length = 4 := leEnc_length 4 v

@[simp] theorem le64Enc_length (v : U64) : (le64Enc v).length = 8 := leEnc_length 8 v

theorem leDec_lt (b : Bytes) : leDec b < 2 ^ (8 * b.length) := by
  induction b with
  | nil => simp [leDec]
  | cons x xs ih =>
    have := x.isLt
    simp only [leDec, List.length_cons, Nat.mul_add, Nat.pow_add, Nat.mul_one]
    omega

/-- The first byte of an encoding is the low byte, the rest encodes the value shifted down by eight bits. -/
theorem leEnc_succ {w : Nat} (n : Nat) (v : BitVec w) :
    leEnc (n + 1) v = v.extractLsb' 0 8 :: leEnc n (v >>> 8) := by
  simp only [leEnc, List.range_succ_eq_map, List.map_cons, List.map_map, Nat.mul_zero]
  congr 1
  apply List.map_congr_left
  intro i _
  simp only [Function.comp_apply]
  ext j hj
  simp [Nat.mul_add, Nat.add_comm, Nat.add_left_comm]

/-- Decoding an encoding gives the value back, up to the bits that the bytes do not hold. -/
theorem leDec_leEnc {w : Nat} (n : Nat) (v : BitVec w) : leDec (leEnc n v) = v.toNat % 2 ^ (8 * n) := by
  induction n generalizing v with
  | zero => simp [leEnc, leDec, Nat.mod_one]
  | succ n ih =>
    rw [leEnc_succ, leDec, ih]
    simp only [BitVec.extractLsb'_toNat, BitVec.toNat_ushiftRight, Nat.mul_add, Nat.pow_add,
      Nat.shiftRight_eq_div_pow, Nat.mul_one, Nat.pow_zero, Nat.div_one]
    rw [Nat.mul_comm (2 ^ (8 * n)), Nat.mod_mul]

/-- A number that fits decodes to the bytes it was decoded from. -/
theorem leEnc_leDec {w : Nat} (b : Bytes) (h : 8 * b.length ≤ w) : leEnc b.length (BitVec.ofNat w (leDec b)) = b := by
  induction b with
  | nil => rfl
  | cons x xs ih =>
    have hx := x.isLt
    have hlt := leDec_lt (x :: xs)
    have hle : 2 ^ (8 * (x :: xs).length) ≤ 2 ^ w := Nat.pow_le_pow_right (by decide) h
    have hxs := leDec_lt xs
    simp only [List.length_cons] at h ⊢
    rw [leEnc_succ]
    have htail : BitVec.ofNat w (leDec (x :: xs)) >>> 8 = BitVec.ofNat w (leDec xs) := by
      apply BitVec.eq_of_toNat_eq
      simp only [BitVec.toNat_ushiftRight, BitVec.toNat_ofNat, Nat.shiftRight_eq_div_pow]
      have : leDec xs < 2 ^ w := by simp only [leDec] at hlt; omega
      rw [Nat.mod_eq_of_lt (by omega), Nat.mod_eq_of_lt this]
      simp only [leDec]
      omega
    rw [htail, ih (by omega)]
    congr 1
    apply BitVec.eq_of_toNat_eq
    simp only [BitVec.extractLsb'_toNat, BitVec.toNat_ofNat, Nat.shiftRight_zero]
    rw [Nat.mod_eq_of_lt (by omega : leDec (x :: xs) < 2 ^ w)]
    simp only [leDec]
    omega

theorem leDec_le32Enc (v : U32) : leDec (le32Enc v) = v.toNat := by
  rw [le32Enc, leDec_leEnc]; exact Nat.mod_eq_of_lt v.isLt

theorem leDec_le64Enc (v : U64) : leDec (le64Enc v) = v.toNat := by
  rw [le64Enc, leDec_leEnc]; exact Nat.mod_eq_of_lt v.isLt

theorem le32Dec_toNat (b : Bytes) (h : b.length = 4) : (le32Dec b).toNat = leDec b := by
  have := leDec_lt b
  simp only [le32Dec, BitVec.toNat_ofNat]
  exact Nat.mod_eq_of_lt (by rw [h] at this; exact this)

theorem le64Dec_toNat (b : Bytes) (h : b.length = 8) : (le64Dec b).toNat = leDec b := by
  have := leDec_lt b
  simp only [le64Dec, BitVec.toNat_ofNat]
  exact Nat.mod_eq_of_lt (by rw [h] at this; exact this)

theorem u32ToU64_toNat (c : U32) : (u32ToU64 c).toNat = c.toNat := by
  have h : u32ToU64 c = c.setWidth 64 := by
    ext i hi
    simp only [u32ToU64, BitVec.getElem_and, BitVec.getElem_signExtend, BitVec.getElem_setWidth]
    have hm : (0x00000000FFFFFFFF#64 : U64) = (BitVec.allOnes 32).setWidth 64 := by decide
    simp only [hm, BitVec.getElem_setWidth, BitVec.getLsbD_allOnes]
    by_cases h32 : i < 32
    · simp [h32, BitVec.getLsbD_eq_getElem]
    · simp [h32, BitVec.getLsbD_of_ge c i (by omega)]
  rw [h, BitVec.toNat_setWidth]
  exact Nat.mod_eq_of_lt (by have := c.isLt; omega)

end Sys2Proof.Machine
end

