-- ==== Sys2Proof/Laws/Memory.lean ====
section
/-! SUPPORT. The laws of the byte arrays: reading after writing, and the canonical form, which every operation keeps. -/

namespace Sys2Proof.Machine

theorem readCell_writeByte_same (m : Memory) (a : Nat) (v : Byte) : readCell (writeByte m a v) a = some v := by
  induction m with
  | nil => simp [writeByte, readCell]
  | cons c m ih =>
    by_cases h1 : a < c.1
    · simp [writeByte, readCell, h1]
    · by_cases h2 : a = c.1
      · simp [writeByte, readCell, h2]
      · simp [writeByte, readCell, h1, h2, Ne.symm h2, ih]

theorem readCell_writeByte_other (m : Memory) (a b : Nat) (v : Byte) (h : b ≠ a) :
    readCell (writeByte m a v) b = readCell m b := by
  induction m with
  | nil => simp [writeByte, readCell, Ne.symm h]
  | cons c m ih =>
    by_cases h1 : a < c.1
    · simp [writeByte, readCell, h1, Ne.symm h]
    · by_cases h2 : a = c.1
      · subst h2; simp [writeByte, readCell, Ne.symm h]
      · rw [writeByte, if_neg h1, if_neg h2, readCell, readCell, ih]

theorem mem_writeByte {m : Memory} {a : Nat} {v : Byte} {c : Host.Cell} (h : c ∈ writeByte m a v) :
    c = (a, v) ∨ c ∈ m := by
  induction m with
  | nil => simpa [writeByte] using h
  | cons d m ih =>
    by_cases h1 : a < d.1
    · simpa [writeByte, h1] using h
    · by_cases h2 : a = d.1
      · rw [writeByte, if_neg h1, if_pos h2, List.mem_cons] at h
        exact h.imp id (List.mem_cons_of_mem d)
      · simp only [writeByte, if_neg h1, if_neg h2, List.mem_cons] at h ⊢
        rcases h with h | h
        · exact .inr (.inl h)
        · exact (ih h).imp id .inr

theorem writeByte_wf {m : Memory} (h : m.wf) (a : Nat) (v : Byte) : (writeByte m a v).wf := by
  induction m with
  | nil => simp [Memory.wf, writeByte]
  | cons c m ih =>
    have hc := List.pairwise_cons.mp h
    by_cases h1 : a < c.1
    · rw [writeByte, if_pos h1]
      refine List.pairwise_cons.mpr ⟨fun d hd => ?_, h⟩
      rcases List.mem_cons.mp hd with rfl | hd
      · exact h1
      · exact Nat.lt_trans h1 (hc.1 d hd)
    · by_cases h2 : a = c.1
      · rw [writeByte, if_neg h1, if_pos h2]
        exact List.pairwise_cons.mpr ⟨fun d hd => h2 ▸ hc.1 d hd, hc.2⟩
      · rw [writeByte, if_neg h1, if_neg h2]
        refine List.pairwise_cons.mpr ⟨fun d hd => ?_, ih hc.2⟩
        rcases mem_writeByte hd with rfl | hd
        · show c.1 < a
          omega
        · exact hc.1 d hd

/-- Every memory operation keeps the canonical form. -/
theorem memWrite_wf {m : Memory} (h : m.wf) (a : Nat) (bs : Bytes) : (memWrite m a bs).wf := by
  induction bs generalizing m a with
  | nil => exact h
  | cons b bs ih => exact ih (writeByte_wf h a b) (a + 1)

theorem mem_memWrite {m : Memory} {a : Nat} {bs : Bytes} {c : Host.Cell} (h : c ∈ memWrite m a bs) :
    c ∈ m ∨ (a ≤ c.1 ∧ c.1 < a + bs.length) := by
  induction bs generalizing m a with
  | nil => exact .inl h
  | cons b bs ih =>
    rcases ih h with h | h
    · rcases mem_writeByte h with rfl | h
      · exact .inr ⟨Nat.le_refl _, by simp⟩
      · exact .inl h
    · exact .inr (by simp only [List.length_cons]; omega)

/-- What every offset holds after a write: inside, the byte written; outside, what it held. -/
theorem readCell_memWrite (m : Memory) (a : Nat) (bs : Bytes) (i : Nat) :
    readCell (memWrite m a bs) i = if a ≤ i ∧ i < a + bs.length then bs[i - a]? else readCell m i := by
  induction bs generalizing m a with
  | nil => simp [memWrite]
  | cons b bs ih =>
    rw [memWrite, ih]
    by_cases h1 : a + 1 ≤ i ∧ i < a + 1 + bs.length
    · have : i - a = (i - (a + 1)) + 1 := by omega
      rw [if_pos h1, if_pos (by simp only [List.length_cons]; omega), this, List.getElem?_cons_succ]
    · rw [if_neg h1]
      by_cases h2 : i = a
      · subst h2
        rw [readCell_writeByte_same, if_pos (by simp)]
        simp
      · rw [readCell_writeByte_other _ _ _ _ h2, if_neg (by simp only [List.length_cons]; omega)]

@[simp] theorem memRead_length (free : Nat → Byte) (m : Memory) (a n : Nat) : (memRead free m a n).length = n := by
  simp [memRead]

theorem memRead_getElem? (free : Nat → Byte) (m : Memory) (a n i : Nat) :
    (memRead free m a n)[i]? = if i < n then some (readByte free m (a + i)) else none := by
  by_cases h : i < n <;> simp [memRead, h]

/-- Reading from offset 0 through the end of a write gives what stood below, then the bytes written. -/
theorem memRead_memWrite_append (free : Nat → Byte) (m : Memory) (a : Nat) (bs : Bytes) :
    memRead free (memWrite m a bs) 0 (a + bs.length) = memRead free m 0 a ++ bs := by
  apply List.ext_getElem?
  intro i
  rw [memRead_getElem?, List.getElem?_append, memRead_length, memRead_getElem?]
  simp only [Nat.zero_add, readByte, readCell_memWrite]
  by_cases h1 : i < a
  · simp [h1, show ¬ a ≤ i by omega, show i < a + bs.length by omega]
  · by_cases h2 : i < a + bs.length
    · have h3 : i - a < bs.length := by omega
      simp [h1, h2, show a ≤ i by omega, List.getElem?_eq_getElem h3]
    · simp [h1, h2, List.getElem?_eq_none (show bs.length ≤ i - a by omega)]

/-- Reading a part of what has just been written from offset 0. -/
theorem memRead_memWrite_part (free : Nat → Byte) (m : Memory) (bs : Bytes) (a n : Nat) (h : a + n ≤ bs.length) :
    memRead free (memWrite m 0 bs) a n = (bs.drop a).take n := by
  apply List.ext_getElem?
  intro i
  rw [memRead_getElem?, List.getElem?_take, List.getElem?_drop]
  by_cases h1 : i < n
  · have h3 : a + i < bs.length := by omega
    simp [h1, readByte, readCell_memWrite, h3]
  · simp [h1]

end Sys2Proof.Machine
end

