-- ==== Sys2Proof/Laws/State.lean ====
section
/-! SUPPORT. What each update of the state changes and what it leaves: one lemma for each field, so that no proof unfolds
a record update. -/

namespace Sys2Proof.Machine

/-! ### A response -/

@[simp] theorem respond_params (s : State) (r : Response) : (s.respond r).params = s.params := rfl
@[simp] theorem respond_enc (s : State) (r : Response) : (s.respond r).enc = s.enc := rfl
@[simp] theorem respond_sink (s : State) (r : Response) : (s.respond r).sink = s.sink := rfl
@[simp] theorem respond_dec (s : State) (r : Response) : (s.respond r).dec = s.dec := rfl
@[simp] theorem respond_source (s : State) (r : Response) : (s.respond r).source = s.source := rfl
@[simp] theorem respond_events (s : State) (r : Response) : (s.respond r).events = s.events := rfl
@[simp] theorem respond_responses (s : State) (r : Response) : (s.respond r).responses = s.responses ++ [r] := rfl

/-! ### The latch and the raise -/

@[simp] theorem latch_enc_enc (s : State) (e : Err) : (s.latch .enc e).enc = { s.enc with err := some e } := rfl
@[simp] theorem latch_dec_enc (s : State) (e : Err) : (s.latch .dec e).enc = s.enc := rfl
@[simp] theorem latch_enc_dec (s : State) (e : Err) : (s.latch .enc e).dec = s.dec := rfl
@[simp] theorem latch_dec_dec (s : State) (e : Err) : (s.latch .dec e).dec = { s.dec with err := some e } := rfl
@[simp] theorem latch_params (s : State) (u : CodecUnit) (e : Err) : (s.latch u e).params = s.params := by cases u <;> rfl
@[simp] theorem latch_sink (s : State) (u : CodecUnit) (e : Err) : (s.latch u e).sink = s.sink := by cases u <;> rfl
@[simp] theorem latch_source (s : State) (u : CodecUnit) (e : Err) : (s.latch u e).source = s.source := by
  cases u <;> rfl
@[simp] theorem latch_events (s : State) (u : CodecUnit) (e : Err) : (s.latch u e).events = s.events := by
  cases u <;> rfl
@[simp] theorem latch_responses (s : State) (u : CodecUnit) (e : Err) : (s.latch u e).responses = s.responses := by
  cases u <;> rfl

@[simp] theorem raise_enc_enc (s : State) (e : Err) : (s.raise .enc e).enc = { s.enc with err := some e } := rfl
@[simp] theorem raise_dec_enc (s : State) (e : Err) : (s.raise .dec e).enc = s.enc := rfl
@[simp] theorem raise_enc_dec (s : State) (e : Err) : (s.raise .enc e).dec = s.dec := rfl
@[simp] theorem raise_dec_dec (s : State) (e : Err) : (s.raise .dec e).dec = { s.dec with err := some e } := rfl
@[simp] theorem raise_params (s : State) (u : CodecUnit) (e : Err) : (s.raise u e).params = s.params := by cases u <;> rfl
@[simp] theorem raise_sink (s : State) (u : CodecUnit) (e : Err) : (s.raise u e).sink = s.sink := by cases u <;> rfl
@[simp] theorem raise_source (s : State) (u : CodecUnit) (e : Err) : (s.raise u e).source = s.source := by
  cases u <;> rfl
@[simp] theorem raise_events (s : State) (u : CodecUnit) (e : Err) : (s.raise u e).events = s.events := by
  cases u <;> rfl
@[simp] theorem raise_responses (s : State) (u : CodecUnit) (e : Err) :
    (s.raise u e).responses = s.responses ++ [.error e] := by cases u <;> rfl

/-! ### The two sides -/

@[simp] theorem encSide_enc (s : State) : s.encSide.enc = s.enc := rfl
@[simp] theorem encSide_sink (s : State) : s.encSide.sink = s.sink := rfl
@[simp] theorem decSide_dec (s : State) : s.decSide.dec = s.dec := rfl
@[simp] theorem decSide_source (s : State) : s.decSide.source = s.source := rfl

@[simp] theorem withEncSide_params (s : State) (u : EncSide) : (s.withEncSide u).params = s.params := rfl
@[simp] theorem withEncSide_enc (s : State) (u : EncSide) : (s.withEncSide u).enc = u.enc := rfl
@[simp] theorem withEncSide_sink (s : State) (u : EncSide) : (s.withEncSide u).sink = u.sink := rfl
@[simp] theorem withEncSide_dec (s : State) (u : EncSide) : (s.withEncSide u).dec = s.dec := rfl
@[simp] theorem withEncSide_source (s : State) (u : EncSide) : (s.withEncSide u).source = s.source := rfl
@[simp] theorem withEncSide_events (s : State) (u : EncSide) : (s.withEncSide u).events = s.events := rfl
@[simp] theorem withEncSide_responses (s : State) (u : EncSide) : (s.withEncSide u).responses = s.responses := rfl

@[simp] theorem withDecSide_params (s : State) (u : DecSide) : (s.withDecSide u).params = s.params := rfl
@[simp] theorem withDecSide_enc (s : State) (u : DecSide) : (s.withDecSide u).enc = s.enc := rfl
@[simp] theorem withDecSide_sink (s : State) (u : DecSide) : (s.withDecSide u).sink = s.sink := rfl
@[simp] theorem withDecSide_dec (s : State) (u : DecSide) : (s.withDecSide u).dec = u.dec := rfl
@[simp] theorem withDecSide_source (s : State) (u : DecSide) : (s.withDecSide u).source = u.source := rfl
@[simp] theorem withDecSide_events (s : State) (u : DecSide) : (s.withDecSide u).events = s.events := rfl
@[simp] theorem withDecSide_responses (s : State) (u : DecSide) : (s.withDecSide u).responses = s.responses := rfl

/-! ### How a command of one unit ends: the other unit's side is as it was -/

@[simp] theorem finishEnc_params (s : State) (f : Flow EncSide Payload) : (s.finishEnc f).params = s.params := by
  cases f <;> simp [State.finishEnc]
@[simp] theorem finishEnc_dec (s : State) (f : Flow EncSide Payload) : (s.finishEnc f).dec = s.dec := by
  cases f <;> simp [State.finishEnc]
@[simp] theorem finishEnc_source (s : State) (f : Flow EncSide Payload) : (s.finishEnc f).source = s.source := by
  cases f <;> simp [State.finishEnc]
@[simp] theorem finishEnc_events (s : State) (f : Flow EncSide Payload) : (s.finishEnc f).events = s.events := by
  cases f <;> simp [State.finishEnc]

@[simp] theorem finishDec_params (s : State) (f : Flow DecSide Payload) : (s.finishDec f).params = s.params := by
  cases f <;> simp [State.finishDec]
@[simp] theorem finishDec_enc (s : State) (f : Flow DecSide Payload) : (s.finishDec f).enc = s.enc := by
  cases f <;> simp [State.finishDec]
@[simp] theorem finishDec_sink (s : State) (f : Flow DecSide Payload) : (s.finishDec f).sink = s.sink := by
  cases f <;> simp [State.finishDec]
@[simp] theorem finishDec_events (s : State) (f : Flow DecSide Payload) : (s.finishDec f).events = s.events := by
  cases f <;> simp [State.finishDec]

/-! ### A call made -/

@[simp] theorem sink_called_data (k : Sink) : k.called.data = k.data := rfl
@[simp] theorem sink_called_isOpen (k : Sink) : k.called.isOpen = k.isOpen := rfl
@[simp] theorem sink_called_flushes (k : Sink) : k.called.flushes = k.flushes := rfl
@[simp] theorem sink_called_answers (k : Sink) : k.called.answers = k.answers.tail := rfl
@[simp] theorem sink_called_calls (k : Sink) : k.called.calls = k.calls + 1 := rfl
@[simp] theorem source_called_data (r : Source) : r.called.data = r.data := rfl
@[simp] theorem source_called_pos (r : Source) : r.called.pos = r.pos := rfl
@[simp] theorem source_called_answers (r : Source) : r.called.answers = r.answers.tail := rfl
@[simp] theorem source_called_calls (r : Source) : r.called.calls = r.calls + 1 := rfl
@[simp] theorem source_lost_data (r : Source) : r.lost.data = r.data := rfl
@[simp] theorem source_lost_pos (r : Source) : r.lost.pos = Config.sourcePosition r.calls := rfl
@[simp] theorem source_lost_answers (r : Source) : r.lost.answers = r.answers.tail := rfl
@[simp] theorem source_lost_calls (r : Source) : r.lost.calls = r.calls + 1 := rfl

end Sys2Proof.Machine
end

