-- ==== Sys2Proof/Laws/Ops.lean ====
section
/-! SUPPORT. What each shared operation can do, said once: the flow of an operation, how a command begins and ends, the
calls to the sink and the source. -/

namespace Sys2Proof.Machine

/-! ### The flow of an operation -/

@[simp] theorem bind_done {σ α β : Type} (a : α) (u : σ) (g : α → σ → Flow σ β) : (Flow.done a u).bind g = g a u := rfl
@[simp] theorem bind_raised {σ α β : Type} (e : Err) (u : σ) (g : α → σ → Flow σ β) :
    (Flow.raised e u).bind g = .raised e u := rfl
@[simp] theorem bind_answered {σ α β : Type} (r : Response) (u : σ) (g : α → σ → Flow σ β) :
    (Flow.answered r u).bind g = .answered r u := rfl
@[simp] theorem bind_stuck {σ α β : Type} (u : σ) (g : α → σ → Flow σ β) : (Flow.stuck u).bind g = .stuck u := rfl

/-- What holds of the outcome of an operation: one predicate for each way it can go. -/
def Flow.Post {σ α : Type} (done : α → σ → Prop) (raised : Err → σ → Prop) (answered : Response → σ → Prop)
    (stuck : σ → Prop) : Flow σ α → Prop
  | .done a u => done a u
  | .raised e u => raised e u
  | .answered r u => answered r u
  | .stuck u => stuck u

/-- To know the outcome of a sequence: know that of its first part, and that of the second after every `done`. -/
theorem Flow.Post.bind {σ α β : Type} {D : α → σ → Prop} {D' : β → σ → Prop} {R : Err → σ → Prop}
    {A : Response → σ → Prop} {S : σ → Prop} {f : Flow σ α} {g : α → σ → Flow σ β} (hf : f.Post D R A S)
    (hg : ∀ a u, D a u → (g a u).Post D' R A S) : (f.bind g).Post D' R A S := by
  cases f with
  | done a u => exact hg a u hf
  | raised e u => exact hf
  | answered r u => exact hf
  | stuck u => exact hf

theorem Flow.Post.imp {σ α : Type} {D D' : α → σ → Prop} {R R' : Err → σ → Prop} {A A' : Response → σ → Prop}
    {S S' : σ → Prop} {f : Flow σ α} (hf : f.Post D R A S) (hd : ∀ a u, D a u → D' a u) (hr : ∀ e u, R e u → R' e u)
    (ha : ∀ r u, A r u → A' r u) (hs : ∀ u, S u → S' u) : f.Post D' R' A' S' := by
  cases f with
  | done a u => exact hd a u hf
  | raised e u => exact hr e u hf
  | answered r u => exact ha r u hf
  | stuck u => exact hs u hf

/-! ### How a command begins and ends -/

theorem encCommand_idle (op : EncSide → Flow EncSide Payload) {s : State} (h : s.enc.waiting = false) :
    encCommand op s = .next (s.finishEnc (op s.encSide)) := by simp [encCommand, h]

theorem encCommand_waiting (op : EncSide → Flow EncSide Payload) {s : State} (h : s.enc.waiting = true) :
    encCommand op s = .refused .encoderBusy := by simp [encCommand, h]

/-- An encoder command that answers a next state found the encoder not waiting, and ended as its flow says. -/
theorem encCommand_next {op : EncSide → Flow EncSide Payload} {s t : State} (h : encCommand op s = .next t) :
    s.enc.waiting = false ∧ t = s.finishEnc (op s.encSide) := by
  cases hw : s.enc.waiting with
  | true => simp [encCommand_waiting op hw] at h
  | false => rw [encCommand_idle op hw] at h; exact ⟨rfl, (Host.Outcome.next.inj h).symm⟩

theorem decCommand_idle (op : DecSide → Flow DecSide Payload) {s : State} (h : s.dec.waiting = false) :
    decCommand op s = .next (s.finishDec (op s.decSide)) := by simp [decCommand, h]

theorem decCommand_waiting (op : DecSide → Flow DecSide Payload) {s : State} (h : s.dec.waiting = true) :
    decCommand op s = .refused .decoderBusy := by simp [decCommand, h]

/-- A decoder command that answers a next state found the decoder not waiting, and ended as its flow says. -/
theorem decCommand_next {op : DecSide → Flow DecSide Payload} {s t : State} (h : decCommand op s = .next t) :
    s.dec.waiting = false ∧ t = s.finishDec (op s.decSide) := by
  cases hw : s.dec.waiting with
  | true => simp [decCommand_waiting op hw] at h
  | false => rw [decCommand_idle op hw] at h; exact ⟨rfl, (Host.Outcome.next.inj h).symm⟩

/-! ### The sink -/

theorem Sink.Reliable.answer {k : Sink} (h : k.Reliable) : k.answer = .ok := by
  unfold Sink.answer
  cases ha : k.answers with
  | nil => rfl
  | cons a l => exact h a (by simp [ha])

theorem Sink.Reliable.tail {k : Sink} (h : k.Reliable) : ∀ a ∈ k.answers.tail, a = SinkAnswer.ok :=
  fun a ha => h a (List.mem_of_mem_tail ha)

/-- The sink `l` is `k` after it has got the bytes `q` in some number of writes: no flush, no close. -/
structure Sink.Wrote (k : Sink) (q : Bytes) (l : Sink) : Prop where
  data : l.data = k.data ++ q
  isOpen : l.isOpen = k.isOpen
  flushes : l.flushes = k.flushes
  answers : ∃ n, l.answers = k.answers.drop n
  calls : k.calls ≤ l.calls

theorem Sink.Wrote.refl (k : Sink) : k.Wrote [] k :=
  ⟨(List.append_nil _).symm, rfl, rfl, ⟨0, rfl⟩, Nat.le_refl _⟩

theorem Sink.Wrote.trans {k l m : Sink} {q r : Bytes} (h : k.Wrote q l) (h' : l.Wrote r m) : k.Wrote (q ++ r) m := by
  obtain ⟨n, hn⟩ := h.answers
  obtain ⟨n', hn'⟩ := h'.answers
  exact ⟨by rw [h'.data, h.data, List.append_assoc], h'.isOpen.trans h.isOpen, h'.flushes.trans h.flushes,
    ⟨n + n', by rw [hn', hn, List.drop_drop]⟩, Nat.le_trans h.calls h'.calls⟩

theorem Sink.Wrote.reliable {k l : Sink} {q : Bytes} (h : k.Wrote q l) (hk : k.Reliable) : l.Reliable := by
  obtain ⟨n, hn⟩ := h.answers
  intro a ha
  exact hk a (List.mem_of_mem_drop (hn ▸ ha))

/-- All a `SinkWrite` can do: `ok` and the sink has got every byte, or not `ok` and it has got some first part. -/
theorem sinkWrite_wrote (b : Bytes) (k : Sink) :
    (k.answer = .ok ∧ (sinkWrite b k).1 = .ok ∧ k.Wrote b (sinkWrite b k).2) ∨
    (k.answer ≠ .ok ∧ (sinkWrite b k).1 = k.answer ∧ ∃ q, q <+: b ∧ k.Wrote q (sinkWrite b k).2) := by
  have hw : ∀ q : Bytes, k.Wrote q { k.called with data := k.data ++ q } := fun q =>
    ⟨rfl, rfl, rfl, ⟨1, by simp⟩, by simp⟩
  cases h : k.answer with
  | ok => exact .inl ⟨rfl, by simp [sinkWrite, h], by simpa [sinkWrite, h] using hw b⟩
  | fail => exact .inr ⟨by simp, by simp [sinkWrite, h], _, List.take_prefix _ _, by simpa [sinkWrite, h] using hw _⟩
  | never => exact .inr ⟨by simp, by simp [sinkWrite, h], _, List.take_prefix _ _, by simpa [sinkWrite, h] using hw _⟩

theorem sinkWrite_ok {b : Bytes} {k : Sink} (h : k.answer = .ok) :
    sinkWrite b k = (.ok, { k.called with data := k.data ++ b }) := by simp [sinkWrite, h]

theorem sinkClose_ok {k : Sink} (h : k.answer = .ok) : sinkClose k = (.ok, { k.called with isOpen := false }) := by
  simp [sinkClose, h]

/-- All any sink call of the encoder can do to the registers: nothing; a failed call raises `IOFailure` of its cause. -/
theorem encCall_post (call : Sink → SinkAnswer × Sink) (cause : Byte) (u : EncSide) :
    (encCall call cause u).Post
      (fun _ v => v.enc = u.enc ∧ (call u.sink).1 = .ok ∧ v.sink = (call u.sink).2)
      (fun e v => v.enc = u.enc ∧ e = ioFailure cause ∧ (call u.sink).1 = .fail ∧ v.sink = (call u.sink).2)
      (fun _ _ => False)
      (fun v => v.enc = u.enc ∧ (call u.sink).1 = .never ∧ v.sink = (call u.sink).2) := by
  rcases h : call u.sink with ⟨a, k⟩
  cases a <;> simp [encCall, h, Flow.Post]

/-- All an encoder's write call can do: the registers stay; a failed call raises `IOFailure(1)`. -/
theorem encCall_write_post (b : Bytes) (u : EncSide) :
    (encCall (sinkWrite b) 1 u).Post
      (fun _ v => v.enc = u.enc ∧ u.sink.Wrote b v.sink)
      (fun e v => v.enc = u.enc ∧ e = ioFailure 1 ∧ ∃ q, q <+: b ∧ u.sink.Wrote q v.sink)
      (fun _ _ => False)
      (fun v => v.enc = u.enc ∧ ∃ q, q <+: b ∧ u.sink.Wrote q v.sink) := by
  rcases hs : sinkWrite b u.sink with ⟨a, k⟩
  rcases sinkWrite_wrote b u.sink with ⟨-, ha, hw⟩ | ⟨hne, ha, q, hq, hw⟩
  · rw [hs] at ha hw
    subst ha
    simp only [encCall, hs, Flow.Post]
    exact ⟨trivial, hw⟩
  · rw [hs] at ha hw
    cases a with
    | ok => exact absurd ha.symm hne
    | fail => simp only [encCall, hs, Flow.Post]; exact ⟨trivial, trivial, q, hq, hw⟩
    | never => simp only [encCall, hs, Flow.Post]; exact ⟨trivial, q, hq, hw⟩

/-! ### The source -/

theorem Source.Reliable.answer {r : Source} (h : r.Reliable) : r.answer = .serve := by
  unfold Source.answer
  cases ha : r.answers with
  | nil => rfl
  | cons a l => exact h a (by simp [ha])

/-- A source that serves and has the bytes delivers the next `n` of them and moves past them. -/
theorem srcReadExactly_serve {r : Source} {n : Nat} {b rest : Bytes} (ha : r.answer = .serve)
    (hd : r.data.drop r.pos = b ++ rest) (hn : b.length = n) (h0 : 0 < n) :
    srcReadExactly n r = (.ok b, { r.called with pos := r.pos + n }) := by
  have hl : (r.data.drop r.pos).length = b.length + rest.length := by rw [hd, List.length_append]
  rw [List.length_drop] at hl
  have hle : r.pos + n ≤ r.data.length := by omega
  subst hn
  simp [srcReadExactly, ha, hle, hd]

/-- A source that serves and has fewer bytes than asked for answers `short`. -/
theorem srcReadExactly_short {r : Source} {n : Nat} (ha : r.answer = .serve) (hn : (r.data.drop r.pos).length < n) :
    srcReadExactly n r = (.short, r.lost) := by
  rw [List.length_drop] at hn
  simp [srcReadExactly, ha, show ¬ r.pos + n ≤ r.data.length by omega]

/-- All a field read can do: the registers stay; a field delivered has the length asked for. -/
theorem srcField_post (n : Nat) (u : DecSide) :
    (srcField n u).Post
      (fun b v => v.dec = u.dec ∧ b.length = n)
      (fun e v => v.dec = u.dec ∧ (e = malformedFrame 4 ∨ e = ioFailure 4))
      (fun _ _ => False)
      (fun v => v.dec = u.dec) := by
  unfold srcField srcReadExactly
  cases u.source.answer with
  | serve =>
    by_cases h : u.source.pos + n ≤ u.source.data.length
    · simp only [h, if_true, Flow.Post, true_and, List.length_take, List.length_drop]
      omega
    · simp [h, Flow.Post]
  | short => simp [Flow.Post]
  | fail => simp [Flow.Post]
  | never => simp [Flow.Post]

end Sys2Proof.Machine
end

