-- ==== Sys2Proof/Laws/Sha256.lean ====
section
/-! SUPPORT. The length of a digest. -/

namespace Sys2Proof.Machine

@[simp] theorem beEnc_length (n v : Nat) : (beEnc n v).length = n := by simp [beEnc]

@[simp] theorem hashWords_bytes_length (v : HashWords) : v.bytes.length = 32 := by simp [HashWords.bytes]

/-- A digest has 32 bytes. -/
@[simp] theorem sha256_length (m : Bytes) : (sha256 m).length = 32 := by
  by_cases h : m.length < 2 ^ 61
  · rw [sha256, if_pos h, sha256InRange, hashWords_bytes_length]
  · rw [sha256, if_neg h, List.length_ofFn]

end Sys2Proof.Machine
end

