-- ==== Sys2Proof/Laws/Decoder.lean ====
section
/-! SUPPORT. What the steps of the decoder can do: one frame read, the residual delivered. -/

namespace Sys2Proof.Machine

theorem decAdmit_failed {u : DecSide} {e : Err} (h : u.dec.err = some e) : decAdmit u = .answered (.error e) u := by
  simp [decAdmit, h]

theorem decAdmit_ready {u : DecSide} (h : u.dec.err = none) : decAdmit u = .done () u := by simp [decAdmit, h]

/-- The residual is delivered before any frame is read. -/
theorem refill_residual (p : Params) {u : DecSide} (h : ¬ u.dec.ResidualEmpty) : refill p u = .done () u := by
  simp [refill, h]

theorem refill_terminated (p : Params) {u : DecSide} (h : u.dec.ResidualEmpty) (ht : u.dec.term = true) :
    refill p u = .answered .eos u := by simp [refill, h, ht]

theorem refill_frame (p : Params) {u : DecSide} (h : u.dec.ResidualEmpty) (ht : u.dec.term = false) :
    refill p u = readFrame p u := by simp [refill, h, ht]

@[simp] theorem acceptBlock_resPos (p : Bytes) (d : Decoder) : (acceptBlock p d).resPos = 0 := rfl
@[simp] theorem acceptBlock_resLen (p : Bytes) (d : Decoder) : (acceptBlock p d).resLen = p.length := rfl
@[simp] theorem acceptBlock_res (p : Bytes) (d : Decoder) : (acceptBlock p d).res = memWrite d.res 0 p := rfl
@[simp] theorem acceptBlock_expectedIndex (p : Bytes) (d : Decoder) :
    (acceptBlock p d).expectedIndex = d.expectedIndex + 1 := rfl
@[simp] theorem acceptBlock_term (p : Bytes) (d : Decoder) : (acceptBlock p d).term = d.term := rfl
@[simp] theorem acceptBlock_err (p : Bytes) (d : Decoder) : (acceptBlock p d).err = d.err := rfl
@[simp] theorem acceptBlock_waiting (p : Bytes) (d : Decoder) : (acceptBlock p d).waiting = d.waiting := rfl

/-- The errors reading a frame can raise (R209). -/
def frameErrors : List Err :=
  [malformedFrame 1, malformedFrame 2, malformedFrame 3, malformedFrame 4, integrityViolation, ioFailure 4]

/-- All `AcceptData` can do with a length in range: a block accepted, an error with the registers as they were. -/
theorem acceptData_post (d : Bytes) (len : Nat) (u : DecSide) :
    (acceptData d len u).Post
      (fun _ v => ∃ p : Bytes, p.length = len ∧ sha256 p = d ∧ v.dec = acceptBlock p u.dec)
      (fun e v => v.dec = u.dec ∧ e ∈ frameErrors)
      (fun _ _ => False)
      (fun v => v.dec = u.dec) := by
  unfold acceptData
  refine Flow.Post.bind (D := fun p v => v.dec = u.dec ∧ p.length = len) ?_ ?_
  · refine (srcField_post len u).imp (fun _ _ h => h) ?_ (fun _ _ h => h) (fun _ h => h)
    rintro e v ⟨h, rfl | rfl⟩ <;> exact ⟨h, by simp [frameErrors]⟩
  rintro p v ⟨hv, hp⟩
  by_cases h : sha256 p = d
  · rw [if_neg (by simp [h])]
    exact ⟨p, hp, h, by rw [hv]⟩
  · rw [if_pos h]
    exact ⟨hv, by simp [frameErrors]⟩

/-- All `ReadFrame` can do. Done: a data block within the maximum is accepted under the expected index. Raised: an error,
the registers as they were. Answered: `EOS`, with the terminal flag set. -/
theorem readFrame_post (p : Params) (u : DecSide) :
    (readFrame p u).Post
      (fun _ v => u.dec.expectedIndex < 2 ^ 32 ∧
        ∃ b : Bytes, 1 ≤ b.length ∧ b.length ≤ p.maxBlockLen ∧ v.dec = acceptBlock b u.dec)
      (fun e v => v.dec = u.dec ∧ e ∈ frameErrors)
      (fun r v => r = .eos ∧ v.dec = { u.dec with term := true })
      (fun v => v.dec = u.dec) := by
  have hfield : ∀ (n : Nat) (w : DecSide), w.dec = u.dec →
      (srcField n w).Post (fun b v => v.dec = u.dec ∧ b.length = n) (fun e v => v.dec = u.dec ∧ e ∈ frameErrors)
        (fun r v => r = .eos ∧ v.dec = { u.dec with term := true }) (fun v => v.dec = u.dec) := by
    intro n w hw
    refine (srcField_post n w).imp ?_ ?_ (fun _ _ h => h.elim) (fun _ h => h.trans hw)
    · exact fun _ _ h => ⟨h.1.trans hw, h.2⟩
    · rintro e v ⟨h, rfl | rfl⟩ <;> exact ⟨h.trans hw, by simp [frameErrors]⟩
  unfold readFrame
  refine Flow.Post.bind (hfield 4 u rfl) ?_
  rintro b u1 ⟨hu1, hb⟩
  refine Flow.Post.bind (D := fun _ v => v.dec = u.dec ∧ u.dec.expectedIndex < 2 ^ 32) ?_ ?_
  · unfold checkIndex
    by_cases h : (le32Dec b).toNat = u1.dec.expectedIndex
    · rw [if_neg (by simp [h])]
      exact ⟨hu1, by rw [← hu1, ← h]; exact (le32Dec b).isLt⟩
    · rw [if_pos h]
      exact ⟨hu1, by simp [frameErrors]⟩
  rintro - u2 ⟨hu2, hidx⟩
  refine Flow.Post.bind (hfield 32 u2 hu2) ?_
  rintro d u3 ⟨hu3, -⟩
  refine Flow.Post.bind (hfield 4 u3 hu3) ?_
  rintro l u4 ⟨hu4, -⟩
  refine Flow.Post.bind (D := fun _ v => v.dec = u.dec ∧ (u32ToU64 (le32Dec l)).toNat ≤ p.maxBlockLen) ?_ ?_
  · unfold checkLength
    by_cases h : p.maxBlockLen < (u32ToU64 (le32Dec l)).toNat
    · rw [if_pos h]
      exact ⟨hu4, by simp [frameErrors]⟩
    · rw [if_neg h]
      exact ⟨hu4, Nat.le_of_not_lt h⟩
  rintro - u5 ⟨hu5, hlen⟩
  by_cases h0 : (u32ToU64 (le32Dec l)).toNat = 0
  · rw [if_pos h0]
    unfold acceptTerminal
    by_cases hd : d = List.replicate 32 0x00
    · rw [if_neg (by simp [hd])]
      exact ⟨rfl, by simp [hu5]⟩
    · rw [if_pos hd]
      exact ⟨hu5, by simp [frameErrors]⟩
  · rw [if_neg h0]
    refine (acceptData_post d _ u5).imp ?_ (fun _ _ h => ⟨h.1.trans hu5, h.2⟩) (fun _ _ h => h.elim)
      (fun _ h => h.trans hu5)
    rintro - v ⟨b', hb', -, hv⟩
    exact ⟨hidx, b', by omega, by omega, by rw [hv, hu5]⟩

/-- A field that is there is read, and the source moves past it. -/
theorem srcField_serve {u : DecSide} {n : Nat} {b rest : Bytes} (ha : u.source.answer = .serve)
    (hd : u.source.data.drop u.source.pos = b ++ rest) (hn : b.length = n) (h0 : 0 < n) :
    srcField n u = .done b { u with source := { u.source.called with pos := u.source.pos + n } } := by
  simp [srcField, srcReadExactly_serve ha hd hn h0]

/-- What `DEC.READ` delivers of a block it has just accepted. -/
theorem deliverBytes_acceptBlock (n : U32) (p : Bytes) (d : Decoder) :
    deliverBytes n (acceptBlock p d) = p.take n.toNat := by
  have h : 0 + min n.toNat p.length ≤ p.length := by omega
  simp only [deliverBytes, deliverLength, acceptBlock_res, acceptBlock_resPos, acceptBlock_resLen, Nat.sub_zero,
    memRead_memWrite_part _ _ _ _ _ h, List.drop_zero]
  rw [← List.take_take, List.take_length]

/-! ### Construction -/

@[simp] theorem constructDecoder_expectedIndex (p : Params) (d : Decoder) : (constructDecoder p d).expectedIndex = 0 := rfl
@[simp] theorem constructDecoder_term (p : Params) (d : Decoder) : (constructDecoder p d).term = false := rfl
@[simp] theorem constructDecoder_res (p : Params) (d : Decoder) : (constructDecoder p d).res = d.res := rfl
@[simp] theorem constructDecoder_resLen (p : Params) (d : Decoder) : (constructDecoder p d).resLen = 0 := rfl
@[simp] theorem constructDecoder_resPos (p : Params) (d : Decoder) : (constructDecoder p d).resPos = 0 := rfl
@[simp] theorem constructDecoder_err (p : Params) (d : Decoder) : (constructDecoder p d).err = constructionError p := rfl
@[simp] theorem constructDecoder_waiting (p : Params) (d : Decoder) : (constructDecoder p d).waiting = false := rfl

end Sys2Proof.Machine
end

