-- ==== Sys2Proof/Laws/Encoder.lean ====
section
/-! SUPPORT. What the steps of the encoder can do: emission of a frame, the buffer, one pass of the write loop. -/

namespace Sys2Proof.Machine

/-! ### Admission -/

theorem encAdmit_failed {u : EncSide} {e : Err} (h : u.enc.err = some e) : encAdmit u = .answered (.error e) u := by
  simp [encAdmit, h]

theorem encAdmit_closed {u : EncSide} (h : u.enc.err = none) (hc : u.enc.closed = true) :
    encAdmit u = .answered (.error (ioFailure 5)) u := by simp [encAdmit, h, hc]

theorem encAdmit_ready {u : EncSide} (h : u.enc.err = none) (hc : u.enc.closed = false) : encAdmit u = .done () u := by
  simp [encAdmit, h, hc]

/-! ### Frames -/

/-- The bytes of a frame in the order `EmitFrame` writes them (R141). -/
def frameBytes (k : Nat) (p d : Bytes) : Bytes :=
  le32Enc (BitVec.ofNat 32 k) ++ (d ++ (le32Enc (BitVec.ofNat 32 p.length) ++ p))

theorem frameBytes_data (k : Nat) (p : Bytes) : frameBytes k p (sha256 p) = dataFrame k p := by
  simp [frameBytes, dataFrame]

theorem frameBytes_terminal (k : Nat) : frameBytes k [] (List.replicate 32 0x00) = terminalFrame k := by
  simp [frameBytes, terminalFrame]

@[simp] theorem dataFrame_length (k : Nat) (p : Bytes) : (dataFrame k p).length = 40 + p.length := by
  simp [dataFrame]; omega

@[simp] theorem terminalFrame_length (k : Nat) : (terminalFrame k).length = 40 := by
  simp [terminalFrame]

/-- A data frame is its writes, one after another. -/
theorem dataWrites_flatten (k : Nat) (p : Bytes) : (dataWrites k p).flatten = dataFrame k p := by
  simp [dataWrites, dataFrame]

/-- A terminal frame is its writes, one after another. -/
theorem terminalWrites_flatten (k : Nat) : (terminalWrites k).flatten = terminalFrame k := by
  simp [terminalWrites, terminalFrame]

theorem closeWrites_length (e : Encoder) : (closeWrites e).length = 4 * e.lastBlocks + 3 := by
  unfold closeWrites Encoder.lastBlocks
  split <;> simp [dataWrites, terminalWrites]

/-- Until the last data block is out, `ENC.CLOSE` changes no register. -/
theorem closeRegisters_early {e : Encoder} {j : Nat} (h : j < 4 * e.lastBlocks) : closeRegisters e j = e := if_pos h

/-- All the payload write can do. -/
theorem writePayload_post (p : Bytes) (u : EncSide) :
    (writePayload p u).Post
      (fun _ v => v.enc = u.enc ∧ u.sink.Wrote p v.sink)
      (fun e v => v.enc = u.enc ∧ e = ioFailure 1 ∧ ∃ q, q <+: p ∧ u.sink.Wrote q v.sink)
      (fun _ _ => False)
      (fun v => v.enc = u.enc ∧ ∃ q, q <+: p ∧ u.sink.Wrote q v.sink) := by
  unfold writePayload
  by_cases h : p.length = 0
  · rw [if_pos h]
    have : p = [] := List.length_eq_zero_iff.mp h
    subst this
    exact ⟨rfl, Sink.Wrote.refl _⟩
  · rw [if_neg h]
    exact encCall_write_post p u

/-- All `EmitFrame` can do. Done: the whole frame is on the sink and the index counted. Raised: the registers are as they
were, and either the index had run out and the sink got nothing, or a write failed and the sink got a first part of the
frame. Waiting: the registers are as they were, the sink got a first part of the frame. -/
theorem emitFrame_post (p d : Bytes) (u : EncSide) :
    (emitFrame p d u).Post
      (fun _ v => u.enc.nextIndex < 2 ^ 32 ∧ v.enc = { u.enc with nextIndex := u.enc.nextIndex + 1 } ∧
        u.sink.Wrote (frameBytes u.enc.nextIndex p d) v.sink)
      (fun e v => v.enc = u.enc ∧ ((e = rangeError ∧ 2 ^ 32 ≤ u.enc.nextIndex ∧ v.sink = u.sink) ∨
        (e = ioFailure 1 ∧ u.enc.nextIndex < 2 ^ 32 ∧
          ∃ q, q <+: frameBytes u.enc.nextIndex p d ∧ u.sink.Wrote q v.sink)))
      (fun _ _ => False)
      (fun v => v.enc = u.enc ∧ ∃ q, q <+: frameBytes u.enc.nextIndex p d ∧ u.sink.Wrote q v.sink) := by
  unfold emitFrame
  by_cases hn : 2 ^ 32 ≤ u.enc.nextIndex
  · rw [if_pos hn]
    exact ⟨rfl, .inl ⟨rfl, hn, rfl⟩⟩
  rw [if_neg hn]
  have hn' : u.enc.nextIndex < 2 ^ 32 := by omega
  refine Flow.Post.bind (D := fun _ v => v.enc = u.enc ∧
    u.sink.Wrote (le32Enc (BitVec.ofNat 32 u.enc.nextIndex)) v.sink) ?_ ?_
  · refine (encCall_write_post _ u).imp (fun _ _ h => h) ?_ (fun _ _ h => h) ?_
    · rintro e v ⟨h1, h2, q, hq, hw⟩
      exact ⟨h1, .inr ⟨h2, hn', q, hq.trans (List.prefix_append _ _), hw⟩⟩
    · rintro v ⟨h1, q, hq, hw⟩
      exact ⟨h1, q, hq.trans (List.prefix_append _ _), hw⟩
  rintro - u1 ⟨he1, hw1⟩
  refine Flow.Post.bind (D := fun _ v => v.enc = u.enc ∧
    u.sink.Wrote (le32Enc (BitVec.ofNat 32 u.enc.nextIndex) ++ d) v.sink) ?_ ?_
  · refine (encCall_write_post _ u1).imp (fun _ v h => ⟨h.1.trans he1, hw1.trans h.2⟩) ?_ (fun _ _ h => h) ?_
    · rintro e v ⟨h1, h2, q, hq, hw⟩
      exact ⟨h1.trans he1, .inr ⟨h2, hn', _, List.prefix_append_right_inj _ |>.mpr
        (hq.trans (List.prefix_append _ _)), hw1.trans hw⟩⟩
    · rintro v ⟨h1, q, hq, hw⟩
      exact ⟨h1.trans he1, _, List.prefix_append_right_inj _ |>.mpr (hq.trans (List.prefix_append _ _)), hw1.trans hw⟩
  rintro - u2 ⟨he2, hw2⟩
  have hsplit : frameBytes u.enc.nextIndex p d =
      (le32Enc (BitVec.ofNat 32 u.enc.nextIndex) ++ d) ++ (le32Enc (BitVec.ofNat 32 p.length) ++ p) := by
    simp [frameBytes]
  refine Flow.Post.bind (D := fun _ v => v.enc = u.enc ∧
    u.sink.Wrote (le32Enc (BitVec.ofNat 32 u.enc.nextIndex) ++ d ++ le32Enc (BitVec.ofNat 32 p.length)) v.sink) ?_ ?_
  · refine (encCall_write_post _ u2).imp (fun _ v h => ⟨h.1.trans he2, hw2.trans h.2⟩) ?_ (fun _ _ h => h) ?_
    · rintro e v ⟨h1, h2, q, hq, hw⟩
      exact ⟨h1.trans he2, .inr ⟨h2, hn', _, hsplit ▸ (List.prefix_append_right_inj _ |>.mpr
        (hq.trans (List.prefix_append _ _))), hw2.trans hw⟩⟩
    · rintro v ⟨h1, q, hq, hw⟩
      exact ⟨h1.trans he2, _, hsplit ▸ (List.prefix_append_right_inj _ |>.mpr
        (hq.trans (List.prefix_append _ _))), hw2.trans hw⟩
  rintro - u3 ⟨he3, hw3⟩
  have hsplit' : frameBytes u.enc.nextIndex p d =
      (le32Enc (BitVec.ofNat 32 u.enc.nextIndex) ++ d ++ le32Enc (BitVec.ofNat 32 p.length)) ++ p := by
    simp [frameBytes]
  refine Flow.Post.bind (D := fun _ v => v.enc = u.enc ∧ u.sink.Wrote (frameBytes u.enc.nextIndex p d) v.sink) ?_ ?_
  · refine (writePayload_post p u3).imp (fun _ v h => ⟨h.1.trans he3, hsplit' ▸ hw3.trans h.2⟩) ?_ (fun _ _ h => h) ?_
    · rintro e v ⟨h1, h2, q, hq, hw⟩
      exact ⟨h1.trans he3, .inr ⟨h2, hn', _, hsplit' ▸ (List.prefix_append_right_inj _ |>.mpr hq), hw3.trans hw⟩⟩
    · rintro v ⟨h1, q, hq, hw⟩
      exact ⟨h1.trans he3, _, hsplit' ▸ (List.prefix_append_right_inj _ |>.mpr hq), hw3.trans hw⟩
  rintro - u4 ⟨he4, hw4⟩
  exact ⟨hn', by rw [advanceIndex, he4], hw4⟩

/-- With a sink that answers `ok` and an index left, `EmitFrame` is done. -/
theorem emitFrame_reliable (p d : Bytes) {u : EncSide} (hn : u.enc.nextIndex < 2 ^ 32) (hs : u.sink.Reliable) :
    ∃ v, emitFrame p d u = .done () v := by
  have hok : ∀ (b : Bytes) (w : EncSide), w.sink.Reliable →
      ∃ v, encCall (sinkWrite b) 1 w = .done () v ∧ v.sink.Reliable := by
    intro b w hw
    refine ⟨{ w with sink := { w.sink.called with data := w.sink.data ++ b } }, ?_, fun a ha => hw.tail a ha⟩
    simp [encCall, sinkWrite_ok hw.answer]
  unfold emitFrame
  rw [if_neg (by omega)]
  obtain ⟨u1, h1, r1⟩ := hok (le32Enc (BitVec.ofNat 32 u.enc.nextIndex)) u hs
  obtain ⟨u2, h2, r2⟩ := hok d u1 r1
  obtain ⟨u3, h3, r3⟩ := hok (le32Enc (BitVec.ofNat 32 p.length)) u2 r2
  have h4 : ∃ u4, writePayload p u3 = .done () u4 := by
    unfold writePayload
    by_cases hp : p.length = 0
    · exact ⟨u3, if_pos hp⟩
    · rw [if_neg hp]
      obtain ⟨u4, h4, -⟩ := hok p u3 r3
      exact ⟨u4, h4⟩
  obtain ⟨u4, h4⟩ := h4
  exact ⟨advanceIndex u4, by rw [h1, bind_done, h2, bind_done, h3, bind_done, h4, bind_done]⟩

/-! ### The buffer -/

@[simp] theorem pendingBytes_length (e : Encoder) : (pendingBytes e).length = e.fill := memRead_length _ _ _ _

@[simp] theorem fillBuffer_fill (d : Bytes) (u : EncSide) :
    (fillBuffer d u).enc.fill = u.enc.fill + d.length := rfl
@[simp] theorem fillBuffer_buf (d : Bytes) (u : EncSide) :
    (fillBuffer d u).enc.buf = memWrite u.enc.buf u.enc.fill d := rfl
@[simp] theorem fillBuffer_blockSize (d : Bytes) (u : EncSide) :
    (fillBuffer d u).enc.blockSize = u.enc.blockSize := rfl
@[simp] theorem fillBuffer_nextIndex (d : Bytes) (u : EncSide) :
    (fillBuffer d u).enc.nextIndex = u.enc.nextIndex := rfl
@[simp] theorem fillBuffer_closed (d : Bytes) (u : EncSide) : (fillBuffer d u).enc.closed = u.enc.closed := rfl
@[simp] theorem fillBuffer_err (d : Bytes) (u : EncSide) : (fillBuffer d u).enc.err = u.enc.err := rfl
@[simp] theorem fillBuffer_waiting (d : Bytes) (u : EncSide) : (fillBuffer d u).enc.waiting = u.enc.waiting := rfl
@[simp] theorem fillBuffer_sink (d : Bytes) (u : EncSide) : (fillBuffer d u).sink = u.sink := rfl

/-- The bytes copied into the buffer follow those it held. -/
theorem pendingBytes_fillBuffer (d : Bytes) (u : EncSide) :
    pendingBytes (fillBuffer d u).enc = pendingBytes u.enc ++ d :=
  memRead_memWrite_append _ _ _ _

/-- An offset outside the bytes copied holds what it held. -/
theorem readByte_fillBuffer_other (free : Nat → Byte) (d : Bytes) (u : EncSide) (a : Nat)
    (h : ¬ (u.enc.fill ≤ a ∧ a < u.enc.fill + d.length)) :
    readByte free (fillBuffer d u).enc.buf a = readByte free u.enc.buf a := by
  rw [fillBuffer_buf, readByte, readCell_memWrite, if_neg h, readByte]

/-- Emptying the buffer after a block: all that `emitBuffer` can do, over what `EmitFrame` can do. -/
theorem emitBuffer_eq (u : EncSide) :
    emitBuffer u = (emitFrame (pendingBytes u.enc) (sha256 (pendingBytes u.enc)) u).bind
      fun _ v => .done () { v with enc := { v.enc with fill := 0 } } := rfl

/-- One pass of the write loop (R144). -/
theorem writeLoop_pass (passes : Nat) (b : Byte) (bs : Bytes) (u : EncSide) :
    writeLoop (passes + 1) (b :: bs) u =
      if u.enc.fill + passLength (b :: bs) u = u.enc.blockSize then
        (emitBuffer (fillBuffer ((b :: bs).take (passLength (b :: bs) u)) u)).bind
          fun _ v => writeLoop passes ((b :: bs).drop (passLength (b :: bs) u)) v
      else writeLoop passes ((b :: bs).drop (passLength (b :: bs) u))
        (fillBuffer ((b :: bs).take (passLength (b :: bs) u)) u) := by
  have hk : ((b :: bs).take (passLength (b :: bs) u)).length = passLength (b :: bs) u :=
    List.length_take_of_le (Nat.min_le_right _ _)
  conv_lhs => rw [writeLoop]
  simp only [fillBuffer_fill, fillBuffer_blockSize, hk]

@[simp] theorem writeLoop_nil (passes : Nat) (u : EncSide) : writeLoop passes [] u = .done () u := by
  cases passes <;> rfl

/-! ### Construction -/

@[simp] theorem constructEncoder_buf (p : Params) (cfg : U32) (e : Encoder) : (constructEncoder p cfg e).buf = e.buf := rfl
@[simp] theorem constructEncoder_fill (p : Params) (cfg : U32) (e : Encoder) : (constructEncoder p cfg e).fill = 0 := rfl
@[simp] theorem constructEncoder_nextIndex (p : Params) (cfg : U32) (e : Encoder) :
    (constructEncoder p cfg e).nextIndex = 0 := rfl
@[simp] theorem constructEncoder_closed (p : Params) (cfg : U32) (e : Encoder) :
    (constructEncoder p cfg e).closed = false := rfl
@[simp] theorem constructEncoder_err (p : Params) (cfg : U32) (e : Encoder) :
    (constructEncoder p cfg e).err = constructionError p := rfl
@[simp] theorem constructEncoder_waiting (p : Params) (cfg : U32) (e : Encoder) :
    (constructEncoder p cfg e).waiting = false := rfl
@[simp] theorem constructEncoder_blockSize (p : Params) (cfg : U32) (e : Encoder) :
    (constructEncoder p cfg e).blockSize = effectiveBlockSize p cfg := rfl

/-- With legal parameters the effective block size is in the range of R21. -/
theorem effectiveBlockSize_range {p : Params} (h : p.Legal) (cfg : U32) :
    1 ≤ effectiveBlockSize p cfg ∧ effectiveBlockSize p cfg ≤ 2 ^ 31 - 1 := by
  have hlt := BitVec.toInt_lt (x := cfg)
  unfold effectiveBlockSize asS32
  by_cases hc : 0 < cfg.toInt
  · rw [if_pos hc]; omega
  · rw [if_neg hc]; exact h.1

end Sys2Proof.Machine
end

