-- ==== Sys2Proof/Laws/PerInstr.lean ====
section
/-! SUPPORT. What holds of every command as syntax, one lemma per constructor: the first byte of its encoding is its
opcode, the opcode has a format, and the encoding is as long as that format says (spec/30_encoding.md R87 to R89). -/

namespace Sys2Proof.Laws.EncodingShape

open Sys2Proof Sys2Proof.Machine

/-- The encoding of a well-formed command has the shape its opcode's format gives. -/
def Statement (i : Instr) : Prop :=
  WellFormed i = true →
    (encode i).head? = some i.opcode ∧ (opcodeFormat i.opcode).isSome = true ∧
      commandLength i.opcode i.operandBytes = (encode i).length

theorem encInit (cfg : U32) : Statement (.encInit cfg) := fun _ => ⟨rfl, rfl, rfl⟩

/-- The length of a format D command (R88). -/
theorem formatD_length {op : Byte} {data : Bytes} (hf : opcodeFormat op = some .D) (h : data.length < 2 ^ 64) :
    commandLength op (Machine.le64Enc (BitVec.ofNat 64 data.length) ++ data) = 9 + data.length := by
  have ht : (Machine.le64Enc (BitVec.ofNat 64 data.length) ++ data).take 8 =
      Machine.le64Enc (BitVec.ofNat 64 data.length) := by
    rw [List.take_append_of_le_length (by rw [le64Enc_length]), List.take_of_length_le (by rw [le64Enc_length])]
  unfold commandLength
  rw [hf, ht, leDec_le64Enc, BitVec.toNat_ofNat, Nat.mod_eq_of_lt h]

theorem encWrite (data : Bytes) : Statement (.encWrite data) := fun h =>
  ⟨rfl, rfl, by
    rw [encode, Instr.opcode, Instr.operandBytes, formatD_length rfl (of_decide_eq_true h), List.length_cons,
      List.length_append, le64Enc_length]
    omega⟩

theorem encFlush : Statement .encFlush := fun _ => ⟨rfl, rfl, rfl⟩

theorem encClose : Statement .encClose := fun _ => ⟨rfl, rfl, rfl⟩

theorem decInit : Statement .decInit := fun _ => ⟨rfl, rfl, rfl⟩

theorem decRead (n : U32) : Statement (.decRead n) := fun _ => ⟨rfl, rfl, rfl⟩

theorem le32Enc (v : U32) : Statement (.le32Enc v) := fun _ => ⟨rfl, rfl, rfl⟩

theorem le32Dec (b0 b1 b2 b3 : Byte) : Statement (.le32Dec b0 b1 b2 b3) := fun _ => ⟨rfl, rfl, rfl⟩

theorem le64Enc (v : U64) : Statement (.le64Enc v) := fun _ => ⟨rfl, rfl, rfl⟩

theorem le64Dec (b0 b1 b2 b3 b4 b5 b6 b7 : Byte) : Statement (.le64Dec b0 b1 b2 b3 b4 b5 b6 b7) :=
  fun _ => ⟨rfl, rfl, rfl⟩

theorem u32ToU64 (c : U32) : Statement (.u32ToU64 c) := fun _ => ⟨rfl, rfl, rfl⟩

theorem u32FromU64 (v : U64) : Statement (.u32FromU64 v) := fun _ => ⟨rfl, rfl, rfl⟩

theorem u32FromByte (b : Byte) : Statement (.u32FromByte b) := fun _ => ⟨rfl, rfl, rfl⟩

theorem u32Eq (a b : U32) : Statement (.u32Eq a b) := fun _ => ⟨rfl, rfl, rfl⟩

theorem u32Cmp (a b : U32) : Statement (.u32Cmp a b) := fun _ => ⟨rfl, rfl, rfl⟩

theorem u32Hash (c : U32) : Statement (.u32Hash c) := fun _ => ⟨rfl, rfl, rfl⟩

theorem sha256 (data : Bytes) : Statement (.sha256 data) := fun h =>
  ⟨rfl, rfl, by
    rw [encode, Instr.opcode, Instr.operandBytes, formatD_length rfl (of_decide_eq_true h), List.length_cons,
      List.length_append, le64Enc_length]
    omega⟩

end Sys2Proof.Laws.EncodingShape
end

