-- ==== Sys2Proof/Laws/Pseudo.lean ====
section
/-! SUPPORT. How a program runs, one event at a time, and what reading to the end does (spec/30_encoding.md R93, R95). -/

namespace Sys2Proof.Machine

/-! ### Outcomes -/

@[simp] theorem andThen_next (t : State) (f : State → Host.Outcome State Fault Refusal) : andThen (.next t) f = f t := rfl
@[simp] theorem andThen_refused (r : Refusal) (f : State → Host.Outcome State Fault Refusal) :
    andThen (.refused r) f = .refused r := rfl

@[simp] theorem valueOf_next {α : Type} (f : State → α) (t : State) : valueOf f (.next t) = some (f t) := rfl
@[simp] theorem valueOf_refused {α : Type} (f : State → α) (r : Refusal) : valueOf f (.refused r) = none := rfl

/-! ### Programs -/

theorem runEvents_nil (s : State) : runEvents [] s = .next { s with events := [] } := rfl

/-- One step of a run that answers a next state. -/
theorem run_succ {M : Host.Core} {k : Nat} {s t : M.State} (h : M.step s = .next t) : M.run (k + 1) s = M.run k t := by
  simp only [Host.Core.run, h]

/-- The first event runs, then the others from the state it leaves. -/
theorem runEvents_cons {ev : HostEvent} {es : List HostEvent} {s t : State}
    (h : step { s with events := ev :: es } = .next t) (ht : t.events = es) :
    runEvents (ev :: es) s = runEvents es t := by
  subst ht
  exact run_succ (M := Sys2Proof.core) h

/-! ### Reading to the end -/

/-- The responses given by an operation that appends them. -/
theorem newResponses_append {s t : State} {rs : List Response} (h : t.responses = s.responses ++ rs) :
    newResponses s t = rs := by rw [newResponses, h, List.drop_left]

/-- A read that answers `OK` is followed by the next one. -/
theorem readUntilEnd_ok {k : Nat} {n : Nat → U32} {s t : State} {p : Payload}
    (h : runEvents [issue (.decRead (n 0))] s = .next t) (hr : t.responses = s.responses ++ [.ok p]) :
    readUntilEnd (k + 1) n s = readUntilEnd k (fun i => n (i + 1)) t := by
  rw [readUntilEnd, h, andThen_next, newResponses_append hr]
  rfl

/-- A read that answers anything else is the last. -/
theorem readUntilEnd_end {k : Nat} {n : Nat → U32} {s t : State} {r : Response}
    (h : runEvents [issue (.decRead (n 0))] s = .next t) (hr : t.responses = s.responses ++ [r]) (hk : r.isOk = false) :
    readUntilEnd (k + 1) n s = .next t := by
  rw [readUntilEnd, h, andThen_next, newResponses_append hr]
  simp [hk]

/-- The value of a `DECODE` whose run gives the responses `rs`, then `r`. -/
theorem decodeValue_of_run {n : Nat → U32} {stream : Bytes} {s t : State} {rs : List Response} {r : Response}
    (h : decodeRun n stream s = .next t) (hr : t.responses = s.responses ++ (rs ++ [r])) :
    decodeValue n stream s = some (delivered (rs ++ [r]), r) := by
  rw [decodeValue, h, valueOf_next, newResponses_append hr]
  simp

end Sys2Proof.Machine
end

