-- ==== Sys2Proof/Machine/Text.lean ====
section
/-! DEFINITION. The textual syntax of commands and responses (spec/30_encoding.md R93). It prints; nothing reads it. -/

namespace Sys2Proof.Machine

/-- One hexadecimal digit. -/
def hexDigit (n : Nat) : Char := "0123456789ABCDEF".toList.getD n '0'

/-- The two hexadecimal digits of a byte. -/
def hexByte (b : Byte) : String := String.ofList [hexDigit (b.toNat / 16), hexDigit (b.toNat % 16)]

/-- A byte sequence in hexadecimal, first byte first (R15, R93). -/
def hexBytes (b : Bytes) : String := " ".intercalate (b.map hexByte)

/-- A number of `n` bytes in hexadecimal (R14). -/
def hexNumber (b : Bytes) : String := "0x" ++ String.join (b.reverse.map hexByte)

/-- A command as its mnemonic followed by its operands (R93). -/
def instrText : Instr → String
  | .encInit cfg => "ENC.INIT " ++ toString (asS32 cfg)
  | .encWrite data => "ENC.WRITE " ++ hexBytes data
  | .encFlush => "ENC.FLUSH"
  | .encClose => "ENC.CLOSE"
  | .decInit => "DEC.INIT"
  | .decRead n => "DEC.READ " ++ toString n.toNat
  | .le32Enc v => "LE32.ENC " ++ hexNumber (le32Enc v)
  | .le32Dec b0 b1 b2 b3 => "LE32.DEC " ++ hexBytes [b0, b1, b2, b3]
  | .le64Enc v => "LE64.ENC " ++ hexNumber (le64Enc v)
  | .le64Dec b0 b1 b2 b3 b4 b5 b6 b7 => "LE64.DEC " ++ hexBytes [b0, b1, b2, b3, b4, b5, b6, b7]
  | .u32ToU64 c => "U32.TOU64 " ++ hexNumber (le32Enc c)
  | .u32FromU64 v => "U32.FROMU64 " ++ hexNumber (le64Enc v)
  | .u32FromByte b => "U32.FROMBYTE " ++ hexNumber [b]
  | .u32Eq a b => "U32.EQ " ++ hexNumber (le32Enc a) ++ ", " ++ hexNumber (le32Enc b)
  | .u32Cmp a b => "U32.CMP " ++ hexNumber (le32Enc a) ++ ", " ++ hexNumber (le32Enc b)
  | .u32Hash c => "U32.HASH " ++ hexNumber (le32Enc c)
  | .sha256 data => "SHA256 " ++ hexBytes data

/-- The name of an error kind (R200). -/
def ErrKind.text : ErrKind → String
  | .configurationError => "ConfigurationError"
  | .malformedFrame => "MalformedFrame"
  | .integrityViolation => "IntegrityViolation"
  | .ioFailure => "IOFailure"
  | .rangeError => "RangeError"

/-- A response as it is written (R93). -/
def responseText : Response → String
  | .ok .empty => "-> OK"
  | .ok p => "-> OK " ++ hexBytes p.encode
  | .eos => "-> EOS"
  | .error e => "-> " ++ e.kind.text ++ "(" ++ toString e.cause.toNat ++ ")"
  | .illegalCommand => "-> IllegalCommand"

end Sys2Proof.Machine
end

