-- ==== Sys2Proof/Tests/Slice0.lean ====
section
/-! SUPPORT. Our own tests: ill-formed commands refused, each command's decoding, the vectors of
spec/95_test_vectors.md one step at a time, and for every statement of Certificates/Slice0/Obligations.lean that has
hypotheses a witness that meets them together. -/

namespace Sys2Proof.Tests

open Sys2Proof Sys2Proof.Machine

/-! ### Small states -/

/-- Parameters: `CFG_BLOCKSIZE = 4`, `DEFAULT_BLOCK_SIZE = 16`, `MAX_BLOCK_LEN = 16`, the digest engine present. -/
def pars : Params := { cfgBlockSize := 4, defaultBlockSize := 16, maxBlockLen := 16, sha256Available := true }

/-- The machine after power-on reset. -/
def s0 : State := State.powerOn pars

/-- The same without the digest engine. -/
def sNoSha : State := State.powerOn { pars with sha256Available := false }

/-- After `ENC.WRITE "ab"`, with two bytes left of a decoded block `"wxyz"`. -/
def sMid : State :=
  { s0 with
    enc := { s0.enc with buf := [(0, 0x61), (1, 0x62)], fill := 2 }
    dec := { s0.dec with
      expectedIndex := 1, res := [(0, 0x77), (1, 0x78), (2, 0x79), (3, 0x7A)], resLen := 4, resPos := 2 } }

/-- A closed encoder and a terminated decoder. -/
def sEnded : State :=
  { s0 with enc := { s0.enc with nextIndex := 1, closed := true }, dec := { s0.dec with term := true } }

/-- A failed encoder and a failed decoder. -/
def sFailed : State :=
  { s0 with enc := { s0.enc with err := some ⟨.ioFailure, 1⟩ }, dec := { s0.dec with err := some ⟨.malformedFrame, 4⟩ } }

/-- Both units blocked on a call that never answers. -/
def sWaiting : State := { s0 with enc := { s0.enc with waiting := true }, dec := { s0.dec with waiting := true } }

/-- An encoder with the index `n` next. -/
def sIndex (n : Nat) (s : State) : State := { s with enc := { s.enc with nextIndex := n } }

/-- A decoder that expects the index `n`. -/
def sExpects (n : Nat) (s : State) : State := { s with dec := { s.dec with expectedIndex := n } }

/-- A sink with these answers to come. -/
def sSink (l : List SinkAnswer) (s : State) : State := { s with sink := { s.sink with answers := l } }

/-- A source over these bytes, with these answers to come. -/
def sSource (b : Bytes) (l : List SourceAnswer) (s : State) : State :=
  { s with source := { Source.memory b with answers := l } }

/-- The host's next event. -/
def sEvent (ev : HostEvent) (s : State) : State := { s with events := [ev] }

/-- The next state of an outcome. -/
def nextOf : Host.Outcome State Fault Refusal → Option State
  | .next t => some t
  | .fault _ => none
  | .refused _ => none

/-- The responses after one command. -/
def answers (i : Instr) (s : State) : Option (List Response) := (nextOf (exec i s)).map (·.responses)

/-- SHA-256 of `"abcd"`, vector H5. -/
def digestAbcd : Bytes :=
  [0x88, 0xd4, 0x26, 0x6f, 0xd4, 0xe6, 0x33, 0x8d, 0x13, 0xb8, 0x45, 0xfc, 0xf2, 0x89, 0x57, 0x9d] ++
  [0x20, 0x9c, 0x89, 0x78, 0x23, 0xb9, 0x21, 0x7d, 0xa3, 0xe1, 0x61, 0x93, 0x6f, 0x03, 0x15, 0x89]

/-- The bytes of `"abcd"`. -/
def abcd : Bytes := [0x61, 0x62, 0x63, 0x64]

/-- Frame 0 of S4, written out. -/
def frame0 : Bytes := [0x00, 0x00, 0x00, 0x00] ++ digestAbcd ++ [0x04, 0x00, 0x00, 0x00] ++ abcd

/-- S3: the terminal frame with index 0. -/
def terminal0 : Bytes := List.replicate 40 0x00

/-! ### Well-formedness and decoding -/

theorem test_wellFormed_refuses_zero_count : WellFormed (.decRead 0) = false := by decide

theorem test_wellFormed_refuses_long_write (data : Bytes) (h : data.length = 2 ^ 64) :
    WellFormed (.encWrite data) = false := by simp [WellFormed, WellFormedData, h]

theorem test_wellFormed_refuses_long_message (data : Bytes) (h : data.length = 2 ^ 64) :
    WellFormed (.sha256 data) = false := by simp [WellFormed, WellFormedData, h]

theorem test_wellFormed_accepts :
    WellFormed (.decRead 1) = true ∧ WellFormed (.encWrite []) = true ∧ WellFormed (.sha256 [0x00]) = true := by decide

/-! Words from 95_test_vectors.md part 3 and from the layouts of 30_encoding.md R88, R89. -/

theorem test_decode_encInit : decode [0x10, 0x04, 0x00, 0x00, 0x00] = .ok (.encInit 4) := by decide
theorem test_decode_encWrite :
    decode [0x11, 0x02, 0x00, 0x00, 0x00, 0x00, 0x00, 0x00, 0x00, 0x7a, 0x7a] = .ok (.encWrite [0x7a, 0x7a]) := by decide
theorem test_decode_encFlush : decode [0x12] = .ok .encFlush := by decide
theorem test_decode_encClose : decode [0x13] = .ok .encClose := by decide
theorem test_decode_decInit : decode [0x20] = .ok .decInit := by decide
theorem test_decode_decRead : decode [0x21, 0x64, 0x00, 0x00, 0x00] = .ok (.decRead 100) := by decide
theorem test_decode_le32Enc : decode [0x30, 0x78, 0x56, 0x34, 0x12] = .ok (.le32Enc 0x12345678) := by decide
theorem test_decode_le32Dec : decode [0x31, 0x78, 0x56, 0x34, 0x12] = .ok (.le32Dec 0x78 0x56 0x34 0x12) := by decide
theorem test_decode_le64Enc :
    decode [0x32, 0x08, 0x07, 0x06, 0x05, 0x04, 0x03, 0x02, 0x01] = .ok (.le64Enc 0x0102030405060708) := by decide
theorem test_decode_le64Dec :
    decode [0x33, 0x08, 0x07, 0x06, 0x05, 0x04, 0x03, 0x02, 0x01] = .ok (.le64Dec 8 7 6 5 4 3 2 1) := by decide
theorem test_decode_u32ToU64 : decode [0x34, 0xFF, 0x00, 0x00, 0x80] = .ok (.u32ToU64 0x800000FF) := by decide
theorem test_decode_u32FromU64 :
    decode [0x35, 0x00, 0x00, 0x00, 0x00, 0x01, 0x00, 0x00, 0x00] = .ok (.u32FromU64 4294967296) := by decide
theorem test_decode_u32FromByte : decode [0x36, 0xFF] = .ok (.u32FromByte 0xFF) := by decide
theorem test_decode_u32Eq :
    decode [0x37, 0x01, 0x00, 0x00, 0x00, 0x00, 0x01, 0x00, 0x00] = .ok (.u32Eq 0x00000001 0x00000100) := by decide
theorem test_decode_u32Cmp :
    decode [0x38, 0x01, 0x00, 0x00, 0x00, 0xFF, 0xFF, 0xFF, 0x7F] = .ok (.u32Cmp 0x00000001 0x7FFFFFFF) := by decide
theorem test_decode_u32Hash : decode [0x39, 0xEF, 0xBE, 0xAD, 0xDE] = .ok (.u32Hash 0xDEADBEEF) := by decide
theorem test_decode_sha256 :
    decode [0x3A, 0x03, 0x00, 0x00, 0x00, 0x00, 0x00, 0x00, 0x00, 0x61, 0x62, 0x63] = .ok (.sha256 [0x61, 0x62, 0x63]) := by
  decide

theorem test_decode_refuses :
    decode [] = .error .noOpcode ∧ decode [0x00] = .error (.unknownOpcode 0x00) ∧
    decode [0x12, 0x00] = .error (.badLength 0x12) ∧ decode [0x36] = .error (.badLength 0x36) ∧
    decode [0x11, 0x02, 0, 0, 0, 0, 0, 0, 0, 0x61] = .error (.badLength 0x11) ∧
    decode [0x11, 0, 0, 0, 0, 0, 0, 0] = .error (.badLength 0x11) ∧
    decode [0x37, 1, 0, 0, 0, 1, 0, 0] = .error (.badLength 0x37) := by decide

/-! ### The vectors of 95_test_vectors.md parts 1 and 2, one step each -/

/-- E9, E10: a configured size that is not positive selects the default. -/
theorem test_encInit_default :
    (nextOf (exec (.encInit 0xFFFFFFFF) s0)).map (fun t => (t.enc.blockSize, t.responses)) = some (16, [.ok .empty]) := by
  decide

/-- E16: without the digest engine. -/
theorem test_encInit_unavailable :
    (nextOf (exec (.encInit 4) sNoSha)).map (fun t => (t.enc.err, t.responses.map Response.encode)) =
      some (some ⟨.configurationError, 0⟩, [[0x81, 0x00]]) := by decide

/-- E12: the frame leaves as soon as the buffer is full. -/
theorem test_encWrite_full_block :
    (nextOf (exec (.encWrite abcd) s0)).map (fun t => (t.sink.data, t.enc.fill, t.enc.nextIndex)) =
      some (frame0, 0, 1) := by decide +kernel

/-- E14: a write after close. -/
theorem test_encWrite_closed :
    (nextOf (exec (.encWrite [0x61]) sEnded)).map (fun t => (t.enc, t.responses)) =
      some (sEnded.enc, [.error ⟨.ioFailure, 5⟩]) := by decide

/-- E11: a flush emits nothing. -/
theorem test_encFlush_forwards :
    (nextOf (exec .encFlush sMid)).map (fun t => (t.sink.data, t.sink.flushes, t.enc.fill, t.responses)) =
      some ([], 1, 2, [.ok .empty]) := by decide

/-- S3, S6: close at once. -/
theorem test_encClose_empty :
    (nextOf (exec .encClose s0)).map (fun t => (t.sink.data, t.sink.isOpen, t.enc.nextIndex, t.enc.closed)) =
      some (terminal0, false, 1, true) := by decide +kernel

/-- E18: the last index. -/
theorem test_encClose_last_index :
    (nextOf (exec .encClose (sIndex (2 ^ 32 - 1) s0))).map (fun t => (t.sink.data.take 5, t.sink.data.length, t.enc.nextIndex)) =
      some ([0xFF, 0xFF, 0xFF, 0xFF, 0x00], 40, 2 ^ 32) := by decide +kernel

/-- P3 line 5: construction clears a latched error. -/
theorem test_decInit_clears :
    (nextOf (exec .decInit sFailed)).map (fun t => (t.dec.err, t.responses)) = some (none, [.ok .empty]) := by decide

/-- D3, first read. -/
theorem test_decRead_part_of_block :
    (nextOf (exec (.decRead 3) (sSource frame0 [] s0))).map
      (fun t => (t.responses.map Response.encode, t.dec.expectedIndex, t.dec.resLen, t.dec.resPos, t.source.pos)) =
      some ([[0x00, 0x03, 0x00, 0x00, 0x00, 0x61, 0x62, 0x63]], 1, 4, 3, 44) := by decide +kernel

/-- D1: the value of `DECODE` over E1. -/
theorem test_decodeValue_empty_stream : decodeValue (fun _ => 1) terminal0 s0 = some ([], .eos) := by decide +kernel

/-- T13, with one frame: a stream cut before its terminal frame. -/
theorem test_decodeValue_cut : decodeValue (fun _ => 3) frame0 s0 = some (abcd, .error ⟨.malformedFrame, 4⟩) := by
  decide +kernel

/-- E2, S4: the value of `ENCODE`. -/
theorem test_encodeValue_one_block :
    encodeValue 4 abcd s0 = some (frame0 ++ [0x01, 0x00, 0x00, 0x00] ++ List.replicate 36 0x00) := by decide +kernel

/-- T1: a changed payload byte. -/
theorem test_decRead_changed_payload :
    (nextOf (exec (.decRead 100) (sSource (frame0.set 40 0x62) [] s0))).map
      (fun t => (t.responses.map Response.encode, t.dec.err, t.dec.expectedIndex, t.source.pos)) =
      some ([[0x83, 0x00]], some ⟨.integrityViolation, 0⟩, 0, 44) := by decide +kernel

/-- L3, L4. -/
theorem test_le32Enc : answers (.le32Enc 0x12345678) s0 = some [.ok (.bytes [0x78, 0x56, 0x34, 0x12])] := by decide
theorem test_le32Enc_top : answers (.le32Enc 0x80000000) s0 = some [.ok (.bytes [0x00, 0x00, 0x00, 0x80])] := by decide

/-- L7, L8. -/
theorem test_le32Dec_unsigned : answers (.le32Dec 0xFF 0xFF 0xFF 0xFF) s0 = some [.ok (.word 4294967295)] := by decide
theorem test_le32Dec_order : answers (.le32Dec 0x00 0x01 0x00 0x00) s0 = some [.ok (.word 256)] := by decide

/-- L9. -/
theorem test_le64Enc : answers (.le64Enc 0x0102030405060708) s0 = some [.ok (.bytes [8, 7, 6, 5, 4, 3, 2, 1])] := by decide

/-- L12. -/
theorem test_le64Dec : answers (.le64Dec 8 7 6 5 4 3 2 1) s0 = some [.ok (.quad 0x0102030405060708)] := by decide

/-- U3, U4. -/
theorem test_u32ToU64_top : answers (.u32ToU64 0x80000000) s0 = some [.ok (.quad 2147483648)] := by decide
theorem test_u32ToU64_all : answers (.u32ToU64 0xFFFFFFFF) s0 = some [.ok (.quad 4294967295)] := by decide

/-- U5, U7. -/
theorem test_u32FromU64_max : answers (.u32FromU64 0x00000000FFFFFFFF) s0 = some [.ok (.word 0xFFFFFFFF)] := by decide
theorem test_u32FromU64_range : answers (.u32FromU64 0x0000000100000000) s0 = some [.error ⟨.rangeError, 0⟩] := by decide

/-- U14. -/
theorem test_u32FromByte : answers (.u32FromByte 0xFF) s0 = some [.ok (.word 0x000000FF)] := by decide

/-- U15, U16. -/
theorem test_u32Eq_same : answers (.u32Eq 0x80000000 0x80000000) s0 = some [.ok (.byte 1)] := by decide
theorem test_u32Eq_differs : answers (.u32Eq 0x00000001 0x00000100) s0 = some [.ok (.byte 0)] := by decide

/-- U17, U18. -/
theorem test_u32Cmp_less : answers (.u32Cmp 0x00000001 0xFFFFFFFF) s0 = some [.ok (.byte 0xFF)] := by decide
theorem test_u32Cmp_greater : answers (.u32Cmp 0x80000000 0x7FFFFFFF) s0 = some [.ok (.byte 0x01)] := by decide

/-- U20. -/
theorem test_u32Hash : answers (.u32Hash 0xDEADBEEF) s0 = some [.ok (.word 0xDEADBEEF)] := by decide

/-- H5. -/
theorem test_sha256_abcd : answers (.sha256 abcd) s0 = some [.ok (.bytes digestAbcd)] := by decide +kernel

/-- R139. -/
theorem test_sha256_unavailable : answers (.sha256 abcd) sNoSha = some [.error ⟨.configurationError, 0⟩] := by decide

/-- S12, R81: the digest of the empty message, H1, is not the terminal digest. -/
theorem test_sha256_empty_not_zero : sha256 [] ≠ List.replicate 32 0x00 := by decide +kernel

/-! ### Witnesses: the invariant -/

/-- A machine in use meets the invariant. -/
theorem witness_sMid_inv : sMid.Inv where
  params := by decide
  enc :=
    { wf := by decide
      blockSize_range := by decide
      fill_le := by decide
      written := by unfold Written; decide
      nextIndex_le := by decide
      open_fill := by decide
      closed_fill := by decide
      closed_err := by decide
      err_legal := nofun
      unavailable := by decide
      waiting_open := by decide }
  dec :=
    { wf := by decide
      capacity := by decide
      expectedIndex_le := by decide
      residual_range := by decide
      written := by unfold Written; decide
      term_empty := by decide
      err_empty := by decide
      term_err := by decide
      err_legal := nofun
      unavailable := by decide
      waiting_active := by decide }

/-- An ended machine meets it. -/
theorem witness_sEnded_inv : sEnded.Inv where
  params := by decide
  enc :=
    { wf := by decide
      blockSize_range := by decide
      fill_le := by decide
      written := by unfold Written; decide
      nextIndex_le := by decide
      open_fill := by decide
      closed_fill := by decide
      closed_err := by decide
      err_legal := nofun
      unavailable := by decide
      waiting_open := by decide }
  dec :=
    { wf := by decide
      capacity := by decide
      expectedIndex_le := by decide
      residual_range := by decide
      written := by unfold Written; decide
      term_empty := by decide
      err_empty := by decide
      term_err := by decide
      err_legal := nofun
      unavailable := by decide
      waiting_active := by decide }

/-- A failed machine meets it. -/
theorem witness_sFailed_inv : sFailed.Inv where
  params := by decide
  enc :=
    { wf := by decide
      blockSize_range := by decide
      fill_le := by decide
      written := by unfold Written; decide
      nextIndex_le := by decide
      open_fill := by decide
      closed_fill := by decide
      closed_err := by decide
      err_legal := fun x h => by cases h; decide
      unavailable := by decide
      waiting_open := by decide }
  dec :=
    { wf := by decide
      capacity := by decide
      expectedIndex_le := by decide
      residual_range := by decide
      written := by unfold Written; decide
      term_empty := by decide
      err_empty := by decide
      term_err := by decide
      err_legal := fun x h => by cases h; decide
      unavailable := by decide
      waiting_active := by decide }

/-- An encoder at the end of its indices and a fresh decoder meet it. -/
theorem witness_s0_inv : (sIndex (2 ^ 32) s0).Inv where
  params := by decide
  enc :=
    { wf := by decide
      blockSize_range := by decide
      fill_le := by decide
      written := by unfold Written; decide
      nextIndex_le := by decide
      open_fill := by decide
      closed_fill := by decide
      closed_err := by decide
      err_legal := nofun
      unavailable := by decide
      waiting_open := by decide }
  dec :=
    { wf := by decide
      capacity := by decide
      expectedIndex_le := by decide
      residual_range := by decide
      written := by unfold Written; decide
      term_empty := by decide
      err_empty := by decide
      term_err := by decide
      err_legal := nofun
      unavailable := by decide
      waiting_active := by decide }

/-- The invariant is about the units' registers alone. -/
theorem inv_of_registers {s t : State} (h : s.Inv) (hp : t.params = s.params) (he : t.enc = s.enc) (hd : t.dec = s.dec) :
    t.Inv := ⟨hp ▸ h.params, hp ▸ he ▸ h.enc, hp ▸ hd ▸ h.dec⟩

/-! ### Witnesses: the encoding -/

theorem witness_CommandEncodingRoundTrip :
    WellFormed (.decRead 0xFFFFFFFF) = true ∧ WellFormed (.decRead 1) = true ∧ WellFormed (.encWrite []) = true ∧
      WellFormed (.sha256 abcd) = true ∧ WellFormed (.u32Cmp 0xFFFFFFFF 0) = true := by decide +kernel

theorem witness_DecodedTransactionIsTheEncoding :
    decode [0x11, 0x02, 0, 0, 0, 0, 0, 0, 0, 0x7A, 0x7B] = .ok (.encWrite [0x7A, 0x7B]) := by decide +kernel

/-- `DEC.READ 0` and the empty transaction, each as the next event. -/
theorem witness_IllegalTransactionsAreRefused :
    ((sEvent (.command [0x21, 0, 0, 0, 0]) sMid).events = [.command [0x21, 0, 0, 0, 0]] ∧
      ¬ LegalTransaction [0x21, 0, 0, 0, 0]) ∧
    ((sEvent (.command []) sWaiting).events = [.command []] ∧ ¬ LegalTransaction []) :=
  ⟨⟨rfl, by simp [LegalTransaction]⟩, rfl, by simp [LegalTransaction]⟩

/-- The edges of the legal operands: a count one too high, a stray byte, and each form at its least. -/
theorem witness_LegalOperands :
    ¬ LegalOperands 0x11 [0x02, 0, 0, 0, 0, 0, 0, 0, 0x61] ∧ ¬ LegalOperands 0x14 [] ∧ ¬ LegalOperands 0x12 [0] ∧
    LegalOperands 0x21 [1, 0, 0, 0] ∧ LegalOperands 0x21 [0, 0, 0, 0x80] ∧ LegalOperands 0x12 [] ∧
    LegalOperands 0x3A [0, 0, 0, 0, 0, 0, 0, 0] ∧ LegalOperands 0x11 [0x01, 0, 0, 0, 0, 0, 0, 0, 0x61] :=
  ⟨by decide, by decide, by decide, by decide, by decide, by decide, by decide, by decide⟩

theorem witness_LegalTransaction : LegalTransaction [0x21, 1, 0, 0, 0] ∧ LegalTransaction [0x12] :=
  ⟨⟨0x21, rfl, by decide⟩, ⟨0x12, rfl, by decide⟩⟩

/-- A read that asks for less than the block holds, and one that asks for all there can be. -/
theorem witness_ResponsesCarryStatusAndPayload :
    (∃ t, exec (.decRead 1) sMid = .next t ∧ t.responses = sMid.responses ++ [.ok (.chunk 1 [0x79])]) ∧
    (∃ t, exec (.decRead 0xFFFFFFFF) sMid = .next t ∧ t.responses = sMid.responses ++ [.ok (.chunk 2 [0x79, 0x7A])]) :=
  ⟨⟨_, rfl, by decide⟩, ⟨_, rfl, by decide⟩⟩

/-! ### Witnesses: the step -/

theorem witness_StepRunsTheDecodedCommand :
    (sEvent (.command [0x36, 0xFF]) sMid).events = [.command [0x36, 0xFF]] ∧
      decode [0x36, 0xFF] = .ok (.u32FromByte 0xFF) := by decide +kernel

theorem witness_OtherHostEvents :
    s0.events = [] ∧ (sEvent (.attachSink .memory) sMid).events = [.attachSink .memory] ∧
      (sEvent (.attachSource (.memory abcd)) sMid).events = [.attachSource (.memory abcd)] := by decide +kernel

theorem witness_PowerOnResetConstructsBothUnits :
    (sEvent .powerOnReset sMid).events = [.powerOnReset] ∧ (sEvent .powerOnReset sWaiting).events = [.powerOnReset] := by
  decide +kernel

theorem witness_InvariantHoldsAfterReset :
    Params.Legal { pars with defaultBlockSize := 1, maxBlockLen := 2 ^ 31 - 1 } ∧
      Params.Legal { pars with defaultBlockSize := 2 ^ 31 - 1, maxBlockLen := 1, sha256Available := false } := by decide +kernel

/-- From a state in use, by an event that changes both units. -/
theorem witness_EveryStepKeepsTheInvariant :
    (sEvent .powerOnReset sMid).Inv ∧ ∃ t, step (sEvent .powerOnReset sMid) = .next t ∧ t.enc.fill = 0 :=
  ⟨inv_of_registers witness_sMid_inv rfl rfl rfl, _, rfl, by decide⟩

theorem witness_StepsCompleteUnlessTheUnitWaits : s0.Idle ∧ sMid.Idle ∧ sFailed.Idle := by decide +kernel

/-- With a response, and without one because the encoder, or the decoder, waits. -/
theorem witness_OneResponseOrNone :
    (∃ t, exec .encFlush sMid = .next t ∧ t.responses = [.ok .empty]) ∧
    (∃ t, exec .encFlush (sSink [.never] sMid) = .next t ∧ t.responses = [] ∧ t.enc.waiting = true) ∧
    (∃ t, exec (.decRead 1) (sSource [] [.never] s0) = .next t ∧ t.responses = [] ∧ t.dec.waiting = true) :=
  ⟨⟨_, rfl, by decide⟩, ⟨_, rfl, by decide⟩, ⟨_, rfl, by decide⟩⟩

theorem witness_AnsweredCallsGiveAnAnsweredCommand :
    (sSink [.ok, .fail] (sSource abcd [.fail] sMid)).Inv ∧
    (∀ a ∈ (sSink [.ok, .fail] (sSource abcd [.fail] sMid)).sink.answers, a ≠ .never) ∧
    (∀ a ∈ (sSink [.ok, .fail] (sSource abcd [.fail] sMid)).source.answers, a ≠ .never) ∧
    ∃ t, exec .encClose (sSink [.ok, .fail] (sSource abcd [.fail] sMid)) = .next t :=
  ⟨inv_of_registers witness_sMid_inv rfl rfl rfl, by decide, by decide, _, rfl⟩

theorem witness_UnansweredCallBlocksItsUnit :
    ((sSink [.never] sMid).enc.Ready ∧ (sSink [.never] sMid).sink.answers = [.never]) ∧
    ((1 : U32) ≠ 0 ∧ (sSource [] [.never, .serve] s0).dec.AtFrame ∧
      (sSource [] [.never, .serve] s0).source.answers = .never :: [.serve]) ∧
    (commandUnit (.encInit 4) = some .enc ∧ sWaiting.enc.waiting = true) ∧
    (commandUnit .decInit = some .dec ∧ Instr.decInit ≠ .decRead 0 ∧ sWaiting.dec.waiting = true) := by decide +kernel

/-- An `ENC.WRITE` of one block: its first write, and its last under the last index. -/
theorem witness_UnansweredCallBlocksItsUnit_write :
    ((sSink [.never] sMid).enc.Ready ∧ sMid.enc.fill < sMid.enc.blockSize ∧
      0 < 4 * ((sMid.enc.fill + abcd.length) / sMid.enc.blockSize) ∧ sMid.enc.nextIndex + 0 / 4 < 2 ^ 32 ∧
      (sSink [.never] sMid).sink.AnswersAfter 0 .never []) ∧
    ((sIndex (2 ^ 32 - 1) sMid).enc.Ready ∧ 3 < 4 * ((sMid.enc.fill + abcd.length) / sMid.enc.blockSize) ∧
      (sIndex (2 ^ 32 - 1) sMid).enc.nextIndex + 3 / 4 < 2 ^ 32 ∧
      (sSink [.ok, .ok, .ok, .never] sMid).sink.AnswersAfter 3 .never []) := by decide +kernel

/-- `ENC.CLOSE` with bytes left: its first write, its last write, the flush and the close. -/
theorem witness_UnansweredCallBlocksItsUnit_close :
    (sMid.enc.Ready ∧ 0 < (closeWrites sMid.enc).length ∧ (closeRegisters sMid.enc 0).nextIndex < 2 ^ 32 ∧
      (sSink [.never] sMid).sink.AnswersAfter 0 .never []) ∧
    (6 < (closeWrites sMid.enc).length ∧ (closeRegisters sMid.enc 6).nextIndex < 2 ^ 32 ∧
      (sSink [.ok, .ok, .ok, .ok, .ok, .ok, .never] sMid).sink.AnswersAfter 6 .never []) ∧
    (sMid.enc.nextIndex + sMid.enc.lastBlocks < 2 ^ 32 ∧
      (sSink [.ok, .ok, .ok, .ok, .ok, .ok, .ok, .never] sMid).sink.AnswersAfter (closeWrites sMid.enc).length .never []) ∧
    (sSink [.ok, .ok, .ok, .ok, .ok, .ok, .ok, .ok, .never] sMid).sink.AnswersAfter
      ((closeWrites sMid.enc).length + 1) .never [] := by
  refine ⟨⟨?_, ?_, ?_, ?_⟩, ⟨?_, ?_, ?_⟩, ⟨?_, ?_⟩, ?_⟩ <;> decide +kernel

/-- The payload of a data frame, and the length field of a terminal frame. -/
theorem witness_UnansweredCallBlocksItsUnit_read :
    ((1 : U32) ≠ 0 ∧ s0.params.Legal ∧ s0.dec.AtFrame ∧ s0.dec.expectedIndex < 2 ^ 32) ∧
    (frame0 = dataFrame s0.dec.expectedIndex abcd ∧ 1 ≤ abcd.length ∧ abcd.length ≤ s0.params.maxBlockLen ∧
      (sSource frame0 [.serve, .serve, .serve, .never] s0).source.Holds frame0 ∧
      (sSource frame0 [.serve, .serve, .serve, .never] s0).source.AnswersAfter 3 .never []) ∧
    (terminal0 = terminalFrame s0.dec.expectedIndex ∧
      (sSource terminal0 [.serve, .serve, .never] s0).source.Holds terminal0 ∧
      (sSource terminal0 [.serve, .serve, .never] s0).source.AnswersAfter 2 .never []) := by
  decide +kernel

/-! ### Witnesses: the primitive operations -/

theorem witness_Le32DecAnswersTheUnsignedValue :
    (abcd.take 3).length ≠ 4 ∧ (abcd ++ [0x00#8]).length ≠ 4 := by decide +kernel

theorem witness_Le64EncAnswersTheBytes : 0 < 8 ∧ 7 < 8 := by decide +kernel

theorem witness_U32FromU64RaisesRangeErrorAbove32Bits :
    (0xFFFFFFFF#64).toNat ≤ 2 ^ 32 - 1 ∧ 2 ^ 32 - 1 < (0x100000000#64).toNat := by decide +kernel

theorem witness_PrimitiveFunctionLaws :
    abcd.length = 4 ∧ (abcd ++ abcd).length = 8 ∧ (0xFFFFFFFF#64).toNat ≤ 2 ^ 32 - 1 := by decide +kernel

/-- The longest message of one padded block, and the lengths of two. -/
theorem witness_Sha256PaddingIsMinimal :
    (List.replicate 55 0x61#8).length < 2 ^ 61 ∧ (List.replicate 55 0x61#8).length ≤ 55 ∧
      56 ≤ (List.replicate 56 0x61#8).length ∧ (List.replicate 119 0x61#8).length ≤ 119 := by
  simp only [List.length_replicate]; decide

theorem witness_Sha256CommandAnswers :
    (s0.params.sha256Available = true ∧ abcd.length < 2 ^ 61) ∧
    (s0.params.sha256Available = true ∧ (List.replicate (2 ^ 61) 0x00#8).length = 2 ^ 61) ∧
    sNoSha.params.sha256Available = false :=
  ⟨by decide, ⟨by decide, List.length_replicate⟩, by decide⟩

/-! ### Witnesses: the encoder -/

theorem witness_EncInitConstructs :
    sFailed.enc.waiting = false ∧ sNoSha.enc.waiting = false ∧ 0 < (0x7FFFFFFF#32).toInt ∧ ¬ 0 < (0x80000000#32).toInt := by
  decide +kernel

theorem witness_FailedUnitsReRaise :
    (sFailed.enc.waiting = false ∧ sFailed.enc.err = some ⟨.ioFailure, 1⟩ ∧ commandUnit .encClose = some .enc ∧
      ∀ cfg, Instr.encClose ≠ .encInit cfg) ∧
    (sFailed.dec.waiting = false ∧ sFailed.dec.err = some ⟨.malformedFrame, 4⟩ ∧ commandUnit (.decRead 1) = some .dec ∧
      Instr.decRead 1 ≠ .decInit ∧ WellFormed (.decRead 1) = true) :=
  ⟨⟨by decide, by decide, by decide, nofun⟩, by decide⟩

theorem witness_ClosedEncoderAnswersIOFailure :
    sEnded.enc.waiting = false ∧ sEnded.enc.err = none ∧ sEnded.enc.closed = true ∧ commandUnit (.encWrite []) = some .enc ∧
      ∀ cfg, Instr.encWrite [] ≠ .encInit cfg :=
  ⟨by decide, by decide, by decide, by decide, nofun⟩

theorem witness_EncFlushForwardsToTheSink :
    (sMid.enc.Ready ∧ sMid.sink.answer = .ok) ∧
      ((sSink [.fail] sMid).enc.Ready ∧ (sSink [.fail] sMid).sink.answer = .fail) ∧
      (sFailed.enc.waiting = false ∧ sFailed.enc.err = some ⟨.ioFailure, 1⟩) ∧
      (sEnded.enc.waiting = false ∧ sEnded.enc.err = none ∧ sEnded.enc.closed = true) := by decide +kernel

/-- One byte less than fills the buffer, and no byte. -/
theorem witness_EncWriteShortFillsTheBuffer :
    (sMid.enc.Ready ∧ sMid.enc.fill + [0x63#8].length < sMid.enc.blockSize) ∧
      (sMid.enc.Ready ∧ sMid.enc.fill + ([] : Bytes).length < sMid.enc.blockSize) := by decide +kernel

/-- With the last index used up by the write. -/
theorem witness_EncWriteEmitsEveryFullBlock :
    (sIndex (2 ^ 32 - 1) sMid).enc.Ready ∧ (sIndex (2 ^ 32 - 1) sMid).enc.fill < (sIndex (2 ^ 32 - 1) sMid).enc.blockSize ∧
      (sIndex (2 ^ 32 - 1) sMid).sink.Reliable ∧
      (sIndex (2 ^ 32 - 1) sMid).enc.nextIndex +
        ((sIndex (2 ^ 32 - 1) sMid).enc.fill + abcd.length) / (sIndex (2 ^ 32 - 1) sMid).enc.blockSize ≤ 2 ^ 32 := by decide +kernel

/-- A failed second write of a frame, and the index exhausted. -/
theorem witness_EncWriteFailureStopsInsideOneFrame :
    ((sSink [.ok, .fail] sMid).enc.Ready ∧ (sSink [.ok, .fail] sMid).enc.fill < (sSink [.ok, .fail] sMid).enc.blockSize ∧
      (sSink [.ok, .fail] sMid).enc.nextIndex ≤ 2 ^ 32 ∧
      ∃ t, exec (.encWrite abcd) (sSink [.ok, .fail] sMid) = .next t ∧ t.enc.err = some ⟨.ioFailure, 1⟩) ∧
    ((sIndex (2 ^ 32) sMid).enc.Ready ∧ (sIndex (2 ^ 32) sMid).enc.fill < (sIndex (2 ^ 32) sMid).enc.blockSize ∧
      (sIndex (2 ^ 32) sMid).enc.nextIndex ≤ 2 ^ 32 ∧
      ∃ t, exec (.encWrite abcd) (sIndex (2 ^ 32) sMid) = .next t ∧ t.enc.err = some ⟨.rangeError, 0⟩) :=
  ⟨⟨by decide, by decide, by decide, _, rfl, by decide +kernel⟩,
    ⟨by decide, by decide, by decide, _, rfl, by decide +kernel⟩⟩

theorem witness_SplitWritesAgreeWithOneWrite :
    sMid.enc.Ready ∧ sMid.enc.fill < sMid.enc.blockSize ∧
      ∃ a, exec (.encWrite [0x63]) sMid = .next a ∧ a.enc.err = none ∧ a.enc.waiting = false :=
  ⟨by decide, by decide, _, rfl, by decide, by decide⟩

/-- With bytes left and with none, at the last indices. -/
theorem witness_EncCloseEndsTheStream :
    ((sIndex (2 ^ 32 - 2) sMid).enc.Ready ∧ (sIndex (2 ^ 32 - 2) sMid).sink.Reliable ∧
      (sIndex (2 ^ 32 - 2) sMid).enc.nextIndex + (if (sIndex (2 ^ 32 - 2) sMid).enc.fill = 0 then 0 else 1) < 2 ^ 32) ∧
    ((sIndex (2 ^ 32 - 1) s0).enc.Ready ∧ (sIndex (2 ^ 32 - 1) s0).sink.Reliable ∧
      (sIndex (2 ^ 32 - 1) s0).enc.nextIndex + (if (sIndex (2 ^ 32 - 1) s0).enc.fill = 0 then 0 else 1) < 2 ^ 32) := by
  decide +kernel

/-- The flush fails with bytes left; the close fails with none. -/
theorem witness_EncCloseStopsAtItsFirstFailure :
    ((sSink ([.ok, .ok, .ok, .ok, .ok, .ok, .ok, .fail]) sMid).enc.Ready ∧
      (sSink ([.ok, .ok, .ok, .ok, .ok, .ok, .ok, .fail]) sMid).enc.nextIndex + (if sMid.enc.fill = 0 then 0 else 1) < 2 ^ 32 ∧
      (sSink ([.ok, .ok, .ok, .ok, .ok, .ok, .ok, .fail]) sMid).sink.answers =
        List.replicate ((if sMid.enc.fill = 0 then 0 else 4) + 3) .ok ++ .fail :: []) ∧
    ((sSink ([.ok, .ok, .ok, .ok, .fail]) s0).enc.Ready ∧
      (sSink ([.ok, .ok, .ok, .ok, .fail]) s0).enc.nextIndex + (if s0.enc.fill = 0 then 0 else 1) < 2 ^ 32 ∧
      (sSink ([.ok, .ok, .ok, .ok, .fail]) s0).sink.answers =
        List.replicate ((if s0.enc.fill = 0 then 0 else 4) + 4) .ok ++ .fail :: []) := by decide +kernel

/-- Vector P6's failure, of the second write; the last write of the terminal block; the last index used up by the last data
block. -/
theorem witness_EncCloseStopsAtItsFirstFailure_emission :
    (sMid.enc.Ready ∧ 1 < (closeWrites sMid.enc).length ∧ (closeRegisters sMid.enc 1).nextIndex < 2 ^ 32 ∧
      (sSink [.ok, .fail] sMid).sink.AnswersAfter 1 .fail []) ∧
    ((sIndex (2 ^ 32 - 1) s0).enc.Ready ∧ 2 < (closeWrites (sIndex (2 ^ 32 - 1) s0).enc).length ∧
      (closeRegisters (sIndex (2 ^ 32 - 1) s0).enc 2).nextIndex < 2 ^ 32 ∧
      (sSink [.ok, .ok, .fail] s0).sink.AnswersAfter 2 .fail []) ∧
    ((sIndex (2 ^ 32 - 1) sMid).enc.Ready ∧ (sIndex (2 ^ 32 - 1) sMid).enc.fill ≠ 0 ∧
      (sIndex (2 ^ 32 - 1) sMid).enc.nextIndex = 2 ^ 32 - 1 ∧
      ∀ a ∈ (sIndex (2 ^ 32 - 1) sMid).sink.answers.take 4, a = .ok) := by
  refine ⟨⟨?_, ?_, ?_, ?_⟩, ⟨?_, ?_, ?_, ?_⟩, ?_, ?_, ?_, ?_⟩ <;> decide +kernel

theorem witness_ExhaustedIndexRaisesRangeError :
    ((sIndex (2 ^ 32) s0).enc.Ready ∧ (sIndex (2 ^ 32) s0).enc.nextIndex = 2 ^ 32) ∧
    ((sIndex (2 ^ 32) sMid).enc.Ready ∧ (sIndex (2 ^ 32) sMid).enc.nextIndex = 2 ^ 32 ∧
      (sIndex (2 ^ 32) sMid).enc.fill < (sIndex (2 ^ 32) sMid).enc.blockSize ∧
      (sIndex (2 ^ 32) sMid).enc.blockSize ≤ (sIndex (2 ^ 32) sMid).enc.fill + (abcd.take 2).length) := by decide +kernel

/-- Writes with a flush between them; the configured size 0 selects the default. -/
theorem witness_EncoderRunWritesTheStream :
    sMid.enc.waiting = false ∧ sMid.params.Legal ∧ sMid.params.sha256Available = true ∧ sMid.sink.Reliable ∧
      (∀ d, some d ∈ [some abcd, none, some [0x65]] → d.length < 2 ^ 64) ∧
      (blocksOf (effectiveBlockSize sMid.params 3) ([some abcd, none, some [0x65#8]].reduceOption.flatten)).length + 1 ≤ 2 ^ 32 ∧
      effectiveBlockSize sMid.params 0 = 16 :=
  ⟨by decide, by decide, by decide, by decide, fun d h => by
    have : d = abcd ∨ d = [0x65] := by simpa using h
    rcases this with rfl | rfl <;> decide, by decide +kernel, by decide⟩

theorem witness_SingleTerminatorAndBoundaryBlock :
    (sFailed.enc.waiting = false ∧ sFailed.params.sha256Available = true ∧ sFailed.sink.Reliable) ∧
      (0 < (4 : U32).toInt ∧ abcd.length = (4 : U32).toNat) ∧ 1 ≤ 1 ∧ 1 ≤ abcd.length := by decide +kernel

/-! ### Witnesses: the decoder -/

theorem witness_DecInitConstructs : sFailed.dec.waiting = false ∧ sNoSha.dec.waiting = false := by decide +kernel

theorem witness_DecReadDeliversTheResidualFirst :
    (1 : U32) ≠ 0 ∧ (0xFFFFFFFF : U32) ≠ 0 ∧ sMid.dec.waiting = false ∧ sMid.dec.err = none ∧
      sMid.dec.resPos < sMid.dec.resLen := by decide +kernel

theorem witness_TerminatedDecoderAnswersEos :
    (1 : U32) ≠ 0 ∧ sEnded.dec.waiting = false ∧ sEnded.dec.err = none ∧ sEnded.dec.term = true ∧
      sEnded.dec.ResidualEmpty := by decide +kernel

/-- The frame of vector H5, and the same frame with one digest byte changed, T2. -/
theorem witness_DataFrameIsAcceptedExactlyOnItsDigest :
    ((3 : U32) ≠ 0 ∧ s0.params.Legal ∧ (sSource frame0 [.serve] s0).dec.AtFrame ∧
      (sSource frame0 [.serve] s0).source.Reliable ∧ (sSource frame0 [.serve] s0).dec.expectedIndex < 2 ^ 32 ∧
      1 ≤ abcd.length ∧ abcd.length ≤ s0.params.maxBlockLen ∧ digestAbcd.length = 32 ∧
      (sSource frame0 [.serve] s0).source.Holds
        (le32Enc (BitVec.ofNat 32 (sSource frame0 [.serve] s0).dec.expectedIndex) ++ digestAbcd ++
          le32Enc (BitVec.ofNat 32 abcd.length) ++ abcd) ∧
      sha256 abcd = digestAbcd) ∧
    ((sSource (frame0.set 4 0x89) [] s0).source.Holds
        (le32Enc (BitVec.ofNat 32 s0.dec.expectedIndex) ++ digestAbcd.set 0 0x89 ++
          le32Enc (BitVec.ofNat 32 abcd.length) ++ abcd) ∧
      (digestAbcd.set 0 0x89).length = 32 ∧ sha256 abcd ≠ digestAbcd.set 0 0x89) := by decide +kernel

/-- S3, and the same frame with a digest byte set. -/
theorem witness_TerminalFrameIsAcceptedExactlyOnZeroDigest :
    ((1 : U32) ≠ 0 ∧ (sSource terminal0 [] s0).dec.AtFrame ∧ (sSource terminal0 [] s0).source.Reliable ∧
      (sSource terminal0 [] s0).dec.expectedIndex < 2 ^ 32 ∧ (List.replicate 32 0x00#8).length = 32 ∧
      (sSource terminal0 [] s0).source.Holds
        (le32Enc (BitVec.ofNat 32 (sSource terminal0 [] s0).dec.expectedIndex) ++ List.replicate 32 0x00 ++ le32Enc 0)) ∧
    ((sSource (terminal0.set 35 1) [] s0).source.Holds
        (le32Enc (BitVec.ofNat 32 s0.dec.expectedIndex) ++ (List.replicate 32 0x00).set 31 1 ++ le32Enc 0) ∧
      ((List.replicate 32 0x00#8).set 31 1).length = 32 ∧
      (List.replicate 32 0x00#8).set 31 1 ≠ List.replicate 32 0x00) := by decide +kernel

/-- T3, and any index once the counter is exhausted (R175). -/
theorem witness_WrongIndexIsMalformed :
    ((1 : U32) ≠ 0 ∧ (sSource (frame0.set 0 1) [] s0).dec.AtFrame ∧ (sSource (frame0.set 0 1) [] s0).source.Reliable ∧
      (sSource (frame0.set 0 1) [] s0).source.Holds (le32Enc 1) ∧
      (1 : U32).toNat ≠ (sSource (frame0.set 0 1) [] s0).dec.expectedIndex) ∧
    ((sExpects (2 ^ 32) (sSource frame0 [] s0)).dec.AtFrame ∧
      (sExpects (2 ^ 32) (sSource frame0 [] s0)).source.Holds (le32Enc 0) ∧
      (0 : U32).toNat ≠ (sExpects (2 ^ 32) (sSource frame0 [] s0)).dec.expectedIndex) := by decide +kernel

/-- T7, with one more than the maximum; and T6, with the least length that reads negative. -/
theorem witness_LengthAboveMaximumIsMalformed :
    ((1 : U32) ≠ 0 ∧ (sSource (frame0.set 36 17) [] s0).dec.AtFrame ∧ (sSource (frame0.set 36 17) [] s0).source.Reliable ∧
      (sSource (frame0.set 36 17) [] s0).dec.expectedIndex < 2 ^ 32 ∧ digestAbcd.length = 32 ∧
      (sSource (frame0.set 36 17) [] s0).source.Holds
        (le32Enc (BitVec.ofNat 32 (sSource (frame0.set 36 17) [] s0).dec.expectedIndex) ++ digestAbcd ++ le32Enc 17) ∧
      (sSource (frame0.set 36 17) [] s0).params.maxBlockLen < (17 : U32).toNat) ∧
    (Params.Legal { pars with maxBlockLen := 2 ^ 31 - 1 } ∧ (0x80000000#32).toInt < 0) := by decide +kernel

/-- A data frame with a failed source at the first field and a short read at the last, and a terminal frame with a failed
source at the last. -/
theorem witness_FieldFailuresAreReported_answers :
    ((1 : U32) ≠ 0 ∧ s0.params.Legal ∧ s0.dec.AtFrame ∧ s0.dec.expectedIndex < 2 ^ 32) ∧
    (frame0 = dataFrame s0.dec.expectedIndex abcd ∧ 1 ≤ abcd.length ∧ abcd.length ≤ s0.params.maxBlockLen ∧
      (sSource frame0 [.fail] s0).source.Holds frame0 ∧
      (sSource frame0 [.fail] s0).source.answers = List.replicate 0 .serve ++ .fail :: [] ∧
      (sSource frame0 [.serve, .serve, .serve, .short] s0).source.answers = List.replicate 3 .serve ++ .short :: []) ∧
    (terminal0 = terminalFrame s0.dec.expectedIndex ∧
      (sSource terminal0 [.serve, .serve, .fail] s0).source.Holds terminal0 ∧
      (sSource terminal0 [.serve, .serve, .fail] s0).source.answers = List.replicate 2 .serve ++ .fail :: []) := by
  decide +kernel

/-- A source that is empty, that ends one byte before a data frame does, and one byte before a terminal frame does. -/
theorem witness_FieldFailuresAreReported_ends :
    ((sSource [] [] s0).source.Reliable ∧ [] <+: dataFrame s0.dec.expectedIndex abcd ∧ ([] : Bytes).length < 40 + abcd.length ∧
      (sSource [] [] s0).source.data.drop (sSource [] [] s0).source.pos = []) ∧
    (frame0.take 43 <+: dataFrame s0.dec.expectedIndex abcd ∧ (frame0.take 43).length < 40 + abcd.length ∧
      (sSource (frame0.take 43) [] s0).source.data.drop (sSource (frame0.take 43) [] s0).source.pos = frame0.take 43) ∧
    (terminal0.take 39 <+: terminalFrame s0.dec.expectedIndex ∧ (terminal0.take 39).length < 40 ∧
      (sSource (terminal0.take 39) [] s0).source.data.drop (sSource (terminal0.take 39) [] s0).source.pos =
        terminal0.take 39) := by decide +kernel

theorem witness_DecoderFailureKeepsItsRegisters :
    ∃ t, exec (.decRead 1) (sSource (frame0.set 0 1) [] s0) = .next t ∧ (sSource (frame0.set 0 1) [] s0).dec.err = none ∧
      t.dec.err = some ⟨.malformedFrame, 1⟩ :=
  ⟨_, rfl, by decide, by decide +kernel⟩

/-- Changed bytes of frame 0: the offset and the new byte. -/
def changes : List (Nat × Byte) :=
  [(0, 0x01), (3, 0x01), (4, 0x89), (35, 0x88), (36, 0x00), (36, 0x11), (36, 0x10), (36, 0x05), (36, 0x03), (40, 0x62),
    (43, 0x65)]

/-- Each offset is a byte of the frame and each new byte differs from the old. -/
theorem changes_change : ∀ jx ∈ changes, ∃ h : jx.1 < frame0.length, frame0[jx.1] ≠ jx.2 := by
  have h : ∀ jx ∈ changes, (frame0[jx.1]?).all (· ≠ jx.2) = true ∧ jx.1 < frame0.length := by decide +kernel
  intro jx hjx
  obtain ⟨hne, hlt⟩ := h jx hjx
  rw [List.getElem?_eq_getElem hlt] at hne
  exact ⟨hlt, by simpa using hne⟩

/-- The length the changed frame has. -/
def changedLength (jx : Nat × Byte) : Nat := leDec (((frame0.set jx.1 jx.2).drop 36).take 4)

/-- The machine with the changed frame and one more byte in its source. -/
def changedSource (jx : Nat × Byte) : Source := (sSource (frame0.set jx.1 jx.2 ++ [0xDE]) [] s0).source

/-- T3, T2, T1 at the last byte, and T5 to T10 of the length: the zero length, one above the maximum, one the source ends
before, one more and one less. -/
theorem witness_ChangedByteOfADataFrameIsDetected :
    ((1 : U32) ≠ 0 ∧ s0.params.Legal ∧ s0.dec.AtFrame ∧ s0.dec.expectedIndex < 2 ^ 32 ∧ 1 ≤ abcd.length ∧
      abcd.length ≤ s0.params.maxBlockLen ∧ frame0 = dataFrame s0.dec.expectedIndex abcd) ∧
    (∀ jx ∈ changes, (changedSource jx).Reliable) ∧
    (∀ jx ∈ changes, (changedSource jx).data.drop (changedSource jx).pos = frame0.set jx.1 jx.2 ++ [0xDE]) ∧
    (∀ jx ∈ changes, 40 ≤ jx.1 → sha256 (abcd.set (jx.1 - 40) jx.2) ≠ sha256 abcd) ∧
    (∀ jx ∈ changes, 36 ≤ jx.1 → jx.1 < 40 → changedLength jx = 0 → sha256 abcd ≠ List.replicate 32 0x00) ∧
    (∀ jx ∈ changes, 36 ≤ jx.1 → jx.1 < 40 → 1 ≤ changedLength jx → changedLength jx ≤ (abcd ++ [0xDE]).length →
      sha256 ((abcd ++ [0xDE]).take (changedLength jx)) ≠ sha256 abcd) :=
  ⟨by decide +kernel, by decide +kernel, by decide +kernel, by decide +kernel, by decide +kernel, by decide +kernel⟩

theorem witness_DecoderRunReturnsTheStream :
    sFailed.dec.waiting = false ∧ sFailed.params.Legal ∧ sFailed.params.sha256Available = true ∧
      (∀ p ∈ [abcd, [0x65, 0x66]], 1 ≤ p.length ∧ p.length ≤ sFailed.params.maxBlockLen) ∧
      [abcd, [0x65#8, 0x66#8]].length + 1 ≤ 2 ^ 32 ∧ (∀ n ∈ ([1, 1, 1, 1, 1, 1, 0xFFFFFFFF] : List U32), n ≠ 0) ∧
      [abcd, [0x65#8, 0x66#8]].flatten.length < ([1, 1, 1, 1, 1, 1, 0xFFFFFFFF] : List U32).length :=
  ⟨by decide, by decide, by decide, by decide, by decide, by simp, by decide⟩

/-- Counts that never are 0, for `DECODE`. -/
theorem witness_DecodeCounts : ∀ i : Nat, (fun _ => 3 : Nat → U32) i ≠ 0 := fun _ => (by decide : (3 : U32) ≠ 0)

theorem witness_EncodeThenDecodeIsTheIdentity :
    pars.Legal ∧ pars.sha256Available = true ∧ effectiveBlockSize pars 16 ≤ pars.maxBlockLen ∧
      effectiveBlockSize pars 0 ≤ pars.maxBlockLen ∧ (blocksOf (effectiveBlockSize pars 16) abcd).length + 1 ≤ 2 ^ 32 ∧
      abcd.length < 2 ^ 64 ∧ (∀ n ∈ ([1, 1, 1, 1, 3] : List U32), n ≠ 0) ∧
      abcd.length < ([1, 1, 1, 1, 3] : List U32).length :=
  ⟨by decide, by decide, by decide, by decide, by decide +kernel, by decide, by simp, by decide⟩

/-! ### Witnesses: the whole machine -/

/-- One command of each unit and one of none. -/
theorem witness_CommandsTouchOnlyTheirUnit :
    (∃ t, exec .encFlush sMid = .next t ∧ t.sink ≠ sMid.sink ∧ commandUnit .encFlush ≠ some .dec) ∧
    (∃ t, exec (.decRead 1) sMid = .next t ∧ t.dec ≠ sMid.dec ∧ commandUnit (.decRead 1) ≠ some .enc) ∧
    (∃ t, exec (.u32Hash 1) sMid = .next t ∧ commandUnit (.u32Hash 1) = none) :=
  ⟨⟨_, rfl, by decide, by decide⟩, ⟨_, rfl, by decide, by decide⟩, ⟨_, rfl, by decide⟩⟩

theorem witness_UnitsCommute :
    commandUnit .encFlush = some .enc ∧ commandUnit (.decRead 1) = some .dec ∧
      (∃ a, exec .encFlush sMid = .next a ∧ a ≠ sMid) ∧ ∃ c, exec (.decRead 1) sMid = .next c ∧ c ≠ sMid :=
  ⟨by decide, by decide, ⟨_, rfl, by decide⟩, ⟨_, rfl, by decide⟩⟩

theorem notConstructsEnc_flush : ¬ ConstructsEnc (.command [0x12]) := by
  rintro ⟨cfg, h⟩
  rw [test_decode_encFlush] at h
  cases h

theorem notConstructsDec_flush : ¬ ConstructsDec (.command [0x12]) := by
  intro h
  rw [ConstructsDec, test_decode_encFlush] at h
  cases h

/-- An event that constructs neither unit, on two failed units. -/
theorem witness_LatchedErrorsLastUntilConstruction :
    (sEvent (.command [0x12]) sFailed).events = .command [0x12] :: [] ∧
      (∃ t, step (sEvent (.command [0x12]) sFailed) = .next t) ∧ sFailed.enc.err = some ⟨.ioFailure, 1⟩ ∧
      sFailed.dec.err = some ⟨.malformedFrame, 4⟩ ∧ ¬ ConstructsEnc (.command [0x12]) ∧ ¬ ConstructsDec (.command [0x12]) :=
  ⟨rfl, ⟨_, rfl⟩, by decide, by decide, notConstructsEnc_flush, notConstructsDec_flush⟩

/-- The encoder from OPEN to CLOSED and to FAILED, and from CLOSED. -/
theorem witness_ModesChangeOnlyAsTheSpecSays_enc :
    ((sEvent (.command [0x13]) sMid).Inv ∧ ∃ t, step (sEvent (.command [0x13]) sMid) = .next t ∧
      sMid.enc.mode = .opened ∧ t.enc.mode = .closed) ∧
    ((sEvent (.command [0x13]) (sSink [.fail] sMid)).Inv ∧
      ∃ t, step (sEvent (.command [0x13]) (sSink [.fail] sMid)) = .next t ∧ t.enc.mode = .failed) ∧
    ((sEvent (.command [0x13]) sEnded).Inv ∧ ∃ t, step (sEvent (.command [0x13]) sEnded) = .next t ∧
      sEnded.enc.mode ≠ .opened) ∧ ¬ ConstructsEnc (.command [0x13]) :=
  ⟨⟨inv_of_registers witness_sMid_inv rfl rfl rfl, _, rfl, by decide, by decide +kernel⟩,
    ⟨inv_of_registers witness_sMid_inv rfl rfl rfl, _, rfl, by decide +kernel⟩,
    ⟨inv_of_registers witness_sEnded_inv rfl rfl rfl, _, rfl, by decide⟩, fun ⟨cfg, h⟩ => by
    have := Except.ok.inj (show Except.ok Instr.encClose = Except.ok (Instr.encInit cfg) from h)
    cases this⟩

/-- The decoder from ACTIVE to TERMINATED and to FAILED, and from FAILED. -/
theorem witness_ModesChangeOnlyAsTheSpecSays_dec :
    ((sEvent (.command [0x21, 1, 0, 0, 0]) (sSource terminal0 [] (sIndex (2 ^ 32) s0))).Inv ∧
      ∃ t, step (sEvent (.command [0x21, 1, 0, 0, 0]) (sSource terminal0 [] (sIndex (2 ^ 32) s0))) = .next t ∧
        s0.dec.mode = .active ∧ t.dec.mode = .terminated) ∧
    ((sEvent (.command [0x21, 1, 0, 0, 0]) (sIndex (2 ^ 32) s0)).Inv ∧
      ∃ t, step (sEvent (.command [0x21, 1, 0, 0, 0]) (sIndex (2 ^ 32) s0)) = .next t ∧ t.dec.mode = .failed) ∧
    ((sEvent (.command [0x21, 1, 0, 0, 0]) sFailed).Inv ∧
      ∃ t, step (sEvent (.command [0x21, 1, 0, 0, 0]) sFailed) = .next t ∧ sFailed.dec.mode ≠ .active) ∧
    ¬ ConstructsDec (.command [0x21, 1, 0, 0, 0]) :=
  ⟨⟨inv_of_registers witness_s0_inv rfl rfl rfl, _, rfl, by decide, by decide +kernel⟩,
    ⟨inv_of_registers witness_s0_inv rfl rfl rfl, _, rfl, by decide +kernel⟩,
    ⟨inv_of_registers witness_sFailed_inv rfl rfl rfl, _, rfl, by decide⟩, fun h => by
    have := Except.ok.inj (show Except.ok (Instr.decRead 1) = Except.ok Instr.decInit from h)
    cases this⟩

/-- Both counters advance, the encoder's to its last value. -/
theorem witness_IndexCountersOnlyAdvance :
    (∃ t, exec .encClose (sIndex (2 ^ 32 - 1) s0) = .next t ∧ (∀ cfg, Instr.encClose ≠ .encInit cfg) ∧
      (sIndex (2 ^ 32 - 1) s0).enc.nextIndex ≤ 2 ^ 32 ∧ t.enc.nextIndex = 2 ^ 32) ∧
    (∃ t, exec (.decRead 1) (sSource frame0 [] s0) = .next t ∧ Instr.decRead 1 ≠ .decInit ∧
      s0.dec.expectedIndex ≤ 2 ^ 32 ∧ t.dec.expectedIndex = 1) :=
  ⟨⟨_, rfl, nofun, by decide, by decide +kernel⟩, ⟨_, rfl, by decide, by decide, by decide +kernel⟩⟩

theorem witness_SinkIsAppendOnly :
    ∃ t, exec .encClose s0 = .next t ∧ t.sink.data ≠ s0.sink.data := ⟨_, rfl, by decide +kernel⟩

/-- Two states that differ in a stale byte of each buffer. -/
theorem witness_StaleBytesNeverShow :
    ({ sMid with enc := { sMid.enc with buf := sMid.enc.buf ++ [(3, 0xAA)] } } : State).SameButStale sMid ∧
      ({ sMid with enc := { sMid.enc with buf := sMid.enc.buf ++ [(3, 0xAA)] } } : State) ≠ sMid ∧
      ∃ t, exec .encClose { sMid with enc := { sMid.enc with buf := sMid.enc.buf ++ [(3, 0xAA)] } } = .next t :=
  ⟨⟨rfl, fun a h => by
    have : a = 0 ∨ a = 1 := by have : a < 2 := h; omega
    rcases this with rfl | rfl <;> rfl, fun _ _ => rfl⟩, by decide, _, rfl⟩

end Sys2Proof.Tests
end

/-! The primitive operations (spec/40_primitive_io.md R110 to R118): what their functions are, what their commands
answer, and the statements about them. -/

namespace Sys2Proof.Machine

/-! ### The little-endian functions, byte by byte -/

theorem le32Enc_eq_bytes (v : U32) :
    le32Enc v = [v.extractLsb' 0 8, v.extractLsb' 8 8, v.extractLsb' 16 8, v.extractLsb' 24 8] := rfl

theorem leEnc_getElem? {w n i : Nat} (v : BitVec w) (h : i < n) : (leEnc n v)[i]? = some (v.extractLsb' (8 * i) 8) := by
  rw [leEnc, List.getElem?_map, List.getElem?_range h, Option.map_some]

theorem le64Enc_getElem? {i : Nat} (v : U64) (h : i < 8) : (le64Enc v)[i]? = some (v.extractLsb' (8 * i) 8) :=
  leEnc_getElem? v h

/-- The sum of R111, from the Horner form of `leDec`. -/
theorem le32Dec_toNat_eq_sum (b0 b1 b2 b3 : Byte) :
    (le32Dec [b0, b1, b2, b3]).toNat = b0.toNat + 2 ^ 8 * b1.toNat + 2 ^ 16 * b2.toNat + 2 ^ 24 * b3.toNat := by
  rw [le32Dec_toNat _ rfl]
  simp only [leDec]
  ring

/-- The sum of R113, from the Horner form of `leDec`. -/
theorem le64Dec_toNat_eq_sum (b0 b1 b2 b3 b4 b5 b6 b7 : Byte) :
    (le64Dec [b0, b1, b2, b3, b4, b5, b6, b7]).toNat =
      b0.toNat + 2 ^ 8 * b1.toNat + 2 ^ 16 * b2.toNat + 2 ^ 24 * b3.toNat +
        2 ^ 32 * b4.toNat + 2 ^ 40 * b5.toNat + 2 ^ 48 * b6.toNat + 2 ^ 56 * b7.toNat := by
  rw [le64Dec_toNat _ rfl]
  simp only [leDec]
  ring

/-! ### The U32 value type -/

theorem u32ToU64_eq_zeroExtend (c : U32) : u32ToU64 c = c.zeroExtend 64 :=
  BitVec.eq_of_toNat_eq <| by
    rw [u32ToU64_toNat, BitVec.toNat_setWidth, Nat.mod_eq_of_lt (by have := c.isLt; omega)]

/-- Up to 2^32 - 1 the cell is the low half, whose bits above are all clear, so that no set bit is lost (R116, R122). -/
theorem u32FromU64_of_le {v : U64} (h : v.toNat ≤ 2 ^ 32 - 1) :
    u32FromU64 v = some (v.extractLsb' 0 32) ∧ (v.extractLsb' 0 32).toNat = v.toNat := by
  have hv : ¬ 0xFFFFFFFF#64 < v := by
    rw [BitVec.lt_def, BitVec.toNat_ofNat]
    omega
  refine ⟨if_neg hv, ?_⟩
  rw [BitVec.extractLsb'_toNat, Nat.shiftRight_zero, Nat.mod_eq_of_lt (by omega)]

theorem u32FromU64_of_lt {v : U64} (h : 2 ^ 32 - 1 < v.toNat) : u32FromU64 v = none :=
  if_pos <| by
    rw [BitVec.lt_def, BitVec.toNat_ofNat]
    omega

theorem u32FromByte_toNat (b : Byte) : (u32FromByte b).toNat = b.toNat := by
  rw [u32FromByte, BitVec.toNat_setWidth, Nat.mod_eq_of_lt (by have := b.isLt; omega)]

/-- Bits 31:8 of the widened byte are zero, since its value is below 2^8 (R117). -/
theorem u32FromByte_extractLsb'_high (b : Byte) : (u32FromByte b).extractLsb' 8 24 = 0#24 :=
  BitVec.eq_of_toNat_eq <| by
    rw [BitVec.extractLsb'_toNat, u32FromByte_toNat, Nat.shiftRight_eq_div_pow, Nat.div_eq_of_lt b.isLt,
      Nat.zero_mod, BitVec.toNat_zero]

/-! ### What the commands answer -/

@[simp] theorem exec_le32Enc (v : U32) (s : State) :
    exec (.le32Enc v) s = .next (s.respond (.ok (.bytes (le32Enc v)))) := rfl

@[simp] theorem exec_le32Dec (b0 b1 b2 b3 : Byte) (s : State) :
    exec (.le32Dec b0 b1 b2 b3) s = .next (s.respond (.ok (.word (le32Dec [b0, b1, b2, b3])))) := rfl

@[simp] theorem exec_le64Enc (v : U64) (s : State) :
    exec (.le64Enc v) s = .next (s.respond (.ok (.bytes (le64Enc v)))) := rfl

@[simp] theorem exec_le64Dec (b0 b1 b2 b3 b4 b5 b6 b7 : Byte) (s : State) :
    exec (.le64Dec b0 b1 b2 b3 b4 b5 b6 b7) s =
      .next (s.respond (.ok (.quad (le64Dec [b0, b1, b2, b3, b4, b5, b6, b7])))) := rfl

@[simp] theorem exec_u32ToU64 (c : U32) (s : State) :
    exec (.u32ToU64 c) s = .next (s.respond (.ok (.quad (u32ToU64 c)))) := rfl

theorem exec_u32FromU64_some {v : U64} {c : U32} (h : u32FromU64 v = some c) (s : State) :
    exec (.u32FromU64 v) s = .next (s.respond (.ok (.word c))) := by
  simp only [exec, execU32FromU64, h, primCommand]

theorem exec_u32FromU64_none {v : U64} (h : u32FromU64 v = none) (s : State) :
    exec (.u32FromU64 v) s = .next (s.respond (.error rangeError)) := by
  simp only [exec, execU32FromU64, h, primCommand]

@[simp] theorem exec_u32FromByte (b : Byte) (s : State) :
    exec (.u32FromByte b) s = .next (s.respond (.ok (.word (u32FromByte b)))) := rfl

@[simp] theorem exec_u32Eq (a b : U32) (s : State) :
    exec (.u32Eq a b) s = .next (s.respond (.ok (.byte (u32Eq a b)))) := rfl

/-! ### Operands of another length -/

theorem decodeW_of_length_ne (op : Byte) (f : Byte → Byte → Byte → Byte → Instr) {rest : Bytes} (h : rest.length ≠ 4) :
    decodeW op f rest = .error (.badLength op) := by
  unfold decodeW
  split
  · exact absurd rfl h
  · rfl

theorem decode_le32Dec_opcode (rest : Bytes) : decode (0x31 :: rest) = decodeW 0x31 .le32Dec rest := rfl

/-! ### The statements -/

/-- Settles O16: the bytes are those of `LE32enc`, written out. -/
theorem le32EncAnswersTheBytes : Obligations.Le32EncAnswersTheBytes := by
  unfold Obligations.Le32EncAnswersTheBytes
  refine ⟨fun v s => ?_, fun v => ?_, by decide⟩
  · rw [exec_le32Enc, le32Enc_eq_bytes]
  · rw [encode, Instr.opcode, Instr.operandBytes, le32Enc_eq_bytes]

/-- Settles O17: the answer by the sum of the bytes, the refusal by the format W of the opcode. -/
theorem le32DecAnswersTheUnsignedValue : Obligations.Le32DecAnswersTheUnsignedValue := by
  unfold Obligations.Le32DecAnswersTheUnsignedValue
  refine ⟨fun b0 b1 b2 b3 s => ⟨_, exec_le32Dec b0 b1 b2 b3 s, le32Dec_toNat_eq_sum b0 b1 b2 b3⟩, fun _ _ _ _ => rfl,
    fun rest h => ?_⟩
  rw [decode_le32Dec_opcode, decodeW_of_length_ne 0x31 _ h]

/-- Settles O18: the answer and the operand of the transaction are both `LE64enc v`. -/
theorem le64EncAnswersTheBytes : Obligations.Le64EncAnswersTheBytes := by
  unfold Obligations.Le64EncAnswersTheBytes
  exact ⟨fun v s => ⟨le64Enc v, exec_le64Enc v s, le64Enc_length v, fun _ => le64Enc_getElem? v⟩,
    fun v => ⟨le64Enc v, rfl, le64Enc_length v, fun _ => le64Enc_getElem? v⟩⟩

/-- Settles O19, by the sum of the bytes. -/
theorem le64DecAnswersTheUnsignedValue : Obligations.Le64DecAnswersTheUnsignedValue := by
  unfold Obligations.Le64DecAnswersTheUnsignedValue
  exact ⟨fun b0 b1 b2 b3 b4 b5 b6 b7 s =>
      ⟨_, exec_le64Dec b0 b1 b2 b3 b4 b5 b6 b7 s, le64Dec_toNat_eq_sum b0 b1 b2 b3 b4 b5 b6 b7⟩,
    fun _ _ _ _ _ _ _ _ => rfl⟩

/-- Settles O20: sign-extending and masking is zero-extending. -/
theorem u32ToU64ReadsTheCellAsUnsigned : Obligations.U32ToU64ReadsTheCellAsUnsigned := by
  unfold Obligations.U32ToU64ReadsTheCellAsUnsigned
  refine ⟨fun c s => ?_, u32ToU64_eq_zeroExtend, fun _ => rfl⟩
  rw [exec_u32ToU64, u32ToU64_eq_zeroExtend]

/-- Settles O21, by the two sides of 2^32 - 1. -/
theorem u32FromU64RaisesRangeErrorAbove32Bits : Obligations.U32FromU64RaisesRangeErrorAbove32Bits := by
  unfold Obligations.U32FromU64RaisesRangeErrorAbove32Bits
  refine ⟨fun v s h => ?_, fun v s h => exec_u32FromU64_none (u32FromU64_of_lt h) s, by decide, fun _ => rfl⟩
  obtain ⟨hcell, hvalue⟩ := u32FromU64_of_le h
  exact ⟨_, hvalue, exec_u32FromU64_some hcell s⟩

/-- Settles O22: the widened byte keeps its value, and bits 31:8 are zero. -/
theorem u32FromByteZeroExtends : Obligations.U32FromByteZeroExtends := by
  unfold Obligations.U32FromByteZeroExtends
  exact ⟨fun b s => ⟨_, exec_u32FromByte b s, u32FromByte_toNat b, u32FromByte_extractLsb'_high b⟩, fun _ => rfl⟩

/-- Settles O23. -/
theorem u32EqComparesThePatterns : Obligations.U32EqComparesThePatterns := by
  unfold Obligations.U32EqComparesThePatterns
  refine ⟨fun a b s => ?_, fun _ _ => rfl⟩
  rw [exec_u32Eq, u32Eq]

end Sys2Proof.Machine

/-! The digest (spec/41_sha256_digest.md R130 to R139): the padded message, and what the command `SHA256` answers. -/

namespace Sys2Proof.Machine

/-! ### The big-endian length field -/

/-- Byte by byte, `BE` is the little-endian encoding read backwards, in any width that holds the number. -/
theorem beEnc_reverse {w v : Nat} (n : Nat) (h : v < 2 ^ w) : (beEnc n v).reverse = leEnc n (BitVec.ofNat w v) := by
  apply List.ext_getElem (by simp)
  intro i hi _
  have hin : i < n := by simpa using hi
  have hindex : n - 1 - (n - 1 - i) = i := by omega
  apply BitVec.eq_of_toNat_eq
  simp only [beEnc, leEnc, List.getElem_reverse, List.getElem_map, List.getElem_range, List.length_map, List.length_range,
    hindex, BitVec.toNat_ofNat, BitVec.extractLsb'_toNat, Nat.mod_eq_of_lt h, Nat.shiftRight_eq_div_pow]

/-- The big-endian bytes of a number hold its low `8 n` bits. -/
theorem leDec_reverse_beEnc (n v : Nat) : leDec (beEnc n v).reverse = v % 2 ^ (8 * n) := by
  have hv : v < 2 ^ v := v.lt_two_pow_self
  rw [beEnc_reverse n hv, leDec_leEnc, BitVec.toNat_ofNat, Nat.mod_eq_of_lt hv]

/-! ### The number of zero bytes -/

/-- The number `k` of zero bytes in the padding of a message of `L` bytes, written as `sha256Pad` writes it (R131). -/
def padZeros (L : Nat) : Nat := (119 - L % 64) % 64

theorem sha256Pad_eq (m : Bytes) :
    sha256Pad m = m ++ [0x80] ++ List.replicate (padZeros m.length) 0x00 ++ beEnc 8 (8 * m.length) := rfl

/-- The closed form of R131, over the integers. -/
theorem padZeros_eq_emod (L : Nat) : (padZeros L : Int) = (55 - (L : Int)) % 64 := by
  rw [padZeros]
  omega

/-- The zeros fill the last block. -/
theorem padZeros_fills (L : Nat) : (L + 1 + padZeros L + 8) % 64 = 0 := by
  rw [padZeros]
  omega

/-- Numbers that fill the last block differ by multiples of 64, and `padZeros L` is below 64. -/
theorem padZeros_le_of_fills {L j : Nat} (h : (L + 1 + j + 8) % 64 = 0) : padZeros L ≤ j := by
  rw [padZeros]
  omega

/-! ### The length of the padded message -/

theorem sha256Pad_length (m : Bytes) : (sha256Pad m).length = m.length + 1 + padZeros m.length + 8 := by
  simp only [sha256Pad_eq, List.length_append, List.length_singleton, List.length_replicate, beEnc_length]

/-- The number of blocks: one more for each 64 bytes that message and length field take together. -/
theorem sha256Pad_length_eq_blocks (m : Bytes) : (sha256Pad m).length = 64 * ((m.length + 8) / 64 + 1) := by
  rw [sha256Pad_length, padZeros]
  omega

/-! ### What the command answers -/

theorem sha256_of_lt {m : Bytes} (h : m.length < 2 ^ 61) : sha256 m = sha256InRange m := if_pos h

theorem exec_sha256_of_available {s : State} (h : s.params.sha256Available = true) (m : Bytes) :
    exec (.sha256 m) s = .next (s.respond (.ok (.bytes (sha256 m)))) := by
  simp only [exec, execSha256, h, if_true, primCommand]

theorem exec_sha256_of_unavailable {s : State} (h : s.params.sha256Available = false) (m : Bytes) :
    exec (.sha256 m) s = .next (s.respond (.error configurationError)) := by
  simp only [exec, execSha256, h, Bool.false_eq_true, if_false, primCommand]

/-! ### The statements -/

/-- Settles O28: the zeros by their least number, the sizes by the number of blocks. -/
theorem sha256PaddingIsMinimal : Obligations.Sha256PaddingIsMinimal := by
  unfold Obligations.Sha256PaddingIsMinimal
  intro m hm
  have hlength : leDec (beEnc 8 (8 * m.length)).reverse = 8 * m.length := by
    rw [leDec_reverse_beEnc, Nat.mod_eq_of_lt (by omega)]
  have hblocks := sha256Pad_length_eq_blocks m
  exact ⟨padZeros m.length, beEnc 8 (8 * m.length), sha256Pad_eq m, padZeros_fills m.length,
    fun _ => padZeros_le_of_fills, padZeros_eq_emod m.length, beEnc_length 8 _, hlength,
    by omega, fun _ => by omega, fun _ _ => by omega⟩

/-- Settles O27: the answers by whether the engine is there, the known values of R138 by evaluation. -/
theorem sha256CommandAnswers : Obligations.Sha256CommandAnswers := by
  unfold Obligations.Sha256CommandAnswers
  refine ⟨fun m s havailable hm => ?inRange,
    fun m s havailable => ⟨sha256 m, sha256_length m, exec_sha256_of_available havailable m⟩,
    fun m s hunavailable => exec_sha256_of_unavailable hunavailable m,
    by decide +kernel, by decide +kernel, by decide +kernel⟩
  case inRange =>
    rw [← sha256_of_lt hm]
    exact ⟨exec_sha256_of_available havailable m, sha256_length m⟩

end Sys2Proof.Machine

/-! The frame of the decoder (spec/43_block_decoder.md R172 to R178): `DEC.READ` at a frame boundary, over a source
that delivers the fields of a frame one after another, or fails inside one of them. -/

namespace Sys2Proof.Machine

/-! ### A source that delivers fields -/

/-- The next bytes of the source are the fields `w`, and it serves one call for each of them. -/
def Source.Delivers (r : Source) (w : List Bytes) : Prop :=
  r.Holds w.flatten ∧ ∀ i < w.length, (r.answers.drop i).headD .serve = .serve

/-- The decoder's side when the fields `w` have been read, one call each. -/
def DecSide.afterFields (u : DecSide) (w : List Bytes) : DecSide :=
  { u with source := u.source.after w.length w.flatten.length }

@[simp] theorem afterFields_dec (u : DecSide) (w : List Bytes) : (u.afterFields w).dec = u.dec := rfl
@[simp] theorem afterFields_source (u : DecSide) (w : List Bytes) :
    (u.afterFields w).source = u.source.after w.length w.flatten.length := rfl
@[simp] theorem source_after_data (r : Source) (k n : Nat) : (r.after k n).data = r.data := rfl
@[simp] theorem source_after_pos (r : Source) (k n : Nat) : (r.after k n).pos = r.pos + n := rfl
@[simp] theorem source_after_answers (r : Source) (k n : Nat) : (r.after k n).answers = r.answers.drop k := rfl

theorem Source.Reliable.after {r : Source} (h : r.Reliable) (k n : Nat) : (r.after k n).Reliable :=
  fun a ha => h a (List.mem_of_mem_drop ha)

theorem Source.Reliable.delivers {r : Source} {w : List Bytes} (h : r.Reliable) (hw : r.Holds w.flatten) :
    r.Delivers w :=
  ⟨hw, fun i _ => (h.after i 0).answer⟩

/-- The field after those read is read from where they end. -/
theorem srcField_delivered {u : DecSide} {pre post : List Bytes} {b : Bytes} {n : Nat}
    (h : u.source.Delivers (pre ++ b :: post)) (hn : b.length = n) (h0 : 0 < n) :
    srcField n (u.afterFields pre) = .done b (u.afterFields (pre ++ [b])) := by
  obtain ⟨⟨rest, hrest⟩, hserve⟩ := h
  have hdrop : u.source.data.drop (u.source.pos + pre.flatten.length) = b ++ (post.flatten ++ rest) := by
    rw [← List.drop_drop, ← hrest]
    simp
  have hanswer : (u.afterFields pre).source.answer = .serve := hserve pre.length (by simp)
  rw [srcField_serve hanswer hdrop hn h0]
  simp [DecSide.afterFields, Source.after, Source.called, hn, Nat.add_assoc]

/-- The first field is read from where the source stands. -/
theorem srcField_first {u : DecSide} {post : List Bytes} {b : Bytes} {n : Nat}
    (h : u.source.Delivers (b :: post)) (hn : b.length = n) (h0 : 0 < n) :
    srcField n u = .done b (u.afterFields [b]) :=
  srcField_delivered (pre := []) h hn h0

/-! ### A call that is not served -/

/-- A source that answers `short` or `fail` raises the error of R174, whatever it holds. -/
theorem srcField_raised {u : DecSide} {a : SourceAnswer} {e : Err} (n : Nat) (ha : u.source.answer = a)
    (hae : (a = .short ∧ e = malformedFrame 4) ∨ (a = .fail ∧ e = ioFailure 4)) :
    srcField n u = .raised e { u with source := u.source.lost } := by
  rcases hae with ⟨rfl, rfl⟩ | ⟨rfl, rfl⟩ <;> simp [srcField, srcReadExactly, ha]

/-- A source that serves, but ends inside the field, is a short read (R174). -/
theorem srcField_ended {u : DecSide} {n : Nat} (ha : u.source.answer = .serve)
    (hn : (u.source.data.drop u.source.pos).length < n) :
    srcField n u = .raised (malformedFrame 4) { u with source := u.source.lost } := by
  simp [srcField, srcReadExactly_short ha hn]

/-! ### The steps of `ReadFrame` -/

@[simp] theorem le32Dec_le32Enc (v : U32) : le32Dec (le32Enc v) = v :=
  BitVec.eq_of_toNat_eq <| by rw [le32Dec_toNat _ (le32Enc_length v), leDec_le32Enc]

/-- `ReadFrame` when the length field is in (R173, steps 3 to 5). -/
def readBody (p : Params) (d : Bytes) (len : Nat) (u : DecSide) : Flow DecSide Unit :=
  (checkLength p len u).bind fun _ u => if len = 0 then acceptTerminal d u else acceptData d len u

/-- `ReadFrame` from the length field on. -/
def readLength (p : Params) (d : Bytes) (u : DecSide) : Flow DecSide Unit :=
  (srcField 4 u).bind fun b u => readBody p d (u32ToU64 (le32Dec b)).toNat u

/-- `ReadFrame` from the digest field on. -/
def readDigest (p : Params) (u : DecSide) : Flow DecSide Unit := (srcField 32 u).bind fun d u => readLength p d u

/-- The steps of R173 in their order. -/
theorem readFrame_eq (p : Params) (u : DecSide) :
    readFrame p u =
      (srcField 4 u).bind fun b u => (checkIndex (le32Dec b) u).bind fun _ u => readDigest p u := rfl

/-- The fields of a frame before its payload. -/
def headerFields (k : Nat) (d : Bytes) (len : U32) : List Bytes := [le32Enc (BitVec.ofNat 32 k), d, le32Enc len]

theorem headerFields_flatten (k : Nat) (d : Bytes) (len : U32) :
    (headerFields k d len).flatten = le32Enc (BitVec.ofNat 32 k) ++ d ++ le32Enc len := by
  simp [headerFields]

section Header

variable {p : Params} {u : DecSide} {post : List Bytes} {d : Bytes} {len : U32}

theorem checkIndex_wrong {idx : U32} (h : idx.toNat ≠ u.dec.expectedIndex) :
    checkIndex idx u = .raised (malformedFrame 1) u := if_pos h

theorem checkIndex_expected {k : Nat} (h : u.dec.expectedIndex = k) (hk : k < 2 ^ 32) :
    checkIndex (BitVec.ofNat 32 k) u = .done () u :=
  if_neg <| by rw [BitVec.toNat_ofNat, Nat.mod_eq_of_lt hk, h, ne_eq, not_not]

/-- Another index than the expected one ends the frame (R175). -/
theorem readFrame_wrongIndex {idx : U32} (h : u.source.Delivers (le32Enc idx :: post))
    (hidx : idx.toNat ≠ u.dec.expectedIndex) :
    readFrame p u = .raised (malformedFrame 1) (u.afterFields [le32Enc idx]) := by
  rw [readFrame_eq, srcField_first h (le32Enc_length idx) (by decide), bind_done, le32Dec_le32Enc,
    checkIndex_wrong (u := u.afterFields _) hidx, bind_raised]

/-- After the expected index the digest field is read. -/
theorem readFrame_index (h : u.source.Delivers (le32Enc (BitVec.ofNat 32 u.dec.expectedIndex) :: post))
    (hidx : u.dec.expectedIndex < 2 ^ 32) :
    readFrame p u = readDigest p (u.afterFields [le32Enc (BitVec.ofNat 32 u.dec.expectedIndex)]) := by
  rw [readFrame_eq, srcField_first h (le32Enc_length _) (by decide), bind_done, le32Dec_le32Enc,
    checkIndex_expected (congrArg Decoder.expectedIndex (afterFields_dec u _)) hidx, bind_done]

theorem readDigest_delivered {i : Bytes} (h : u.source.Delivers (i :: d :: post)) (hd : d.length = 32) :
    readDigest p (u.afterFields [i]) = readLength p d (u.afterFields [i, d]) := by
  rw [readDigest, srcField_delivered (pre := [i]) h hd (by decide)]
  rfl

theorem readLength_delivered {i : Bytes} (h : u.source.Delivers (i :: d :: le32Enc len :: post)) :
    readLength p d (u.afterFields [i, d]) = readBody p d len.toNat (u.afterFields [i, d, le32Enc len]) := by
  rw [readLength, srcField_delivered (pre := [i, d]) h (le32Enc_length len) (by decide), bind_done, le32Dec_le32Enc,
    u32ToU64_toNat]
  rfl

/-- A delivered header with the expected index leaves `ReadFrame` at its last steps. -/
theorem readFrame_header (h : u.source.Delivers (headerFields u.dec.expectedIndex d len ++ post))
    (hidx : u.dec.expectedIndex < 2 ^ 32) (hd : d.length = 32) :
    readFrame p u = readBody p d len.toNat (u.afterFields (headerFields u.dec.expectedIndex d len)) := by
  rw [readFrame_index h hidx, readDigest_delivered h hd, readLength_delivered h]
  rfl

/-- Where the read of a header field raises, so does `ReadFrame`. -/
theorem readFrame_header_raised {w : List Bytes} {j : Nat} {e : Err} {v : DecSide}
    (hw : w = headerFields u.dec.expectedIndex d len ++ post) (hj : j < w.length) (hj3 : j < 3)
    (h : u.source.Delivers (w.take j)) (hidx : u.dec.expectedIndex < 2 ^ 32) (hd : d.length = 32)
    (hraise : srcField w[j].length (u.afterFields (w.take j)) = .raised e v) :
    readFrame p u = .raised e v := by
  subst hw
  match j, hj3 with
  | 0, _ =>
    have hfield : srcField 4 u = .raised e v := hraise
    rw [readFrame_eq, hfield, bind_raised]
  | 1, _ =>
    have hfield : srcField d.length (u.afterFields [le32Enc (BitVec.ofNat 32 u.dec.expectedIndex)]) =
      .raised e v := hraise
    rw [hd] at hfield
    rw [readFrame_index h hidx, readDigest, hfield, bind_raised]
  | 2, _ =>
    have hfield : srcField 4 (u.afterFields [le32Enc (BitVec.ofNat 32 u.dec.expectedIndex), d]) =
      .raised e v := hraise
    rw [readFrame_index h hidx, readDigest_delivered h hd, readLength, hfield, bind_raised]

end Header

/-! ### After the length field -/

theorem readBody_above {p : Params} {len : Nat} (d : Bytes) (u : DecSide) (h : p.maxBlockLen < len) :
    readBody p d len u = .raised (malformedFrame 2) u := by
  rw [readBody, checkLength, if_pos h, bind_raised]

theorem readBody_zero (p : Params) (d : Bytes) (u : DecSide) : readBody p d 0 u = acceptTerminal d u := by
  rw [readBody, checkLength, if_neg (Nat.not_lt_zero _), bind_done, if_pos rfl]

theorem readBody_data {p : Params} {len : Nat} (d : Bytes) (u : DecSide) (h1 : 1 ≤ len) (hmax : len ≤ p.maxBlockLen) :
    readBody p d len u = acceptData d len u := by
  rw [readBody, checkLength, if_neg (by omega), bind_done, if_neg (by omega)]

theorem acceptTerminal_zeros {d : Bytes} (u : DecSide) (h : d = List.replicate 32 0x00) :
    acceptTerminal d u = .answered .eos { u with dec := { u.dec with term := true } } := if_neg (not_not.mpr h)

theorem acceptTerminal_other {d : Bytes} (u : DecSide) (h : d ≠ List.replicate 32 0x00) :
    acceptTerminal d u = .raised (malformedFrame 3) u := if_pos h

/-- A payload read is accepted exactly on its digest (R178). -/
theorem acceptData_delivered {u v : DecSide} {b : Bytes} {len : Nat} (d : Bytes) (h : srcField len u = .done b v) :
    acceptData d len u =
      if sha256 b ≠ d then .raised integrityViolation v else .done () { v with dec := acceptBlock b v.dec } := by
  rw [acceptData, h, bind_done]

/-- The length field of a payload within a legal maximum reads back as the payload's length. -/
theorem toNat_ofNat_payload_length {p : Params} {b : Bytes} (hp : p.Legal) (hmax : b.length ≤ p.maxBlockLen) :
    (BitVec.ofNat 32 b.length).toNat = b.length := by
  obtain ⟨-, -, hle⟩ := hp
  rw [BitVec.toNat_ofNat, Nat.mod_eq_of_lt (by omega)]

/-- The decoder's side when a header has been read. -/
theorem afterFields_header (u : DecSide) (k : Nat) {d : Bytes} (len : U32) (hd : d.length = 32) :
    u.afterFields (headerFields k d len) = { u with source := u.source.after 3 40 } := by
  simp [DecSide.afterFields, headerFields, hd]

/-- The decoder's side when a data frame has been read. -/
theorem afterFields_data (u : DecSide) (k : Nat) {d : Bytes} (len : U32) (b : Bytes) (hd : d.length = 32) :
    u.afterFields (headerFields k d len ++ [b]) = { u with source := u.source.after 4 (40 + b.length) } := by
  have hlength : (headerFields k d len ++ [b]).flatten.length = 40 + b.length := by
    simp only [List.flatten_append, headerFields_flatten, List.flatten_singleton, List.length_append, le32Enc_length, hd]
  rw [DecSide.afterFields, hlength]
  rfl

/-- `ReadFrame` over a source that serves and holds a header under the expected index. -/
theorem readFrame_of_holds_header {p : Params} {u : DecSide} {d : Bytes} {len : U32} (hu : u.source.Reliable)
    (hidx : u.dec.expectedIndex < 2 ^ 32) (hd : d.length = 32)
    (h : u.source.Holds (le32Enc (BitVec.ofNat 32 u.dec.expectedIndex) ++ d ++ le32Enc len)) :
    readFrame p u = readBody p d len.toNat { u with source := u.source.after 3 40 } := by
  rw [readFrame_header (post := []) (hu.delivers (by rwa [List.append_nil, headerFields_flatten])) hidx hd,
    afterFields_header _ _ _ hd]

/-- `ReadFrame` over a source that serves and holds a data frame with digest field `d` under the expected index. -/
theorem readFrame_of_holds_data {p : Params} {u : DecSide} {b d : Bytes} (hp : p.Legal) (hu : u.source.Reliable)
    (hidx : u.dec.expectedIndex < 2 ^ 32) (hd : d.length = 32) (h1 : 1 ≤ b.length) (hmax : b.length ≤ p.maxBlockLen)
    (h : u.source.Holds
      (le32Enc (BitVec.ofNat 32 u.dec.expectedIndex) ++ d ++ le32Enc (BitVec.ofNat 32 b.length) ++ b)) :
    readFrame p u =
      if sha256 b ≠ d then .raised integrityViolation { u with source := u.source.after 4 (40 + b.length) }
      else .done () { dec := acceptBlock b u.dec, source := u.source.after 4 (40 + b.length) } := by
  have hdelivers : u.source.Delivers (headerFields u.dec.expectedIndex d (BitVec.ofNat 32 b.length) ++ [b]) :=
    hu.delivers (by rwa [List.flatten_append, headerFields_flatten, List.flatten_singleton])
  rw [readFrame_header hdelivers hidx hd, toNat_ofNat_payload_length hp hmax, readBody_data _ _ h1 hmax,
    acceptData_delivered d (srcField_delivered hdelivers rfl h1), afterFields_data _ _ _ _ hd]

/-- A block just accepted is delivered from its first byte (R179). -/
theorem deliver_acceptBlock (n : U32) (b : Bytes) (d : Decoder) (r : Source) :
    deliver n { dec := acceptBlock b d, source := r } =
      .done (.chunk (BitVec.ofNat 32 (min n.toNat b.length)) (b.take n.toNat))
        { dec := { acceptBlock b d with resPos := min n.toNat b.length }, source := r } := by
  have hlength : deliverLength n (acceptBlock b d) = min n.toNat b.length := rfl
  rw [deliver, deliverBytes_acceptBlock, hlength, acceptBlock_resPos, Nat.zero_add]

/-! ### A frame whose reading breaks off in one of its fields -/

/-- The fields of the frames a decoder with parameters `p` accepts under the index `k`, one source call each (R180). -/
inductive FrameFields (p : Params) (k : Nat) : List Bytes → Prop
  | data (b : Bytes) (h1 : 1 ≤ b.length) (hmax : b.length ≤ p.maxBlockLen) : FrameFields p k (dataWrites k b)
  | terminal : FrameFields p k (terminalWrites k)

theorem dataWrites_eq_header (k : Nat) (b : Bytes) :
    dataWrites k b = headerFields k (sha256 b) (BitVec.ofNat 32 b.length) ++ [b] := rfl

theorem terminalWrites_eq_header (k : Nat) : terminalWrites k = headerFields k (List.replicate 32 0x00) 0 ++ [] := rfl

/-- Where the read of any field of a frame raises, so does `ReadFrame`. -/
theorem readFrame_raised {p : Params} {u v : DecSide} {j : Nat} {w : List Bytes} {e : Err} (hp : p.Legal)
    (hw : FrameFields p u.dec.expectedIndex w) (hj : j < w.length) (h : u.source.Delivers (w.take j))
    (hidx : u.dec.expectedIndex < 2 ^ 32)
    (hraise : srcField w[j].length (u.afterFields (w.take j)) = .raised e v) :
    readFrame p u = .raised e v := by
  cases hw with
  | terminal => exact readFrame_header_raised (terminalWrites_eq_header _) hj hj h hidx (by simp) hraise
  | data b h1 hmax =>
    have hd := sha256_length b
    by_cases hj3 : j < 3
    · exact readFrame_header_raised (dataWrites_eq_header _ b) hj hj3 h hidx hd hraise
    · have hlast : j = 3 := by
        simp only [dataWrites, List.length_cons, List.length_nil] at hj
        omega
      subst hlast
      have hpayload : srcField b.length
          (u.afterFields (headerFields u.dec.expectedIndex (sha256 b) (BitVec.ofNat 32 b.length))) =
            .raised e v := hraise
      rw [readFrame_header (post := []) h hidx hd, toNat_ofNat_payload_length hp hmax, readBody_data _ _ h1 hmax,
        acceptData, hpayload, bind_raised]

/-- A length below that of the whole sequence ends inside one of its fields. -/
theorem exists_field_of_length_lt {w : List Bytes} {n : Nat} (h : n < w.flatten.length) :
    ∃ (j : Nat) (hj : j < w.length),
      (w.take j).flatten.length ≤ n ∧ n < (w.take j).flatten.length + w[j].length := by
  induction w generalizing n with
  | nil => simp at h
  | cons b w ih =>
    by_cases hb : n < b.length
    · exact ⟨0, by simp, by simp, by simpa using hb⟩
    · rw [List.flatten_cons, List.length_append] at h
      obtain ⟨j, hj, hle, hlt⟩ := ih (n := n - b.length) (by omega)
      refine ⟨j + 1, by simpa using hj, ?_, ?_⟩ <;>
        simp only [List.take_succ_cons, List.flatten_cons, List.length_append, List.getElem_cons_succ] <;> omega

theorem flatten_take_prefix (w : List Bytes) (j : Nat) : (w.take j).flatten <+: w.flatten :=
  ⟨(w.drop j).flatten, by rw [← List.flatten_append, List.take_append_drop]⟩

/-- A source that serves `j` calls and holds the frame delivers its first `j` fields. -/
theorem Source.AnswersAfter.delivers {r : Source} {w : List Bytes} {j : Nat} {a : SourceAnswer}
    {l : List SourceAnswer} (h : r.AnswersAfter j a l) (hw : r.Holds w.flatten) : r.Delivers (w.take j) := by
  refine ⟨(flatten_take_prefix w j).trans hw, fun i hi => ?_⟩
  have hij : i < j := by rw [List.length_take] at hi; omega
  obtain ⟨m, rfl⟩ := Nat.exists_eq_add_of_lt hij
  rw [h, List.drop_append_of_le_length (by simp; omega), List.drop_replicate,
    show i + m + 1 - i = m + 1 by omega, List.replicate_succ, List.cons_append, List.headD_cons]

theorem Source.AnswersAfter.answer {r : Source} {j : Nat} {a : SourceAnswer} {l : List SourceAnswer}
    (h : r.AnswersAfter j a l) (n : Nat) : (r.after j n).answer = a := by
  rw [Source.answer, source_after_answers, h, List.drop_left' (List.length_replicate ..), List.headD_cons]

/-- The source after a call that it did not serve, `j` calls after `r`. -/
theorem Source.AnswersAfter.lost {r : Source} {j : Nat} {a : SourceAnswer} {l : List SourceAnswer}
    (h : r.AnswersAfter j a l) (n : Nat) :
    (r.after j n).lost =
      { r with answers := l, calls := r.calls + j + 1, pos := Config.sourcePosition (r.calls + j) } := by
  have htail : (r.answers.drop j).tail = l := by
    rw [h, List.drop_left' (List.length_replicate ..), List.tail_cons]
  rw [← htail]
  rfl

/-! ### `DEC.READ` at a frame -/

/-- At a frame boundary `DEC.READ` reads a frame, then delivers of it (R172). -/
theorem exec_decRead_atFrame {n : U32} {s : State} (hn : n ≠ 0) (hs : s.dec.AtFrame) :
    exec (.decRead n) s =
      .next (s.finishDec ((readFrame s.params s.decSide).bind fun _ u => deliver n u)) := by
  obtain ⟨herr, hterm, hres, hwait⟩ := hs
  show execDecRead n s = _
  rw [execDecRead, if_neg (show n ≠ 0#32 from hn), decCommand_idle _ hwait, decAdmit_ready herr, bind_done,
    refill_frame _ hres hterm]

/-- An error of the frame is latched and answered, the registers otherwise as they were. -/
theorem exec_decRead_raised {n : U32} {s : State} {e : Err} {v : DecSide} (hn : n ≠ 0) (hs : s.dec.AtFrame)
    (hread : readFrame s.params s.decSide = .raised e v) (hv : v.dec = s.dec) :
    exec (.decRead n) s = .next
      { s with
        dec := { s.dec with err := some e }
        source := v.source
        responses := s.responses ++ [.error e] } := by
  rw [exec_decRead_atFrame hn hs, hread, ← hv]
  rfl

/-- The read of a field that raises is the outcome of the whole command. -/
theorem exec_decRead_fieldRaised {n : U32} {s : State} {j : Nat} {w : List Bytes} {e : Err} (hn : n ≠ 0)
    (hp : s.params.Legal) (hs : s.dec.AtFrame) (hidx : s.dec.expectedIndex < 2 ^ 32)
    (hw : FrameFields s.params s.dec.expectedIndex w) (hj : j < w.length) (h : s.source.Delivers (w.take j))
    (hraise : srcField w[j].length (s.decSide.afterFields (w.take j)) =
      .raised e { dec := s.dec, source := (s.decSide.afterFields (w.take j)).source.lost }) :
    exec (.decRead n) s = .next
      { s with
        dec := { s.dec with err := some e }
        source := (s.source.after j (w.take j).flatten.length).lost
        responses := s.responses ++ [.error e] } := by
  have hlength : (w.take j).length = j := List.length_take_of_le hj.le
  rw [exec_decRead_raised hn hs (readFrame_raised hp hw hj h hidx hraise) rfl, afterFields_source, hlength]
  rfl

/-! ### The statements -/

/-- Settles O47: the index is the first field read. -/
theorem wrongIndexIsMalformed : Obligations.WrongIndexIsMalformed := by
  unfold Obligations.WrongIndexIsMalformed
  intro n idx s hn hs hsource hholds hidx
  have hdelivers : s.source.Delivers [le32Enc idx] := hsource.delivers (by simpa using hholds)
  have hread := readFrame_wrongIndex (p := s.params) (u := s.decSide) hdelivers hidx
  exact exec_decRead_raised hn hs hread rfl

/-- Settles O48: a header with a length above the maximum is the last that is read; a negative length is at least 2^31. -/
theorem lengthAboveMaximumIsMalformed : Obligations.LengthAboveMaximumIsMalformed := by
  unfold Obligations.LengthAboveMaximumIsMalformed
  refine ⟨fun n len d s hn hs hsource hidx hd hholds hmax => ?above, fun p len hp hneg => ?negative⟩
  case above =>
    have hread := readFrame_of_holds_header (p := s.params) (u := s.decSide) hsource hidx hd hholds
    rw [readBody_above _ _ hmax] at hread
    exact exec_decRead_raised hn hs hread rfl
  case negative =>
    obtain ⟨-, -, hle⟩ := hp
    have hhalf : 2 ^ 31 ≤ len.toNat := by
      rw [BitVec.toInt_eq_toNat_cond] at hneg
      split at hneg <;> omega
    omega

/-- Settles O46: with length 0 the digest alone decides. -/
theorem terminalFrameIsAcceptedExactlyOnZeroDigest : Obligations.TerminalFrameIsAcceptedExactlyOnZeroDigest := by
  unfold Obligations.TerminalFrameIsAcceptedExactlyOnZeroDigest
  intro n d s hn hs hsource hidx hd hholds
  have hread := readFrame_of_holds_header (p := s.params) (u := s.decSide) hsource hidx hd hholds
  rw [show (0 : U32).toNat = 0 from rfl, readBody_zero] at hread
  refine ⟨fun hzero => ?eos, fun hother => ?malformed⟩
  case eos =>
    rw [exec_decRead_atFrame hn hs, hread, acceptTerminal_zeros _ hzero, bind_answered]
    rfl
  case malformed =>
    rw [acceptTerminal_other _ hother] at hread
    exact exec_decRead_raised hn hs hread rfl

/-- Settles O45: a frame delivered whole is accepted or refused by the digest of its payload, and what is buffered is what
was read. -/
theorem dataFrameIsAcceptedExactlyOnItsDigest : Obligations.DataFrameIsAcceptedExactlyOnItsDigest := by
  unfold Obligations.DataFrameIsAcceptedExactlyOnItsDigest
  intro n p d s hn hp hs hsource hidx h1 hmax hd hholds
  have hread := readFrame_of_holds_data (u := s.decSide) hp hsource hidx hd h1 hmax hholds
  refine ⟨fun hdigest => ⟨memWrite s.dec.res 0 p, ?accepted, ?buffered, ?kept⟩, fun hdigest => ?refused⟩
  case accepted =>
    rw [exec_decRead_atFrame hn hs, hread, if_neg (not_not.mpr hdigest), bind_done, deliver_acceptBlock]
    rfl
  case buffered =>
    rw [memRead_memWrite_part _ _ _ _ _ (by omega), List.drop_zero, List.take_length]
  case kept =>
    intro a ha
    rw [readByte, readCell_memWrite, if_neg (by omega), readByte]
  case refused =>
    rw [if_pos hdigest] at hread
    exact exec_decRead_raised hn hs hread rfl

/-- Settles O49: the fields before the one that fails are delivered, and its error is that of the command. A source that ends
too soon ends inside one field. -/
theorem fieldFailuresAreReported : Obligations.FieldFailuresAreReported := by
  unfold Obligations.FieldFailuresAreReported
  refine ⟨fun n f j a e l s hn hp hs hidx hframe hholds hanswers hae => ?answers,
    fun n b q s hn hp hs hsource hidx h1 hmax hq hrest => ?ends⟩
  case answers =>
    obtain ⟨w, hw, rfl, hj⟩ : ∃ w, FrameFields s.params s.dec.expectedIndex w ∧ w.flatten = f ∧ j < w.length := by
      rcases hframe with ⟨b, rfl, h1, hmax, hj⟩ | ⟨rfl, hj⟩
      · exact ⟨_, .data b h1 hmax, dataWrites_flatten _ b, hj⟩
      · exact ⟨_, .terminal, terminalWrites_flatten _, hj⟩
    have hlength : (w.take j).length = j := List.length_take_of_le hj.le
    have hanswer : (s.decSide.afterFields (w.take j)).source.answer = a := by
      rw [afterFields_source, hlength]
      exact Source.AnswersAfter.answer hanswers _
    refine ⟨Config.sourcePosition (s.source.calls + j), ?_⟩
    rw [exec_decRead_fieldRaised hn hp hs hidx hw hj (Source.AnswersAfter.delivers hanswers hholds)
      (srcField_raised _ hanswer hae), Source.AnswersAfter.lost hanswers]
  case ends =>
    obtain ⟨w, hw, hprefix, hshort⟩ :
        ∃ w, FrameFields s.params s.dec.expectedIndex w ∧ q <+: w.flatten ∧ q.length < w.flatten.length := by
      rcases hq with ⟨hprefix, hshort⟩ | ⟨hprefix, hshort⟩
      · exact ⟨_, .data b h1 hmax, by rwa [dataWrites_flatten], by rwa [dataWrites_flatten, dataFrame_length]⟩
      · exact ⟨_, .terminal, by rwa [terminalWrites_flatten], by rwa [terminalWrites_flatten, terminalFrame_length]⟩
    obtain ⟨j, hj, hstart, hend⟩ := exists_field_of_length_lt hshort
    have hfields : (w.take j).flatten <+: q :=
      List.prefix_of_prefix_length_le (flatten_take_prefix w j) hprefix hstart
    have hdelivers : s.source.Delivers (w.take j) := hsource.delivers (by rwa [Source.Holds, hrest])
    have hleft : ((s.decSide.afterFields (w.take j)).source.data.drop
        (s.decSide.afterFields (w.take j)).source.pos).length < w[j].length := by
      rw [afterFields_source, source_after_data, source_after_pos, decSide_source, ← List.drop_drop, hrest,
        List.length_drop]
      omega
    exact ⟨_, exec_decRead_fieldRaised hn hp hs hidx hw hj hdelivers
      (srcField_ended (hsource.after _ _).answer hleft), rfl⟩

end Sys2Proof.Machine

/-! Units with a latched error (spec/60_exceptions.md R214): the commands of each unit, and how one ends that its unit's
admission answers. -/

namespace Sys2Proof.Machine

/-! ### The commands of a unit -/

theorem commandUnit_eq_enc_iff {i : Instr} :
    commandUnit i = some .enc ↔
      (∃ cfg, i = .encInit cfg) ∨ (∃ data, i = .encWrite data) ∨ i = .encFlush ∨ i = .encClose := by
  cases i <;> simp [commandUnit]

theorem commandUnit_eq_dec_iff {i : Instr} : commandUnit i = some .dec ↔ i = .decInit ∨ ∃ n, i = .decRead n := by
  cases i <;> simp [commandUnit]

/-! ### A command that its unit's admission answers -/

@[simp] theorem withEncSide_encSide (s : State) : s.withEncSide s.encSide = s := rfl
@[simp] theorem withDecSide_decSide (s : State) : s.withDecSide s.decSide = s := rfl

/-- Whatever an encoder command does after its admission, an answer of the admission ends it with the state as it was. -/
theorem encCommand_admit_answered (rest : Unit → EncSide → Flow EncSide Payload) {s : State} {r : Response}
    (hw : s.enc.waiting = false) (hadmit : encAdmit s.encSide = .answered r s.encSide) :
    encCommand (fun u => (encAdmit u).bind rest) s = .next (s.respond r) := by
  rw [encCommand_idle _ hw, hadmit, bind_answered, State.finishEnc, withEncSide_encSide]

/-- Whatever a decoder command does after its admission, an answer of the admission ends it with the state as it was. -/
theorem decCommand_admit_answered (rest : Unit → DecSide → Flow DecSide Payload) {s : State} {r : Response}
    (hw : s.dec.waiting = false) (hadmit : decAdmit s.decSide = .answered r s.decSide) :
    decCommand (fun u => (decAdmit u).bind rest) s = .next (s.respond r) := by
  rw [decCommand_idle _ hw, hadmit, bind_answered, State.finishDec, withDecSide_decSide]

/-- Every encoder command but `ENC.INIT` begins with the admission (R140). -/
theorem exec_enc_admit_answered {i : Instr} {s : State} {r : Response} (hunit : commandUnit i = some .enc)
    (hinit : ∀ cfg, i ≠ .encInit cfg) (hw : s.enc.waiting = false)
    (hadmit : encAdmit s.encSide = .answered r s.encSide) : exec i s = .next (s.respond r) := by
  rcases commandUnit_eq_enc_iff.mp hunit with ⟨cfg, rfl⟩ | ⟨data, rfl⟩ | rfl | rfl
  · exact absurd rfl (hinit cfg)
  · exact encCommand_admit_answered _ hw hadmit
  · exact encCommand_admit_answered _ hw hadmit
  · exact encCommand_admit_answered _ hw hadmit

/-- `DEC.READ` begins with the admission (R172), unless its count makes it illegal (R92). -/
theorem exec_decRead_admit_answered {n : U32} {s : State} {r : Response} (hn : n ≠ 0) (hw : s.dec.waiting = false)
    (hadmit : decAdmit s.decSide = .answered r s.decSide) : exec (.decRead n) s = .next (s.respond r) := by
  show execDecRead n s = _
  rw [execDecRead, if_neg (show n ≠ 0#32 from hn)]
  exact decCommand_admit_answered _ hw hadmit

/-! ### The statement -/

/-- Settles O30: a latched error is the answer of the admission, with which every command but the unit's `INIT` begins. -/
theorem failedUnitsReRaise : Obligations.FailedUnitsReRaise := by
  unfold Obligations.FailedUnitsReRaise
  refine ⟨fun s e i hw herr hunit hinit => exec_enc_admit_answered hunit hinit hw (encAdmit_failed herr),
    fun s e i hw herr hunit hinit hwf => ?decoder⟩
  case decoder =>
    obtain ⟨n, rfl⟩ := (commandUnit_eq_dec_iff.mp hunit).resolve_left hinit
    have hn : n ≠ 0 := of_decide_eq_true hwf
    exact exec_decRead_admit_answered hn hw (decAdmit_failed herr)

end Sys2Proof.Machine

/-! The command encoding (spec/30_encoding.md R87 to R92): what the decoder of each format accepts, that decoding and
encoding are inverse on well-formed commands, and that these are the legal transactions. -/

namespace Sys2Proof.Machine

/-! ### Operands as bytes -/

/-- Four bytes are the encoding of the cell they decode to (R110, R111). -/
theorem le32Enc_le32Dec {b : Bytes} (h : b.length = 4) : le32Enc (le32Dec b) = b := by
  have henc := leEnc_leDec (w := 32) b (by omega)
  rwa [h] at henc

/-- Eight bytes are the encoding of the number they decode to (R112, R113). -/
theorem le64Enc_le64Dec {b : Bytes} (h : b.length = 8) : le64Enc (le64Dec b) = b := by
  have henc := leEnc_leDec (w := 64) b (by omega)
  rwa [h] at henc

@[simp] theorem le64Dec_le64Enc (v : U64) : le64Dec (le64Enc v) = v :=
  BitVec.eq_of_toNat_eq <| by rw [le64Dec_toNat _ (le64Enc_length v), leDec_le64Enc]

/-! ### What the decoder of each format accepts -/

section Formats

variable {op : Byte} {rest : Bytes} {i : Instr}

theorem decodeN_eq_ok {c : Instr} : decodeN op c rest = .ok i ↔ rest = [] ∧ i = c := by
  cases rest <;> simp [decodeN, eq_comm]

theorem decodeB_eq_ok {f : Byte → Instr} : decodeB op f rest = .ok i ↔ ∃ b, rest = [b] ∧ i = f b := by
  unfold decodeB
  split
  · simp [eq_comm]
  · next h => simpa using fun b hb _ => h b hb

theorem decodeW_eq_ok {f : Byte → Byte → Byte → Byte → Instr} :
    decodeW op f rest = .ok i ↔ ∃ b0 b1 b2 b3, rest = [b0, b1, b2, b3] ∧ i = f b0 b1 b2 b3 := by
  unfold decodeW
  split
  · simp [eq_comm]
  · next h => simpa using fun b0 b1 b2 b3 hb _ => h b0 b1 b2 b3 hb

theorem decodeQ_eq_ok {f : Byte → Byte → Byte → Byte → Byte → Byte → Byte → Byte → Instr} :
    decodeQ op f rest = .ok i ↔ ∃ b0 b1 b2 b3 b4 b5 b6 b7,
      rest = [b0, b1, b2, b3, b4, b5, b6, b7] ∧ i = f b0 b1 b2 b3 b4 b5 b6 b7 := by
  unfold decodeQ
  split
  · simp [eq_comm]
  · next h => simpa using fun b0 b1 b2 b3 b4 b5 b6 b7 hb _ => h b0 b1 b2 b3 b4 b5 b6 b7 hb

/-- Format W with one `u32` operand. -/
theorem decodeW_word_eq_ok {f : U32 → Instr} :
    decodeW op (word f) rest = .ok i ↔ ∃ v, rest = le32Enc v ∧ i = f v := by
  rw [decodeW_eq_ok]
  constructor
  · rintro ⟨b0, b1, b2, b3, rfl, rfl⟩
    exact ⟨le32Dec [b0, b1, b2, b3], (le32Enc_le32Dec rfl).symm, rfl⟩
  · rintro ⟨v, rfl, rfl⟩
    refine ⟨_, _, _, _, le32Enc_eq_bytes v, ?_⟩
    rw [word, ← le32Enc_eq_bytes, le32Dec_le32Enc]

theorem le64Enc_eq_bytes (v : U64) :
    le64Enc v = [v.extractLsb' 0 8, v.extractLsb' 8 8, v.extractLsb' 16 8, v.extractLsb' 24 8,
      v.extractLsb' 32 8, v.extractLsb' 40 8, v.extractLsb' 48 8, v.extractLsb' 56 8] := rfl

/-- Format Q with one `u64` operand. -/
theorem decodeQ_quad_eq_ok {f : U64 → Instr} :
    decodeQ op (quad f) rest = .ok i ↔ ∃ v, rest = le64Enc v ∧ i = f v := by
  rw [decodeQ_eq_ok]
  constructor
  · rintro ⟨b0, b1, b2, b3, b4, b5, b6, b7, rfl, rfl⟩
    exact ⟨le64Dec [b0, b1, b2, b3, b4, b5, b6, b7], (le64Enc_le64Dec rfl).symm, rfl⟩
  · rintro ⟨v, rfl, rfl⟩
    refine ⟨_, _, _, _, _, _, _, _, le64Enc_eq_bytes v, ?_⟩
    rw [quad, ← le64Enc_eq_bytes, le64Dec_le64Enc]

/-- Format WW: two `u32` operands. -/
theorem decodeQ_twoWords_eq_ok {f : U32 → U32 → Instr} :
    decodeQ op (twoWords f) rest = .ok i ↔ ∃ a b, rest = le32Enc a ++ le32Enc b ∧ i = f a b := by
  rw [decodeQ_eq_ok]
  constructor
  · rintro ⟨b0, b1, b2, b3, b4, b5, b6, b7, rfl, rfl⟩
    refine ⟨le32Dec [b0, b1, b2, b3], le32Dec [b4, b5, b6, b7], ?_, rfl⟩
    rw [le32Enc_le32Dec rfl, le32Enc_le32Dec rfl]
    rfl
  · rintro ⟨a, b, rfl, rfl⟩
    refine ⟨_, _, _, _, _, _, _, _, rfl, ?_⟩
    rw [twoWords, ← le32Enc_eq_bytes, ← le32Enc_eq_bytes, le32Dec_le32Enc, le32Dec_le32Enc]

/-- Format D: the count is that of the bytes that follow it, so it fits its eight bytes (R88). -/
theorem decodeD_eq_ok {f : Bytes → Instr} :
    decodeD op f rest = .ok i ↔
      ∃ data, WellFormedData data ∧ rest = le64Enc (BitVec.ofNat 64 data.length) ++ data ∧ i = f data := by
  unfold decodeD
  constructor
  · intro h
    split at h
    · next hcount =>
      obtain ⟨h8, hlen⟩ := hcount
      have htake : (rest.take 8).length = 8 := List.length_take_of_le h8
      have hlt := leDec_lt (rest.take 8)
      rw [htake] at hlt
      refine ⟨rest.drop 8, by omega, ?_, (Except.ok.inj h).symm⟩
      rw [← hlen]
      exact (List.take_append_drop 8 rest).symm.trans (congrArg (· ++ _) (le64Enc_le64Dec htake).symm)
    · exact nomatch h
  · rintro ⟨data, hdata, rfl, rfl⟩
    have h8 := le64Enc_length (BitVec.ofNat 64 data.length)
    rw [List.take_left' h8, List.drop_left' h8, leDec_le64Enc, BitVec.toNat_ofNat, Nat.mod_eq_of_lt hdata,
      if_pos ⟨by rw [List.length_append]; omega, rfl⟩]

end Formats

/-! ### The decoder and the encoder -/

/-- The decoder accepts the encoding of a well-formed command, and answers that command (R87 to R91). -/
theorem decode_encode {i : Instr} (h : WellFormed i = true) : decode (encode i) = .ok i := by
  cases i with
  | encInit cfg => exact decodeW_word_eq_ok (op := 0x10).mpr ⟨cfg, rfl, rfl⟩
  | encWrite data => exact decodeD_eq_ok (op := 0x11).mpr ⟨data, of_decide_eq_true h, rfl, rfl⟩
  | encFlush => rfl
  | encClose => rfl
  | decInit => rfl
  | decRead n => exact decodeW_word_eq_ok (op := 0x21).mpr ⟨n, rfl, rfl⟩
  | le32Enc v => exact decodeW_word_eq_ok (op := 0x30).mpr ⟨v, rfl, rfl⟩
  | le32Dec b0 b1 b2 b3 => rfl
  | le64Enc v => exact decodeQ_quad_eq_ok (op := 0x32).mpr ⟨v, rfl, rfl⟩
  | le64Dec b0 b1 b2 b3 b4 b5 b6 b7 => rfl
  | u32ToU64 c => exact decodeW_word_eq_ok (op := 0x34).mpr ⟨c, rfl, rfl⟩
  | u32FromU64 v => exact decodeQ_quad_eq_ok (op := 0x35).mpr ⟨v, rfl, rfl⟩
  | u32FromByte b => rfl
  | u32Eq a b => exact decodeQ_twoWords_eq_ok (op := 0x37).mpr ⟨a, b, rfl, rfl⟩
  | u32Cmp a b => exact decodeQ_twoWords_eq_ok (op := 0x38).mpr ⟨a, b, rfl, rfl⟩
  | u32Hash c => exact decodeW_word_eq_ok (op := 0x39).mpr ⟨c, rfl, rfl⟩
  | sha256 data => exact decodeD_eq_ok (op := 0x3A).mpr ⟨data, of_decide_eq_true h, rfl, rfl⟩

theorem eq_ofNat_of_toNat_eq {op : Byte} {n : Nat} (h : op.toNat = n) : op = BitVec.ofNat 8 n := by
  rw [← h, BitVec.ofNat_toNat, BitVec.setWidth_eq]

/-- The command is the one whose encoding the transaction is, and is well formed but for the count 0 of `DEC.READ` (R92). -/
def DecodesTo (b : Bytes) (i : Instr) : Prop := encode i = b ∧ (WellFormed i = true ∨ i = .decRead 0)

/-- Opcode by opcode, the decoder drops no bit of what it accepts. -/
theorem decodesTo_of_decode {b : Bytes} {i : Instr} (h : decode b = .ok i) : DecodesTo b i := by
  cases b with
  | nil => exact nomatch h
  | cons op rest =>
    rw [decode] at h
    split at h
    case h_18 => exact nomatch h
    all_goals cases eq_ofNat_of_toNat_eq ‹op.toNat = _›
    case h_1 => obtain ⟨v, rfl, rfl⟩ := decodeW_word_eq_ok.mp h; exact ⟨rfl, .inl rfl⟩
    case h_2 => obtain ⟨d, hd, rfl, rfl⟩ := decodeD_eq_ok.mp h; exact ⟨rfl, .inl (decide_eq_true hd)⟩
    case h_3 => obtain ⟨rfl, rfl⟩ := decodeN_eq_ok.mp h; exact ⟨rfl, .inl rfl⟩
    case h_4 => obtain ⟨rfl, rfl⟩ := decodeN_eq_ok.mp h; exact ⟨rfl, .inl rfl⟩
    case h_5 => obtain ⟨rfl, rfl⟩ := decodeN_eq_ok.mp h; exact ⟨rfl, .inl rfl⟩
    case h_6 =>
      obtain ⟨n, rfl, rfl⟩ := decodeW_word_eq_ok.mp h
      by_cases hn : n = 0#32
      · exact ⟨rfl, .inr (congrArg Instr.decRead hn)⟩
      · exact ⟨rfl, .inl (decide_eq_true hn)⟩
    case h_7 => obtain ⟨v, rfl, rfl⟩ := decodeW_word_eq_ok.mp h; exact ⟨rfl, .inl rfl⟩
    case h_8 => obtain ⟨b0, b1, b2, b3, rfl, rfl⟩ := decodeW_eq_ok.mp h; exact ⟨rfl, .inl rfl⟩
    case h_9 => obtain ⟨v, rfl, rfl⟩ := decodeQ_quad_eq_ok.mp h; exact ⟨rfl, .inl rfl⟩
    case h_10 => obtain ⟨b0, b1, b2, b3, b4, b5, b6, b7, rfl, rfl⟩ := decodeQ_eq_ok.mp h; exact ⟨rfl, .inl rfl⟩
    case h_11 => obtain ⟨v, rfl, rfl⟩ := decodeW_word_eq_ok.mp h; exact ⟨rfl, .inl rfl⟩
    case h_12 => obtain ⟨v, rfl, rfl⟩ := decodeQ_quad_eq_ok.mp h; exact ⟨rfl, .inl rfl⟩
    case h_13 => obtain ⟨b, rfl, rfl⟩ := decodeB_eq_ok.mp h; exact ⟨rfl, .inl rfl⟩
    case h_14 => obtain ⟨a, b, rfl, rfl⟩ := decodeQ_twoWords_eq_ok.mp h; exact ⟨rfl, .inl rfl⟩
    case h_15 => obtain ⟨a, b, rfl, rfl⟩ := decodeQ_twoWords_eq_ok.mp h; exact ⟨rfl, .inl rfl⟩
    case h_16 => obtain ⟨v, rfl, rfl⟩ := decodeW_word_eq_ok.mp h; exact ⟨rfl, .inl rfl⟩
    case h_17 => obtain ⟨d, hd, rfl, rfl⟩ := decodeD_eq_ok.mp h; exact ⟨rfl, .inl (decide_eq_true hd)⟩

/-! ### The legal transactions -/

/-- The operands of format D as R88 gives them. -/
theorem leDec_take_count {data : Bytes} (h : WellFormedData data) :
    8 ≤ (le64Enc (BitVec.ofNat 64 data.length) ++ data).length ∧
      leDec ((le64Enc (BitVec.ofNat 64 data.length) ++ data).take 8) =
        (le64Enc (BitVec.ofNat 64 data.length) ++ data).length - 8 := by
  rw [List.take_left' (le64Enc_length _), leDec_le64Enc, BitVec.toNat_ofNat, Nat.mod_eq_of_lt h,
    List.length_append, le64Enc_length]
  omega

/-- Every well-formed command has a legal transaction. -/
theorem legalTransaction_encode {i : Instr} (h : WellFormed i = true) : LegalTransaction (encode i) := by
  refine ⟨i.opcode, rfl, ?_⟩
  show LegalOperands i.opcode i.operandBytes
  cases i with
  | encFlush => exact .inl ⟨by decide, rfl⟩
  | encClose => exact .inl ⟨by decide, rfl⟩
  | decInit => exact .inl ⟨by decide, rfl⟩
  | u32FromByte b => exact .inr (.inl ⟨rfl, rfl⟩)
  | encInit cfg => exact .inr (.inr (.inl ⟨by simp [Instr.opcode], rfl⟩))
  | le32Enc v => exact .inr (.inr (.inl ⟨by simp [Instr.opcode], rfl⟩))
  | le32Dec b0 b1 b2 b3 => exact .inr (.inr (.inl ⟨by simp [Instr.opcode], rfl⟩))
  | u32ToU64 c => exact .inr (.inr (.inl ⟨by simp [Instr.opcode], rfl⟩))
  | u32Hash c => exact .inr (.inr (.inl ⟨by simp [Instr.opcode], rfl⟩))
  | decRead n =>
    refine .inr (.inr (.inr (.inl ⟨rfl, rfl, fun hzero => ?_⟩)))
    have hn : n = le32Dec [0x00#8, 0x00#8, 0x00#8, 0x00#8] := by rw [← hzero]; exact (le32Dec_le32Enc n).symm
    exact of_decide_eq_true h (hn.trans (by decide))
  | le64Enc v => exact .inr (.inr (.inr (.inr (.inl ⟨by simp [Instr.opcode], rfl⟩))))
  | le64Dec b0 b1 b2 b3 b4 b5 b6 b7 => exact .inr (.inr (.inr (.inr (.inl ⟨by simp [Instr.opcode], rfl⟩))))
  | u32FromU64 v => exact .inr (.inr (.inr (.inr (.inl ⟨by simp [Instr.opcode], rfl⟩))))
  | u32Eq a b => exact .inr (.inr (.inr (.inr (.inl ⟨by simp [Instr.opcode], rfl⟩))))
  | u32Cmp a b => exact .inr (.inr (.inr (.inr (.inl ⟨by simp [Instr.opcode], rfl⟩))))
  | encWrite data =>
    exact .inr (.inr (.inr (.inr (.inr ⟨by simp [Instr.opcode], leDec_take_count (of_decide_eq_true h)⟩))))
  | sha256 data =>
    exact .inr (.inr (.inr (.inr (.inr ⟨by simp [Instr.opcode], leDec_take_count (of_decide_eq_true h)⟩))))

/-- Every legal transaction decodes to a well-formed command. -/
theorem exists_decode_of_legal {b : Bytes} (h : LegalTransaction b) : ∃ i, decode b = .ok i ∧ WellFormed i = true := by
  suffices ∃ i, WellFormed i = true ∧ encode i = b by
    obtain ⟨i, hwf, rfl⟩ := this
    exact ⟨i, decode_encode hwf, hwf⟩
  obtain ⟨op, hhead, hlegal⟩ := h
  obtain ⟨rest, rfl⟩ : ∃ rest, b = op :: rest := ⟨b.tail, List.eq_cons_of_mem_head? hhead⟩
  rw [List.tail_cons] at hlegal
  rcases hlegal with ⟨hop, hlen⟩ | ⟨rfl, hlen⟩ | ⟨hop, hlen⟩ | ⟨rfl, hlen, hne⟩ | ⟨hop, hlen⟩ | ⟨hop, h8, hcount⟩
  case inl =>
    obtain rfl := List.length_eq_zero_iff.mp hlen
    simp only [List.mem_cons, List.not_mem_nil, or_false] at hop
    rcases hop with rfl | rfl | rfl
    exacts [⟨.encFlush, rfl, rfl⟩, ⟨.encClose, rfl, rfl⟩, ⟨.decInit, rfl, rfl⟩]
  case inr.inl =>
    obtain ⟨b, rfl⟩ := List.length_eq_one_iff.mp hlen
    exact ⟨.u32FromByte b, rfl, rfl⟩
  case inr.inr.inl =>
    obtain ⟨v, rfl⟩ : ∃ v, rest = le32Enc v := ⟨_, (le32Enc_le32Dec hlen).symm⟩
    simp only [List.mem_cons, List.not_mem_nil, or_false] at hop
    rcases hop with rfl | rfl | rfl | rfl | rfl
    exacts [⟨.encInit v, rfl, rfl⟩, ⟨.le32Enc v, rfl, rfl⟩, ⟨.le32Dec _ _ _ _, rfl, rfl⟩, ⟨.u32ToU64 v, rfl, rfl⟩,
      ⟨.u32Hash v, rfl, rfl⟩]
  case inr.inr.inr.inl =>
    refine ⟨.decRead (le32Dec rest), decide_eq_true fun hzero => hne ?_, congrArg _ (le32Enc_le32Dec hlen)⟩
    rw [← le32Enc_le32Dec hlen, hzero]
    decide
  case inr.inr.inr.inr.inl =>
    have hfirst : (rest.take 4).length = 4 := List.length_take_of_le (by omega)
    have hlast : (rest.drop 4).length = 4 := by rw [List.length_drop]; omega
    have hwords : le32Enc (le32Dec (rest.take 4)) ++ le32Enc (le32Dec (rest.drop 4)) = rest := by
      rw [le32Enc_le32Dec hfirst, le32Enc_le32Dec hlast, List.take_append_drop]
    have hquad := le64Enc_le64Dec hlen
    simp only [List.mem_cons, List.not_mem_nil, or_false] at hop
    rcases hop with rfl | rfl | rfl | rfl | rfl
    exacts [⟨.le64Enc (le64Dec rest), rfl, congrArg _ hquad⟩,
      ⟨.le64Dec _ _ _ _ _ _ _ _, rfl, congrArg _ ((le64Enc_eq_bytes _).symm.trans hquad)⟩,
      ⟨.u32FromU64 (le64Dec rest), rfl, congrArg _ hquad⟩,
      ⟨.u32Eq _ _, rfl, congrArg _ hwords⟩, ⟨.u32Cmp _ _, rfl, congrArg _ hwords⟩]
  case inr.inr.inr.inr.inr =>
    obtain ⟨data, hdata, rfl, -⟩ : ∃ data, WellFormedData data ∧
        rest = le64Enc (BitVec.ofNat 64 data.length) ++ data ∧ Instr.encWrite (rest.drop 8) = .encWrite data :=
      decodeD_eq_ok (op := op).mp (if_pos ⟨h8, by rw [hcount, List.length_drop]⟩)
    simp only [List.mem_cons, List.not_mem_nil, or_false] at hop
    rcases hop with rfl | rfl
    exacts [⟨.encWrite data, decide_eq_true hdata, rfl⟩, ⟨.sha256 data, decide_eq_true hdata, rfl⟩]

/-! ### What a step does with a transaction -/

theorem step_command {s : State} {b : Bytes} {rest : List HostEvent} (h : s.events = .command b :: rest) :
    step s = runTransaction b { s with events := rest } := by
  rw [step, h]

theorem runTransaction_of_decode {b : Bytes} {i : Instr} (h : decode b = .ok i) (s : State) :
    runTransaction b s = exec i s := by
  rw [runTransaction, h]

/-- What is not legal is either not decoded or decoded to `DEC.READ 0`; both are answered alike (R92). -/
theorem runTransaction_illegal {b : Bytes} (h : ¬ LegalTransaction b) (s : State) :
    runTransaction b s = .next (s.respond .illegalCommand) := by
  cases hdecode : decode b with
  | error e => rw [runTransaction, hdecode]; rfl
  | ok i =>
    rw [runTransaction_of_decode hdecode]
    obtain ⟨rfl, hwf | rfl⟩ := decodesTo_of_decode hdecode
    · exact absurd (legalTransaction_encode hwf) h
    · rfl

/-! ### The statements -/

/-- Settles O1: format by format, the decoder reads back the operands the encoder wrote. -/
theorem commandEncodingRoundTrip : Obligations.CommandEncodingRoundTrip := by
  unfold Obligations.CommandEncodingRoundTrip
  exact fun i h => decode_encode h

/-- Settles O2: opcode by opcode, the bytes accepted are those of the command answered. -/
theorem decodedTransactionIsTheEncoding : Obligations.DecodedTransactionIsTheEncoding := by
  unfold Obligations.DecodedTransactionIsTheEncoding
  intro b i h
  obtain ⟨hencode, -⟩ := decodesTo_of_decode h
  exact hencode

/-- Settles O3: the legal transactions are exactly the encodings of the well-formed commands. -/
theorem illegalTransactionsAreRefused : Obligations.IllegalTransactionsAreRefused := by
  unfold Obligations.IllegalTransactionsAreRefused
  refine ⟨fun s b rest hevents hillegal => ?_, by decide, fun b => exists_decode_of_legal⟩
  rw [step_command hevents, runTransaction_illegal hillegal]
  rfl

/-- Settles O4, each word by evaluation. -/
theorem sampleWordsDecode : Obligations.SampleWordsDecode := by
  unfold Obligations.SampleWordsDecode
  decide

/-- Settles O6. -/
theorem stepRunsTheDecodedCommand : Obligations.StepRunsTheDecodedCommand := by
  unfold Obligations.StepRunsTheDecodedCommand
  intro s b rest i hevents hdecode
  rw [step_command hevents, runTransaction_of_decode hdecode]

end Sys2Proof.Machine

/-! Every command as one of three: the flow of an encoder command, that of a decoder command, or one response. What a
flow leaves when its command ends, and what the three have in common (spec/10_state.md R31, R41; spec/20_memory.md R64). -/

namespace Sys2Proof.Machine

/-! ### The flows of the commands -/

/-- The flow of `ENC.INIT` (R143). -/
def encInitFlow (p : Params) (cfg : U32) (u : EncSide) : Flow EncSide Payload :=
  match constructionError p with
  | none => .done .empty { u with enc := constructEncoder p cfg u.enc }
  | some e => .raised e { u with enc := constructEncoder p cfg u.enc }

/-- The flow of `DEC.INIT` (R171). -/
def decInitFlow (p : Params) (u : DecSide) : Flow DecSide Payload :=
  match constructionError p with
  | none => .done .empty { u with dec := constructDecoder p u.dec }
  | some e => .raised e { u with dec := constructDecoder p u.dec }

/-- The flow of `DEC.READ n` with `n ≥ 1` (R172). -/
def decReadFlow (p : Params) (n : U32) (u : DecSide) : Flow DecSide Payload :=
  (decAdmit u).bind fun _ u => (refill p u).bind fun _ u => deliver n u

/-- The whole loop of `ENC.WRITE` (R144). -/
def writeBytes (data : Bytes) (u : EncSide) : Flow EncSide Unit := writeLoop (data.length + 1) data u

/-- What an encoder command does once it is admitted: every one but `ENC.INIT` (R144 to R146). -/
def admittedFlow : Instr → EncSide → Flow EncSide Payload
  | .encWrite data, u => (writeBytes data u).bind fun _ u => .done .empty u
  | .encFlush, u => (encCall sinkFlush 2 u).bind fun _ u => .done .empty u
  | .encClose, u => (emitRest u).bind fun _ u => (emitTerminal u).bind fun _ u => flushAndClose u
  | _, u => .done .empty u

/-- The flow of an encoder command. -/
def encFlow (p : Params) : Instr → EncSide → Flow EncSide Payload
  | .encInit cfg, u => encInitFlow p cfg u
  | i, u => (encAdmit u).bind fun _ u => admittedFlow i u

/-- The flow of a decoder command, but for `DEC.READ 0`. -/
def decFlow (p : Params) : Instr → DecSide → Flow DecSide Payload
  | .decRead n, u => decReadFlow p n u
  | _, u => decInitFlow p u

theorem exec_enc {i : Instr} (h : commandUnit i = some .enc) (s : State) :
    exec i s = encCommand (encFlow s.params i) s := by
  rcases commandUnit_eq_enc_iff.mp h with ⟨cfg, rfl⟩ | ⟨data, rfl⟩ | rfl | rfl <;> rfl

theorem exec_dec {i : Instr} (h : commandUnit i = some .dec) (hn : i ≠ .decRead 0) (s : State) :
    exec i s = decCommand (decFlow s.params i) s := by
  rcases commandUnit_eq_dec_iff.mp h with rfl | ⟨n, rfl⟩
  · rfl
  · have hn0 : n ≠ 0#32 := fun h0 => hn (congrArg _ h0)
    show execDecRead n s = _
    rw [execDecRead, if_neg hn0]
    rfl

theorem exec_decRead_zero (s : State) : exec (.decRead 0) s = .next (s.respond .illegalCommand) := rfl

/-- A primitive command's response depends on the parameters alone. -/
theorem exec_prim_alike {i : Instr} (h : commandUnit i = none) {s s' : State} (hp : s'.params = s.params) :
    ∃ r, exec i s = .next (s.respond r) ∧ exec i s' = .next (s'.respond r) := by
  cases i with
  | u32FromU64 v =>
    cases hv : u32FromU64 v with
    | none => exact ⟨_, exec_u32FromU64_none hv s, exec_u32FromU64_none hv s'⟩
    | some c => exact ⟨_, exec_u32FromU64_some hv s, exec_u32FromU64_some hv s'⟩
  | sha256 m =>
    cases hsha : s.params.sha256Available with
    | true => exact ⟨_, exec_sha256_of_available hsha m, exec_sha256_of_available (hp ▸ hsha) m⟩
    | false => exact ⟨_, exec_sha256_of_unavailable hsha m, exec_sha256_of_unavailable (hp ▸ hsha) m⟩
  | encInit cfg => exact nomatch h
  | encWrite data => exact nomatch h
  | encFlush => exact nomatch h
  | encClose => exact nomatch h
  | decInit => exact nomatch h
  | decRead n => exact nomatch h
  | _ => exact ⟨_, rfl, rfl⟩

/-- A command of no unit answers, whatever the state, and does nothing else (R20, R31). -/
theorem exec_prim {i : Instr} (h : commandUnit i = none) (s : State) : ∃ r, exec i s = .next (s.respond r) := by
  obtain ⟨r, hr, -⟩ := exec_prim_alike h (s := s) (s' := s) rfl
  exact ⟨r, hr⟩

/-- All that a command with a next state can have been. -/
inductive Ran (i : Instr) (s t : State) : Prop
  | enc (hunit : commandUnit i = some .enc) (hw : s.enc.waiting = false)
      (h : t = s.finishEnc (encFlow s.params i s.encSide))
  | dec (hunit : commandUnit i = some .dec) (hn : i ≠ .decRead 0) (hw : s.dec.waiting = false)
      (h : t = s.finishDec (decFlow s.params i s.decSide))
  | answered (hunit : commandUnit i = none ∨ i = .decRead 0) (r : Response) (h : t = s.respond r)

theorem ran_of_exec {i : Instr} {s t : State} (h : exec i s = .next t) : Ran i s t := by
  cases hunit : commandUnit i with
  | none =>
    obtain ⟨r, hr⟩ := exec_prim hunit s
    exact .answered (.inl hunit) r (Host.Outcome.next.inj (h.symm.trans hr))
  | some unit =>
    cases unit with
    | enc =>
      obtain ⟨hw, ht⟩ := encCommand_next (exec_enc hunit s ▸ h)
      exact .enc hunit hw ht
    | dec =>
      by_cases hn : i = .decRead 0
      · subst hn
        exact .answered (.inr rfl) _ (Host.Outcome.next.inj h).symm
      · obtain ⟨hw, ht⟩ := decCommand_next (exec_dec hunit hn s ▸ h)
        exact .dec hunit hn hw ht

/-! ### What a flow leaves when its command ends -/

/-- The responses a command gives: one, or none when it waits (R90, R13). -/
def Flow.replies {σ : Type} : Flow σ Payload → List Response
  | .done p _ => [.ok p]
  | .raised e _ => [.error e]
  | .answered r _ => [r]
  | .stuck _ => []

/-- The encoder's side after the command: an error latched, or the encoder waiting (R213, R13). -/
def encAfter {α : Type} : Flow EncSide α → EncSide
  | .done _ u => u
  | .raised e u => { u with enc := { u.enc with err := some e } }
  | .answered _ u => u
  | .stuck u => { u with enc := { u.enc with waiting := true } }

/-- The decoder's side after the command: an error latched, or the decoder waiting (R213, R13). -/
def decAfter {α : Type} : Flow DecSide α → DecSide
  | .done _ u => u
  | .raised e u => { u with dec := { u.dec with err := some e } }
  | .answered _ u => u
  | .stuck u => { u with dec := { u.dec with waiting := true } }

@[simp] theorem encAfter_done {α : Type} (a : α) (u : EncSide) : encAfter (.done a u) = u := rfl
@[simp] theorem encAfter_raised {α : Type} (e : Err) (u : EncSide) :
    encAfter (.raised e u : Flow EncSide α) = { u with enc := { u.enc with err := some e } } := rfl
@[simp] theorem encAfter_answered {α : Type} (r : Response) (u : EncSide) :
    encAfter (.answered r u : Flow EncSide α) = u := rfl
@[simp] theorem encAfter_stuck {α : Type} (u : EncSide) :
    encAfter (.stuck u : Flow EncSide α) = { u with enc := { u.enc with waiting := true } } := rfl

@[simp] theorem decAfter_done {α : Type} (a : α) (u : DecSide) : decAfter (.done a u) = u := rfl
@[simp] theorem decAfter_raised {α : Type} (e : Err) (u : DecSide) :
    decAfter (.raised e u : Flow DecSide α) = { u with dec := { u.dec with err := some e } } := rfl
@[simp] theorem decAfter_answered {α : Type} (r : Response) (u : DecSide) :
    decAfter (.answered r u : Flow DecSide α) = u := rfl
@[simp] theorem decAfter_stuck {α : Type} (u : DecSide) :
    decAfter (.stuck u : Flow DecSide α) = { u with dec := { u.dec with waiting := true } } := rfl

@[simp] theorem replies_done {σ : Type} (p : Payload) (u : σ) : (Flow.done p u).replies = [.ok p] := rfl
@[simp] theorem replies_raised {σ : Type} (e : Err) (u : σ) :
    (Flow.raised e u : Flow σ Payload).replies = [.error e] := rfl
@[simp] theorem replies_answered {σ : Type} (r : Response) (u : σ) :
    (Flow.answered r u : Flow σ Payload).replies = [r] := rfl
@[simp] theorem replies_stuck {σ : Type} (u : σ) : (Flow.stuck u : Flow σ Payload).replies = [] := rfl

theorem finishEnc_eq (s : State) (f : Flow EncSide Payload) :
    s.finishEnc f = { s with
      enc := (encAfter f).enc, sink := (encAfter f).sink, responses := s.responses ++ f.replies } := by
  cases f <;> simp [State.finishEnc, State.withEncSide, State.respond, State.raise, State.latch]

theorem finishDec_eq (s : State) (f : Flow DecSide Payload) :
    s.finishDec f = { s with
      dec := (decAfter f).dec, source := (decAfter f).source, responses := s.responses ++ f.replies } := by
  cases f <;> simp [State.finishDec, State.withDecSide, State.respond, State.raise, State.latch]

@[simp] theorem finishEnc_enc (s : State) (f : Flow EncSide Payload) : (s.finishEnc f).enc = (encAfter f).enc := by
  rw [finishEnc_eq]
@[simp] theorem finishEnc_sink (s : State) (f : Flow EncSide Payload) : (s.finishEnc f).sink = (encAfter f).sink := by
  rw [finishEnc_eq]
@[simp] theorem finishEnc_responses (s : State) (f : Flow EncSide Payload) :
    (s.finishEnc f).responses = s.responses ++ f.replies := by rw [finishEnc_eq]
@[simp] theorem finishDec_dec (s : State) (f : Flow DecSide Payload) : (s.finishDec f).dec = (decAfter f).dec := by
  rw [finishDec_eq]
@[simp] theorem finishDec_source (s : State) (f : Flow DecSide Payload) :
    (s.finishDec f).source = (decAfter f).source := by rw [finishDec_eq]
@[simp] theorem finishDec_responses (s : State) (f : Flow DecSide Payload) :
    (s.finishDec f).responses = s.responses ++ f.replies := by rw [finishDec_eq]

/-! ### Which commands answer a next state -/

theorem exec_enc_idle {i : Instr} {s : State} (h : commandUnit i = some .enc) (hw : s.enc.waiting = false) :
    exec i s = .next (s.finishEnc (encFlow s.params i s.encSide)) := by
  rw [exec_enc h, encCommand_idle _ hw]

/-- Every encoder command but `ENC.INIT` begins with the admission (R140). -/
theorem encFlow_admit (p : Params) {i : Instr} (hinit : ∀ cfg, i ≠ .encInit cfg) (u : EncSide) :
    encFlow p i u = (encAdmit u).bind fun _ v => admittedFlow i v := by
  cases i with
  | encInit cfg => exact absurd rfl (hinit cfg)
  | _ => rfl

/-- An open encoder that does not wait runs its command (R140). -/
theorem exec_admitted {i : Instr} {s : State} (hs : s.enc.Ready) (hunit : commandUnit i = some .enc)
    (hinit : ∀ cfg, i ≠ .encInit cfg) : exec i s = .next (s.finishEnc (admittedFlow i s.encSide)) := by
  obtain ⟨herr, hclosed, hw⟩ := hs
  rw [exec_enc_idle hunit hw, encFlow_admit _ hinit, encAdmit_ready herr hclosed, bind_done]

theorem exec_dec_idle {i : Instr} {s : State} (h : commandUnit i = some .dec) (hn : i ≠ .decRead 0)
    (hw : s.dec.waiting = false) : exec i s = .next (s.finishDec (decFlow s.params i s.decSide)) := by
  rw [exec_dec h hn, decCommand_idle _ hw]

/-- A decoder that does not wait runs a `DEC.READ` (R172). -/
theorem exec_decRead {n : U32} {s : State} (hn : n ≠ 0) (hw : s.dec.waiting = false) :
    exec (.decRead n) s = .next (s.finishDec (decReadFlow s.params n s.decSide)) :=
  exec_dec_idle rfl (fun h => hn (Instr.decRead.inj h)) hw

theorem exec_enc_waiting {i : Instr} {s : State} (h : commandUnit i = some .enc) (hw : s.enc.waiting = true) :
    exec i s = .refused .encoderBusy := by
  rw [exec_enc h, encCommand_waiting _ hw]

theorem exec_dec_waiting {i : Instr} {s : State} (h : commandUnit i = some .dec) (hn : i ≠ .decRead 0)
    (hw : s.dec.waiting = true) : exec i s = .refused .decoderBusy := by
  rw [exec_dec h hn, decCommand_waiting _ hw]

/-- A command completes, unless its unit waits (R13). -/
theorem exec_completes (i : Instr) (s : State) :
    (∃ t, exec i s = .next t) ∨ (s.enc.waiting = true ∧ exec i s = .refused .encoderBusy) ∨
      (s.dec.waiting = true ∧ exec i s = .refused .decoderBusy) := by
  cases hunit : commandUnit i with
  | none =>
    obtain ⟨r, hr⟩ := exec_prim hunit s
    exact .inl ⟨_, hr⟩
  | some unit =>
    cases unit with
    | enc =>
      cases hw : s.enc.waiting with
      | true => exact .inr (.inl ⟨rfl, exec_enc_waiting hunit hw⟩)
      | false => exact .inl ⟨_, exec_enc_idle hunit hw⟩
    | dec =>
      by_cases hn : i = .decRead 0
      · subst hn
        exact .inl ⟨_, exec_decRead_zero s⟩
      · cases hw : s.dec.waiting with
        | true => exact .inr (.inr ⟨rfl, exec_dec_waiting hunit hn hw⟩)
        | false => exact .inl ⟨_, exec_dec_idle hunit hn hw⟩

/-! ### `ENC.INIT` and `DEC.INIT` -/

/-- The response of an `INIT` (R143, R171). -/
def constructionResponse (p : Params) : Response :=
  if p.sha256Available then .ok .empty else .error configurationError

/-- `ENC.INIT` in every mode (R143). -/
theorem exec_encInit (cfg : U32) {s : State} (hw : s.enc.waiting = false) :
    exec (.encInit cfg) s = .next
      { s with
        enc := constructEncoder s.params cfg s.enc
        responses := s.responses ++ [constructionResponse s.params] } := by
  rw [exec_enc_idle rfl hw, finishEnc_eq]
  cases hsha : s.params.sha256Available <;>
    simp [encFlow, encInitFlow, constructionError, constructionResponse, hsha, constructEncoder]

/-- `DEC.INIT` in every mode (R171). -/
theorem exec_decInit {s : State} (hw : s.dec.waiting = false) :
    exec .decInit s = .next
      { s with
        dec := constructDecoder s.params s.dec
        responses := s.responses ++ [constructionResponse s.params] } := by
  rw [exec_dec_idle rfl (by decide) hw, finishDec_eq]
  cases hsha : s.params.sha256Available <;>
    simp [decFlow, decInitFlow, constructionError, constructionResponse, hsha, constructDecoder]

/-! ### The statements -/

/-- Settles O12: only a command can be refused, and only when its unit waits. -/
theorem stepsCompleteUnlessTheUnitWaits : Obligations.StepsCompleteUnlessTheUnitWaits := by
  unfold Obligations.StepsCompleteUnlessTheUnitWaits
  refine ⟨fun s => ?step, fun i s hidle => ?idle⟩
  case step =>
    match hevents : s.events with
    | [] => exact .inl ⟨s, by rw [step, hevents]⟩
    | .attachSink k :: rest => exact .inl ⟨_, by rw [step, hevents]⟩
    | .attachSource r :: rest => exact .inl ⟨_, by rw [step, hevents]⟩
    | .powerOnReset :: rest => exact .inl ⟨_, by rw [step, hevents]⟩
    | .command b :: rest =>
      rw [step_command hevents]
      cases hdecode : decode b with
      | error e => exact .inl ⟨_, by rw [runTransaction, hdecode]⟩
      | ok i =>
        rw [runTransaction_of_decode hdecode]
        exact exec_completes i _
  case idle =>
    obtain ⟨henc, hdec⟩ := hidle
    rcases exec_completes i s with h | ⟨hw, -⟩ | ⟨hw, -⟩
    · exact h
    · simp [henc] at hw
    · simp [hdec] at hw

/-- Settles O54: a flow works on its own unit's side alone. -/
theorem commandsTouchOnlyTheirUnit : Obligations.CommandsTouchOnlyTheirUnit := by
  unfold Obligations.CommandsTouchOnlyTheirUnit
  intro i s t h
  cases ran_of_exec h with
  | enc hunit hw ht =>
    subst ht
    exact ⟨finishEnc_params _ _, finishEnc_events _ _, fun hne => absurd hunit hne,
      fun _ => ⟨finishEnc_dec _ _, finishEnc_source _ _⟩⟩
  | dec hunit hn hw ht =>
    subst ht
    exact ⟨finishDec_params _ _, finishDec_events _ _, fun _ => ⟨finishDec_enc _ _, finishDec_sink _ _⟩,
      fun hne => absurd hunit hne⟩
  | answered hunit r ht =>
    subst ht
    exact ⟨rfl, rfl, fun _ => ⟨rfl, rfl⟩, fun _ => ⟨rfl, rfl⟩⟩

/-- Settles O55: each flow starts from its own side, which the other command leaves as it was. -/
theorem unitsCommute : Obligations.UnitsCommute := by
  unfold Obligations.UnitsCommute
  intro i j s a c hi hj ha hc
  obtain ⟨hw, rfl⟩ := encCommand_next (exec_enc hi s ▸ ha)
  by_cases hn : j = .decRead 0
  · subst hn
    obtain rfl : s.respond .illegalCommand = c := Host.Outcome.next.inj hc
    refine ⟨_, _, exec_decRead_zero _, exec_enc_idle (s := s.respond .illegalCommand) hi hw, ?_,
      _, [.illegalCommand], finishEnc_responses _ _, rfl, ?_, ?_⟩
    · simp [finishEnc_eq, State.respond, State.encSide]
    · simp
    · simp [State.encSide]
  · obtain ⟨hw', rfl⟩ := decCommand_next (exec_dec hj hn s ▸ hc)
    refine ⟨_, _, exec_dec_idle hj hn ((congrArg _ (finishEnc_dec _ _)).trans hw'),
      exec_enc_idle hi ((congrArg _ (finishDec_enc _ _)).trans hw), ?_,
      _, _, finishEnc_responses _ _, finishDec_responses _ _, ?_, ?_⟩
    · simp [finishEnc_eq, finishDec_eq, State.encSide, State.decSide]
    · simp [State.decSide]
    · simp [State.encSide]

end Sys2Proof.Machine

/-! What is no command of a unit in use: attachments and power-on reset, the construction of the units
(spec/10_state.md R39), and the remaining laws of the primitive functions (spec/40_primitive_io.md). -/

namespace Sys2Proof.Machine

/-! ### The host's other events -/

theorem step_idle {s : State} (h : s.events = []) : step s = .next s := by rw [step, h]

theorem step_attachSink {s : State} {k : Sink} {rest : List HostEvent} (h : s.events = .attachSink k :: rest) :
    step s = .next { s with sink := k, events := rest } := by rw [step, h]; rfl

theorem step_attachSource {s : State} {r : Source} {rest : List HostEvent} (h : s.events = .attachSource r :: rest) :
    step s = .next { s with source := r, events := rest } := by rw [step, h]; rfl

theorem step_powerOnReset {s : State} {rest : List HostEvent} (h : s.events = .powerOnReset :: rest) :
    step s = .next (State.powerOnReset { s with events := rest }) := by rw [step, h]

/-! ### Construction -/

/-- A positive `s32` reads the same signed and unsigned (R6). -/
theorem effectiveBlockSize_eq (p : Params) (cfg : U32) :
    effectiveBlockSize p cfg = if 0 < cfg.toInt then cfg.toNat else p.defaultBlockSize := by
  unfold effectiveBlockSize asS32
  split
  · next h => rw [BitVec.toInt_eq_toNat_of_msb (by
      rw [BitVec.msb_eq_toInt, decide_eq_false (by omega)]), Int.toNat_natCast]
  · rfl

/-! ### The invariant of a unit just constructed -/

theorem constructionError_eq_some {p : Params} {e : Err} (h : constructionError p = some e) :
    p.sha256Available = false ∧ e = configurationError := by
  unfold constructionError at h
  split at h
  · exact nomatch h
  · next hsha => exact ⟨by simpa using hsha, (Option.some.inj h).symm⟩

theorem constructionError_of_unavailable {p : Params} (h : p.sha256Available = false) :
    constructionError p = some configurationError := by simp [constructionError, h]

theorem constructEncoder_inv {p : Params} {e : Encoder} (hp : p.Legal) (hwf : e.buf.wf) (cfg : U32) :
    (constructEncoder p cfg e).Inv p where
  wf := hwf
  blockSize_range := effectiveBlockSize_range hp cfg
  fill_le := Nat.zero_le _
  written := fun i hi => absurd hi (Nat.not_lt_zero i)
  nextIndex_le := Nat.zero_le _
  open_fill := fun _ _ => by
    obtain ⟨hpos, -⟩ := effectiveBlockSize_range hp cfg
    exact hpos
  closed_fill := fun _ => rfl
  closed_err := nofun
  err_legal := fun x hx => by
    obtain ⟨hsha, rfl⟩ := constructionError_eq_some hx
    simp [encErrors, hsha]
  unavailable := constructionError_of_unavailable
  waiting_open := nofun

theorem constructDecoder_inv {p : Params} {d : Decoder} (hwf : d.res.wf) (hcap : ∀ c ∈ d.res, c.1 < p.maxBlockLen) :
    (constructDecoder p d).Inv p where
  wf := hwf
  capacity := hcap
  expectedIndex_le := Nat.zero_le _
  residual_range := ⟨Nat.le_refl _, Nat.zero_le _⟩
  written := fun i hi => absurd hi (Nat.not_lt_zero i)
  term_empty := nofun
  err_empty := fun _ => rfl
  term_err := nofun
  err_legal := fun x hx => by
    obtain ⟨hsha, rfl⟩ := constructionError_eq_some hx
    simp [decErrors, hsha]
  unavailable := constructionError_of_unavailable
  waiting_active := nofun

theorem powerOn_inv {p : Params} (hp : p.Legal) : (State.powerOn p).Inv where
  params := hp
  enc := constructEncoder_inv hp List.Pairwise.nil _
  dec := constructDecoder_inv List.Pairwise.nil (fun _ hc => absurd hc List.not_mem_nil)

/-- The parameters of `State.reset` are in the ranges of R7 and R8, whatever their free values are. -/
theorem configParams_legal : Config.params.Legal := by
  have hblock := Config.defaultBlockSizePred.isLt
  have hmax := Config.maxBlockLenPred.isLt
  refine ⟨⟨?_, ?_⟩, ?_, ?_⟩ <;> simp only [Config.params] <;> omega

/-! ### The statements -/

/-- Settles O7. -/
theorem otherHostEvents : Obligations.OtherHostEvents := by
  unfold Obligations.OtherHostEvents
  exact ⟨fun _ => step_idle, fun _ _ _ => step_attachSink, fun _ _ _ => step_attachSource⟩

/-- Settles O8: the construction values, the block size read unsigned. -/
theorem powerOnResetConstructsBothUnits : Obligations.PowerOnResetConstructsBothUnits := by
  unfold Obligations.PowerOnResetConstructsBothUnits
  intro s rest hevents
  rw [step_powerOnReset hevents, ← effectiveBlockSize_eq]
  rfl

/-- Settles O9: the construction values, the block size read unsigned. -/
theorem resetStateHasConstructionValues : Obligations.ResetStateHasConstructionValues := by
  unfold Obligations.ResetStateHasConstructionValues
  intro p
  rw [← effectiveBlockSize_eq]
  exact ⟨rfl, rfl, rfl, rfl, rfl, rfl, rfl, rfl, rfl, rfl, rfl, rfl, rfl, rfl⟩

/-- Settles O10: units just constructed meet their invariants. -/
theorem invariantHoldsAfterReset : Obligations.InvariantHoldsAfterReset := by
  unfold Obligations.InvariantHoldsAfterReset
  exact ⟨fun p => powerOn_inv, powerOn_inv configParams_legal⟩

/-- Settles O29: construction, the block size read unsigned. -/
theorem encInitConstructs : Obligations.EncInitConstructs := by
  unfold Obligations.EncInitConstructs
  intro cfg s hw
  rw [exec_encInit cfg hw, ← effectiveBlockSize_eq]
  rfl

/-- Settles O42, by construction. -/
theorem decInitConstructs : Obligations.DecInitConstructs := by
  unfold Obligations.DecInitConstructs
  intro s hw
  rw [exec_decInit hw]
  rfl

/-- Settles O24: the order and the equality of patterns are those of their unsigned values. -/
theorem u32CmpOrdersAsUnsigned : Obligations.U32CmpOrdersAsUnsigned := by
  unfold Obligations.U32CmpOrdersAsUnsigned
  intro a b s
  simp only [← BitVec.lt_def, BitVec.toNat_inj]
  rfl

/-- Settles O25: the function is the identity. -/
theorem u32HashIsTheRawPattern : Obligations.U32HashIsTheRawPattern := by
  unfold Obligations.U32HashIsTheRawPattern
  exact fun c s => rfl

/-- Settles O26, each law from the unsigned value of its function. -/
theorem primitiveFunctionLaws : Obligations.PrimitiveFunctionLaws := by
  unfold Obligations.PrimitiveFunctionLaws
  refine ⟨le32Dec_le32Enc, fun b => le32Enc_le32Dec, le64Dec_le64Enc, fun b => le64Enc_le64Dec, fun v hv => ?narrow,
    fun c => ?widen, fun b => by rw [u32ToU64_toNat, u32FromByte_toNat], fun c => u32ToU64_toNat c ▸ c.isLt⟩
  case narrow =>
    obtain ⟨hcell, hvalue⟩ := u32FromU64_of_le hv
    rw [hcell, Option.map_some]
    exact congrArg some (BitVec.eq_of_toNat_eq (by rw [u32ToU64_toNat, hvalue]))
  case widen =>
    have hle : (u32ToU64 c).toNat ≤ 2 ^ 32 - 1 := by rw [u32ToU64_toNat]; have := c.isLt; omega
    obtain ⟨hcell, hvalue⟩ := u32FromU64_of_le hle
    rw [hcell]
    exact congrArg some (BitVec.eq_of_toNat_eq (by rw [hvalue, u32ToU64_toNat]))

end Sys2Proof.Machine

/-! The encoder's calls to its sink, one after another (spec/42_block_encoder.md R141, R144, R146): frames as sequences of
writes, where they stop, and the write loop block by block. -/

namespace Sys2Proof.Machine

theorem bind_assoc {σ α β γ : Type} (f : Flow σ α) (g : α → σ → Flow σ β) (h : β → σ → Flow σ γ) :
    (f.bind g).bind h = f.bind fun a u => (g a u).bind h := by
  cases f <;> rfl

/-! ### The sink after some calls -/

/-- The sink answers `ok` to the next `n` calls. -/
def Sink.Serves (k : Sink) (n : Nat) : Prop := ∀ a ∈ k.answers.take n, a = .ok

@[simp] theorem sink_after_data (k : Sink) (n : Nat) (b : Bytes) : (k.after n b).data = k.data ++ b := rfl
@[simp] theorem sink_after_isOpen (k : Sink) (n : Nat) (b : Bytes) : (k.after n b).isOpen = k.isOpen := rfl
@[simp] theorem sink_after_flushes (k : Sink) (n : Nat) (b : Bytes) : (k.after n b).flushes = k.flushes := rfl
@[simp] theorem sink_after_answers (k : Sink) (n : Nat) (b : Bytes) : (k.after n b).answers = k.answers.drop n := rfl
@[simp] theorem sink_after_calls (k : Sink) (n : Nat) (b : Bytes) : (k.after n b).calls = k.calls + n := rfl

@[simp] theorem sink_after_zero (k : Sink) : k.after 0 [] = k := by simp [Sink.after]

@[simp] theorem sink_after_after (k : Sink) (m n : Nat) (b c : Bytes) :
    (k.after m b).after n c = k.after (m + n) (b ++ c) := by
  simp [Sink.after, Nat.add_assoc]

@[simp] theorem sink_got_after (k : Sink) (m n : Nat) (b c : Bytes) (l : List SinkAnswer) :
    (k.after m b).got n c l = k.got (m + n) (b ++ c) l := by
  simp [Sink.after, Sink.got, Nat.add_assoc]

theorem Sink.Reliable.serves {k : Sink} (h : k.Reliable) (n : Nat) : k.Serves n :=
  fun a ha => h a (List.mem_of_mem_take ha)

theorem Sink.Reliable.after {k : Sink} (h : k.Reliable) (n : Nat) (b : Bytes) : (k.after n b).Reliable :=
  fun a ha => h a (List.mem_of_mem_drop ha)

theorem Sink.Serves.mono {k : Sink} {m n : Nat} (h : k.Serves n) (hmn : m ≤ n) : k.Serves m :=
  fun a ha => h a (List.take_subset_take_left _ hmn ha)

theorem Sink.Serves.after {k : Sink} {m n : Nat} (h : k.Serves (m + n)) (b : Bytes) : (k.after m b).Serves n :=
  fun a ha => h a (List.mem_of_mem_drop (i := m) (by rwa [List.drop_take, Nat.add_sub_cancel_left]))

theorem Sink.Serves.answer {k : Sink} {n : Nat} (h : k.Serves n) (hn : 0 < n) : k.answer = .ok := by
  unfold Sink.answer
  cases hk : k.answers with
  | nil => rfl
  | cons a l =>
    obtain ⟨n, rfl⟩ := Nat.exists_eq_succ_of_ne_zero hn.ne'
    exact h a (by simp [hk])

/-- A call answered `ok` that brings the sink the bytes `b`. -/
theorem sinkWrite_after {k : Sink} (b : Bytes) (h : k.answer = .ok) : sinkWrite b k = (.ok, k.after 1 b) := by
  rw [sinkWrite_ok h]
  simp [Sink.after, Sink.called]

section Answers

variable {k : Sink} {j : Nat} {a : SinkAnswer} {l : List SinkAnswer}

theorem Sink.AnswersAfter.serves (h : k.AnswersAfter j a l) : k.Serves j := by
  intro x hx
  rw [h, List.take_left' (List.length_replicate ..)] at hx
  exact List.eq_of_mem_replicate hx

theorem Sink.AnswersAfter.after {i : Nat} (h : k.AnswersAfter (i + j) a l) (b : Bytes) :
    (k.after i b).AnswersAfter j a l := by
  rw [Sink.AnswersAfter, sink_after_answers, h, List.drop_append_of_le_length (by simp), List.drop_replicate,
    Nat.add_sub_cancel_left]

theorem Sink.AnswersAfter.answer (h : k.AnswersAfter 0 a l) : k.answer = a := by
  rw [Sink.answer, h, List.replicate_zero, List.nil_append, List.headD_cons]

theorem Sink.AnswersAfter.tail (h : k.AnswersAfter 0 a l) : k.answers.tail = l := by
  rw [h, List.replicate_zero, List.nil_append, List.tail_cons]

end Answers

/-! ### Where an operation of the encoder stops -/

/-- The end of an operation at a call that did not answer `ok`: it waits, or raises `IOFailure` of its cause (R13, R141). -/
def stopped {α : Type} (a : SinkAnswer) (cause : Byte) (u : EncSide) : Flow EncSide α :=
  match a with
  | .never => .stuck u
  | _ => .raised (ioFailure cause) u

@[simp] theorem stopped_bind {α β : Type} (a : SinkAnswer) (cause : Byte) (u : EncSide)
    (g : α → EncSide → Flow EncSide β) : (stopped a cause u).bind g = stopped a cause u := by
  cases a <;> rfl

theorem stopped_never {α : Type} (cause : Byte) (u : EncSide) : (stopped .never cause u : Flow EncSide α) = .stuck u := rfl

theorem stopped_fail {α : Type} (cause : Byte) (u : EncSide) :
    (stopped .fail cause u : Flow EncSide α) = .raised (ioFailure cause) u := rfl

theorem encCall_ok {call : Sink → SinkAnswer × Sink} {u : EncSide} {k : Sink} (cause : Byte)
    (h : call u.sink = (.ok, k)) : encCall call cause u = .done () { u with sink := k } := by
  rw [encCall, h]

theorem encCall_stopped {call : Sink → SinkAnswer × Sink} {u : EncSide} {a : SinkAnswer} {k : Sink} (cause : Byte)
    (h : call u.sink = (a, k)) (ha : a ≠ .ok) : encCall call cause u = stopped a cause { u with sink := k } := by
  rw [encCall, h]
  cases a with
  | ok => exact absurd rfl ha
  | fail => rfl
  | never => rfl

/-- A write that is not answered `ok` leaves some first part of its bytes. -/
theorem sinkWrite_stopped {k : Sink} {a : SinkAnswer} {l : List SinkAnswer} (b : Bytes) (h : k.AnswersAfter 0 a l)
    (ha : a ≠ .ok) : ∃ q, q <+: b ∧ sinkWrite b k = (a, k.got 1 q l) := by
  refine ⟨b.take (Config.keptPrefix k.calls), List.take_prefix _ _, ?_⟩
  have hanswer := h.answer
  obtain rfl := h.tail
  cases a with
  | ok => exact absurd rfl ha
  | fail => simp [sinkWrite, hanswer, Sink.got, Sink.called]
  | never => simp [sinkWrite, hanswer, Sink.got, Sink.called]

/-! ### Writes one after another -/

/-- One `SinkWrite` for each of the sequences (R59). -/
def writeAll : List Bytes → EncSide → Flow EncSide Unit
  | [], u => .done () u
  | b :: bs, u => (encCall (sinkWrite b) 1 u).bind fun _ u => writeAll bs u

theorem writeAll_served {ws : List Bytes} {u : EncSide} (h : u.sink.Serves ws.length) :
    writeAll ws u = .done () { u with sink := u.sink.after ws.length ws.flatten } := by
  induction ws generalizing u with
  | nil => rw [writeAll, List.length_nil, List.flatten_nil, sink_after_zero]
  | cons b ws ih =>
    have hfirst := sinkWrite_after b (h.answer (Nat.succ_pos _))
    have hrest : (u.sink.after 1 b).Serves ws.length := Sink.Serves.after (by rwa [Nat.add_comm]) b
    rw [writeAll, encCall_ok 1 hfirst, bind_done, ih hrest, sink_after_after, List.length_cons, List.flatten_cons,
      Nat.add_comm]

/-- The writes before the one that is not answered `ok` are whole, and no later one is made. -/
theorem writeAll_stopped {ws : List Bytes} {u : EncSide} {j : Nat} {a : SinkAnswer} {l : List SinkAnswer}
    (hj : j < ws.length) (h : u.sink.AnswersAfter j a l) (ha : a ≠ .ok) :
    ∃ q, q <+: ws.getD j [] ∧
      writeAll ws u = stopped a 1 { u with sink := u.sink.got (j + 1) ((ws.take j).flatten ++ q) l } := by
  induction ws generalizing u j with
  | nil => exact absurd hj (Nat.not_lt_zero j)
  | cons b ws ih =>
    cases j with
    | zero =>
      obtain ⟨q, hq, hcall⟩ := sinkWrite_stopped b h ha
      exact ⟨q, hq, by rw [writeAll, encCall_stopped 1 hcall ha, stopped_bind]; rfl⟩
    | succ j =>
      have hfirst := sinkWrite_after b (Sink.AnswersAfter.serves h |>.answer (Nat.succ_pos j))
      have hrest : (u.sink.after 1 b).AnswersAfter j a l :=
        Sink.AnswersAfter.after (i := 1) (by rwa [Nat.add_comm]) b
      obtain ⟨q, hq, hwrites⟩ := ih (u := { u with sink := u.sink.after 1 b }) (Nat.lt_of_succ_lt_succ hj) hrest
      refine ⟨q, by simpa using hq, ?_⟩
      rw [writeAll, encCall_ok 1 hfirst, bind_done, hwrites, sink_got_after, List.take_succ_cons, List.flatten_cons,
        List.append_assoc, Nat.add_comm 1]

/-! ### Frames -/

theorem emitFrame_exhausted {u : EncSide} (p d : Bytes) (h : 2 ^ 32 ≤ u.enc.nextIndex) :
    emitFrame p d u = .raised rangeError u := if_pos h

theorem emitData_eq_writeAll {u : EncSide} {p : Bytes} (hp : p.length ≠ 0) (h : u.enc.nextIndex < 2 ^ 32) :
    emitData p u = (writeAll (dataWrites u.enc.nextIndex p) u).bind fun _ v => .done () (advanceIndex v) := by
  rw [emitData, emitFrame, if_neg (Nat.not_le.mpr h)]
  simp only [writePayload, if_neg hp, dataWrites, writeAll, bind_assoc, bind_done]

theorem emitTerminal_eq_writeAll {u : EncSide} (h : u.enc.nextIndex < 2 ^ 32) :
    emitTerminal u = (writeAll (terminalWrites u.enc.nextIndex) u).bind fun _ v => .done () (advanceIndex v) := by
  rw [emitTerminal, emitFrame, if_neg (Nat.not_le.mpr h)]
  simp only [writePayload, List.length_nil, if_true, terminalWrites, writeAll, bind_assoc, bind_done]
  rfl

/-- The registers when a data block is out and the buffer emptied (R141, R144). -/
def blockEmitted (e : Encoder) : Encoder := { e with fill := 0, nextIndex := e.nextIndex + 1 }

@[simp] theorem blockEmitted_fill (e : Encoder) : (blockEmitted e).fill = 0 := rfl
@[simp] theorem blockEmitted_nextIndex (e : Encoder) : (blockEmitted e).nextIndex = e.nextIndex + 1 := rfl
@[simp] theorem blockEmitted_blockSize (e : Encoder) : (blockEmitted e).blockSize = e.blockSize := rfl
@[simp] theorem blockEmitted_buf (e : Encoder) : (blockEmitted e).buf = e.buf := rfl
@[simp] theorem blockEmitted_err (e : Encoder) : (blockEmitted e).err = e.err := rfl
@[simp] theorem blockEmitted_closed (e : Encoder) : (blockEmitted e).closed = e.closed := rfl
@[simp] theorem blockEmitted_waiting (e : Encoder) : (blockEmitted e).waiting = e.waiting := rfl

section Emission

variable {u : EncSide} {j : Nat} {a : SinkAnswer} {l : List SinkAnswer}

theorem emitBuffer_exhausted (h : 2 ^ 32 ≤ u.enc.nextIndex) : emitBuffer u = .raised rangeError u := by
  rw [emitBuffer, emitData, emitFrame_exhausted _ _ h, bind_raised]

theorem emitBuffer_served (hfill : u.enc.fill ≠ 0) (h : u.enc.nextIndex < 2 ^ 32) (hs : u.sink.Serves 4) :
    emitBuffer u = .done ()
      { enc := blockEmitted u.enc, sink := u.sink.after 4 (dataFrame u.enc.nextIndex (pendingBytes u.enc)) } := by
  have hlen : (pendingBytes u.enc).length ≠ 0 := by rwa [pendingBytes_length]
  rw [emitBuffer, emitData_eq_writeAll hlen h, writeAll_served hs, dataWrites_flatten]
  rfl

theorem emitBuffer_stopped (hfill : u.enc.fill ≠ 0) (h : u.enc.nextIndex < 2 ^ 32) (hj : j < 4)
    (hs : u.sink.AnswersAfter j a l) (ha : a ≠ .ok) :
    ∃ q, q <+: (dataWrites u.enc.nextIndex (pendingBytes u.enc)).getD j [] ∧
      emitBuffer u = stopped a 1 { u with
        sink := u.sink.got (j + 1) (((dataWrites u.enc.nextIndex (pendingBytes u.enc)).take j).flatten ++ q) l } := by
  have hlen : (pendingBytes u.enc).length ≠ 0 := by rwa [pendingBytes_length]
  obtain ⟨q, hq, hwrites⟩ := writeAll_stopped (ws := dataWrites u.enc.nextIndex (pendingBytes u.enc)) hj hs ha
  exact ⟨q, hq, by rw [emitBuffer, emitData_eq_writeAll hlen h, hwrites, stopped_bind, stopped_bind]⟩

theorem emitTerminal_served (h : u.enc.nextIndex < 2 ^ 32) (hs : u.sink.Serves 3) :
    emitTerminal u = .done ()
      (advanceIndex { u with sink := u.sink.after 3 (terminalFrame u.enc.nextIndex) }) := by
  rw [emitTerminal_eq_writeAll h, writeAll_served hs, terminalWrites_flatten]
  rfl

theorem emitTerminal_stopped (h : u.enc.nextIndex < 2 ^ 32) (hj : j < 3) (hs : u.sink.AnswersAfter j a l) (ha : a ≠ .ok) :
    ∃ q, q <+: (terminalWrites u.enc.nextIndex).getD j [] ∧
      emitTerminal u = stopped a 1 { u with
        sink := u.sink.got (j + 1) (((terminalWrites u.enc.nextIndex).take j).flatten ++ q) l } := by
  obtain ⟨q, hq, hwrites⟩ := writeAll_stopped (ws := terminalWrites u.enc.nextIndex) hj hs ha
  exact ⟨q, hq, by rw [emitTerminal_eq_writeAll h, hwrites, stopped_bind]⟩

end Emission

/-! ### The write loop -/

/-- What a buffered block emitted leaves, whatever the sink answered (R144). -/
theorem emitBuffer_done {u v : EncSide} {x : Unit} (h : emitBuffer u = .done x v) : v.enc = blockEmitted u.enc := by
  have hpost := emitFrame_post (pendingBytes u.enc) (sha256 (pendingBytes u.enc)) u
  rw [emitBuffer_eq] at h
  cases hframe : emitFrame (pendingBytes u.enc) (sha256 (pendingBytes u.enc)) u with
  | done y w =>
    rw [hframe] at h hpost
    obtain ⟨-, henc, -⟩ := hpost
    cases h
    simp only [henc, blockEmitted]
  | raised e w => rw [hframe] at h; exact nomatch h
  | answered r w => rw [hframe] at h; exact nomatch h
  | stuck w => rw [hframe] at h; exact nomatch h

@[simp] theorem fillBuffer_nil (u : EncSide) : fillBuffer [] u = u := rfl

theorem memWrite_append (m : Memory) (a : Nat) (b c : Bytes) :
    memWrite m a (b ++ c) = memWrite (memWrite m a b) (a + b.length) c := by
  induction b generalizing m a with
  | nil => rfl
  | cons x b ih => rw [List.cons_append, memWrite, memWrite, ih, List.length_cons]; congr 1; omega

theorem fillBuffer_append (b c : Bytes) (u : EncSide) : fillBuffer (b ++ c) u = fillBuffer c (fillBuffer b u) := by
  simp only [fillBuffer, memWrite_append, List.length_append, Nat.add_assoc]

section Loop

variable {data : Bytes} {u : EncSide}

/-- Fewer bytes than there is room for are copied in one pass. -/
theorem writeLoop_short {passes : Nat} (h : u.enc.fill + data.length < u.enc.blockSize) (hp : data.length ≤ passes) :
    writeLoop passes data u = .done () (fillBuffer data u) := by
  cases data with
  | nil => rw [writeLoop_nil, fillBuffer_nil]
  | cons b bs =>
    obtain ⟨passes, rfl⟩ := Nat.exists_eq_succ_of_ne_zero (show passes ≠ 0 by
      rw [List.length_cons] at hp; omega)
    have hk : passLength (b :: bs) u = (b :: bs).length := Nat.min_eq_right (by omega)
    rw [writeLoop_pass, hk, if_neg (by omega), List.drop_length, List.take_length, writeLoop_nil]

/-- A pass that fills the buffer emits it. -/
theorem writeLoop_full (passes : Nat) (hfill : u.enc.fill < u.enc.blockSize)
    (h : u.enc.blockSize ≤ u.enc.fill + data.length) :
    writeLoop (passes + 1) data u =
      (emitBuffer (fillBuffer (data.take (u.enc.blockSize - u.enc.fill)) u)).bind
        fun _ v => writeLoop passes (data.drop (u.enc.blockSize - u.enc.fill)) v := by
  cases data with
  | nil => rw [List.length_nil] at h; omega
  | cons b bs =>
    have hk : passLength (b :: bs) u = u.enc.blockSize - u.enc.fill := Nat.min_eq_left (by omega)
    rw [writeLoop_pass, hk, if_pos (by omega)]

theorem bind_congr {σ α β : Type} {f : Flow σ α} {g g' : α → σ → Flow σ β} (h : ∀ a v, f = .done a v → g a v = g' a v) :
    f.bind g = f.bind g' := by
  cases f with
  | done a v => exact h a v rfl
  | _ => rfl

/-- As many passes as there are bytes suffice (log 18). -/
theorem writeLoop_passes {p q : Nat} (hfill : u.enc.fill < u.enc.blockSize) (hp : data.length ≤ p)
    (hq : data.length ≤ q) : writeLoop p data u = writeLoop q data u := by
  induction p generalizing q data u with
  | zero =>
    obtain rfl := List.length_eq_zero_iff.mp (Nat.le_zero.mp hp)
    rw [writeLoop_nil, writeLoop_nil]
  | succ p ih =>
    by_cases hshort : u.enc.fill + data.length < u.enc.blockSize
    · rw [writeLoop_short hshort hp, writeLoop_short hshort hq]
    · obtain ⟨q, rfl⟩ := Nat.exists_eq_succ_of_ne_zero (show q ≠ 0 by omega)
      rw [writeLoop_full p hfill (by omega), writeLoop_full q hfill (by omega)]
      refine bind_congr fun _ v hv => ih ?_ ?_ ?_
      · rw [emitBuffer_done hv]
        simp only [blockEmitted_fill, blockEmitted_blockSize, fillBuffer_blockSize]
        omega
      · rw [List.length_drop]; omega
      · rw [List.length_drop]; omega

theorem writeBytes_short (h : u.enc.fill + data.length < u.enc.blockSize) :
    writeBytes data u = .done () (fillBuffer data u) := writeLoop_short h (Nat.le_succ _)

theorem writeBytes_full (hfill : u.enc.fill < u.enc.blockSize) (h : u.enc.blockSize ≤ u.enc.fill + data.length) :
    writeBytes data u =
      (emitBuffer (fillBuffer (data.take (u.enc.blockSize - u.enc.fill)) u)).bind
        fun _ v => writeBytes (data.drop (u.enc.blockSize - u.enc.fill)) v := by
  rw [writeBytes, writeLoop_full _ hfill h]
  refine bind_congr fun _ v hv => writeLoop_passes ?_ ?_ (Nat.le_succ _)
  · rw [emitBuffer_done hv]
    simp only [blockEmitted_fill, blockEmitted_blockSize, fillBuffer_blockSize]
    omega
  · rw [List.length_drop]; omega

end Loop

/-- Two writes leave what one write of both sequences leaves (R150). -/
theorem writeBytes_append (b c : Bytes) (u : EncSide) (hfill : u.enc.fill < u.enc.blockSize) :
    writeBytes (b ++ c) u = (writeBytes b u).bind fun _ v => writeBytes c v := by
  induction hn : b.length using Nat.strongRecOn generalizing b u with
  | _ n ih =>
  subst hn
  by_cases hb : u.enc.fill + b.length < u.enc.blockSize
  · rw [writeBytes_short hb, bind_done]
    by_cases hbc : u.enc.fill + (b ++ c).length < u.enc.blockSize
    · rw [writeBytes_short hbc, fillBuffer_append, writeBytes_short]
      rwa [fillBuffer_fill, fillBuffer_blockSize, Nat.add_assoc, ← List.length_append]
    · rw [List.length_append] at hbc
      have hroom : u.enc.blockSize - u.enc.fill - b.length = u.enc.blockSize - (u.enc.fill + b.length) := by omega
      rw [writeBytes_full hfill (by rw [List.length_append]; omega),
        writeBytes_full (data := c) hb (by rw [fillBuffer_fill, fillBuffer_blockSize]; omega),
        List.take_append, List.drop_append, List.take_of_length_le (l := b) (by omega),
        List.drop_of_length_le (l := b) (by omega), List.nil_append, fillBuffer_append, fillBuffer_fill,
        fillBuffer_blockSize, hroom]
  · have hlong : u.enc.blockSize - u.enc.fill ≤ b.length := by omega
    rw [writeBytes_full hfill (by rw [List.length_append]; omega), writeBytes_full (data := b) hfill (by omega),
      bind_assoc, List.take_append_of_le_length hlong, List.drop_append_of_le_length hlong]
    refine bind_congr fun _ v hv => ih (b.drop _).length ?_ _ v ?_ rfl
    · rw [List.length_drop]; omega
    · rw [emitBuffer_done hv]
      simp only [blockEmitted_fill, blockEmitted_blockSize, fillBuffer_blockSize]
      omega

end Sys2Proof.Machine

/-! `ENC.WRITE` (spec/42_block_encoder.md R144, R147, R150): the blocks it emits one after another, the bytes it keeps, and
what a write that fails leaves. -/

namespace Sys2Proof.Machine

/-! ### Blocks and their frames -/

theorem fullBlocks_length (B : Nat) (x : Bytes) : (fullBlocks B x).length = x.length / B := by simp [fullBlocks]

theorem fullBlocks_getElem? {B k : Nat} {x : Bytes} (hB : 0 < B) (h : (k + 1) * B ≤ x.length) :
    (fullBlocks B x)[k]? = some ((x.drop (k * B)).take B) := by
  have hk : k < x.length / B := (Nat.le_div_iff_mul_le hB).mpr h
  rw [fullBlocks, List.getElem?_map, List.getElem?_range hk, Option.map_some]

theorem fullBlocks_take_succ {B k : Nat} {x : Bytes} (hB : 0 < B) (h : (k + 1) * B ≤ x.length) :
    (fullBlocks B x).take (k + 1) = (fullBlocks B x).take k ++ [(x.drop (k * B)).take B] := by
  rw [List.take_add_one, fullBlocks_getElem? hB h, Option.toList_some]

theorem fullBlocks_of_lt {B : Nat} {x : Bytes} (h : x.length < B) : fullBlocks B x = [] := by
  rw [fullBlocks, Nat.div_eq_of_lt h, List.range_zero, List.map_nil]

theorem restBlock_of_lt {B : Nat} {x : Bytes} (h : x.length < B) : restBlock B x = x := by
  rw [restBlock, Nat.div_eq_of_lt h, Nat.zero_mul, List.drop_zero]

theorem restBlock_length (B : Nat) (x : Bytes) : (restBlock B x).length = x.length % B := by
  rw [restBlock, List.length_drop, Nat.mod_eq_sub, Nat.mul_comm]

theorem dataFrames_append (k : Nat) (ps qs : List Bytes) :
    dataFrames k (ps ++ qs) = dataFrames k ps ++ dataFrames (k + ps.length) qs := by
  induction ps generalizing k with
  | nil => rfl
  | cons p ps ih =>
    rw [List.cons_append, dataFrames, dataFrames, ih, List.append_assoc, List.length_cons, Nat.add_assoc, Nat.add_comm 1]

theorem dataFrames_singleton (k : Nat) (p : Bytes) : dataFrames k [p] = dataFrame k p := List.append_nil _

/-! ### The buffer while blocks go out -/

/-- The buffer `m` when `j` blocks of the buffered bytes and `data` are out: what it holds and the bytes to come are the
bytes those blocks leave, and an offset to which nothing has been copied reads as before. -/
structure BlocksOut (e : Encoder) (data : Bytes) (j : Nat) (m : Memory) : Prop where
  pending : memRead Config.unwrittenEncBuf m 0 (e.fill - j * e.blockSize) ++ data.drop (j * e.blockSize - e.fill) =
    (pendingBytes e ++ data).drop (j * e.blockSize)
  kept : ∀ a, (∀ i, e.fill ≤ i → i < j * e.blockSize → i % e.blockSize ≠ a) →
    readByte Config.unwrittenEncBuf m a = readByte Config.unwrittenEncBuf e.buf a

/-- The encoder's side when `j` blocks are out, with the buffer `m`. -/
def afterBlocks (u : EncSide) (data : Bytes) (j : Nat) (m : Memory) : EncSide :=
  { enc := { u.enc with buf := m, fill := u.enc.fill - j * u.enc.blockSize, nextIndex := u.enc.nextIndex + j }
    sink := u.sink.after (4 * j)
      (dataFrames u.enc.nextIndex ((fullBlocks u.enc.blockSize (pendingBytes u.enc ++ data)).take j)) }

/-- The encoder's side when the block after those is in the buffer. -/
def blockFilled (u : EncSide) (data : Bytes) (j : Nat) (m : Memory) : EncSide :=
  { enc := { u.enc with buf := m, fill := u.enc.blockSize, nextIndex := u.enc.nextIndex + j }
    sink := (afterBlocks u data j m).sink }

theorem blocksOut_zero (e : Encoder) (data : Bytes) : BlocksOut e data 0 e.buf where
  pending := by
    rw [Nat.zero_mul, Nat.sub_zero, Nat.zero_sub, List.drop_zero, List.drop_zero]
    rfl
  kept := fun _ _ => rfl

theorem afterBlocks_zero (u : EncSide) (data : Bytes) : afterBlocks u data 0 u.enc.buf = u := by
  simp [afterBlocks, dataFrames]

section Blocks

variable {u : EncSide} {data : Bytes} {j : Nat} {m : Memory}

/-- The next block fills the buffer. -/
theorem fillBuffer_afterBlocks (hfill : u.enc.fill < u.enc.blockSize) (hm : BlocksOut u.enc data j m)
    (hj : (j + 1) * u.enc.blockSize ≤ u.enc.fill + data.length) :
    ∃ m', fillBuffer ((data.drop (j * u.enc.blockSize - u.enc.fill)).take
          (u.enc.blockSize - (u.enc.fill - j * u.enc.blockSize))) (afterBlocks u data j m) =
        blockFilled u data j m' ∧
      memRead Config.unwrittenEncBuf m' 0 u.enc.blockSize =
        ((pendingBytes u.enc ++ data).drop (j * u.enc.blockSize)).take u.enc.blockSize ∧
      BlocksOut u.enc data (j + 1) m' := by
  have hsucc : (j + 1) * u.enc.blockSize = j * u.enc.blockSize + u.enc.blockSize := Nat.succ_mul _ _
  generalize ht : (data.drop (j * u.enc.blockSize - u.enc.fill)).take
    (u.enc.blockSize - (u.enc.fill - j * u.enc.blockSize)) = t
  have htlen : u.enc.fill - j * u.enc.blockSize + t.length = u.enc.blockSize := by
    rw [← ht, List.length_take, List.length_drop]
    omega
  refine ⟨memWrite m (u.enc.fill - j * u.enc.blockSize) t, ?_, ?_, ?_, fun a ha => ?_⟩
  · simp only [fillBuffer, afterBlocks, htlen, blockFilled]
  · have hread := memRead_memWrite_append Config.unwrittenEncBuf m (u.enc.fill - j * u.enc.blockSize) t
    rw [htlen] at hread
    rw [hread, ← hm.pending, List.take_append, memRead_length, ht, List.take_of_length_le]
    rw [memRead_length]
    omega
  · rw [hsucc, ← List.drop_drop, ← hm.pending, List.drop_append, memRead_length, List.drop_drop,
      List.drop_of_length_le (l := memRead _ _ _ _) (by rw [memRead_length]; omega)]
    rw [show u.enc.fill - (j * u.enc.blockSize + u.enc.blockSize) = 0 by omega]
    congr 2
    omega
  · rw [readByte, readCell_memWrite, if_neg, ← readByte]
    · exact hm.kept a fun i hi hij => ha i hi (by omega)
    · rintro ⟨hle, hlt⟩
      refine ha (j * u.enc.blockSize + a) (by omega) (by omega) ?_
      rw [Nat.mul_add_mod_self_right, Nat.mod_eq_of_lt (by omega)]

/-- The bytes to come after `j` blocks reach the end of the next. -/
theorem writeBytes_afterBlocks (hfill : u.enc.fill < u.enc.blockSize) (hm : BlocksOut u.enc data j m)
    (hj : (j + 1) * u.enc.blockSize ≤ u.enc.fill + data.length) :
    ∃ m', memRead Config.unwrittenEncBuf m' 0 u.enc.blockSize =
        ((pendingBytes u.enc ++ data).drop (j * u.enc.blockSize)).take u.enc.blockSize ∧
      BlocksOut u.enc data (j + 1) m' ∧
      writeBytes (data.drop (j * u.enc.blockSize - u.enc.fill)) (afterBlocks u data j m) =
        (emitBuffer (blockFilled u data j m')).bind
          fun _ v => writeBytes (data.drop ((j + 1) * u.enc.blockSize - u.enc.fill)) v := by
  obtain ⟨m', hbuffer, hblock, hm'⟩ := fillBuffer_afterBlocks hfill hm hj
  refine ⟨m', hblock, hm', ?_⟩
  have hsucc : (j + 1) * u.enc.blockSize = j * u.enc.blockSize + u.enc.blockSize := Nat.succ_mul _ _
  have hfull := writeBytes_full (u := afterBlocks u data j m)
    (data := data.drop (j * u.enc.blockSize - u.enc.fill))
    (by simp only [afterBlocks]; omega) (by simp only [afterBlocks, List.length_drop]; omega)
  rw [hfull]
  have hdrop : j * u.enc.blockSize - u.enc.fill + (u.enc.blockSize - (u.enc.fill - j * u.enc.blockSize)) =
      (j + 1) * u.enc.blockSize - u.enc.fill := by omega
  simp only [afterBlocks, List.drop_drop, hdrop] at hbuffer ⊢
  rw [hbuffer]

/-- That block emitted. -/
theorem blockFilled_emitted (hfill : u.enc.fill < u.enc.blockSize)
    (hblock : memRead Config.unwrittenEncBuf m 0 u.enc.blockSize =
      ((pendingBytes u.enc ++ data).drop (j * u.enc.blockSize)).take u.enc.blockSize)
    (hj : (j + 1) * u.enc.blockSize ≤ u.enc.fill + data.length) :
    ({ enc := blockEmitted (blockFilled u data j m).enc
       sink := (blockFilled u data j m).sink.after 4
         (dataFrame (u.enc.nextIndex + j) (pendingBytes (blockFilled u data j m).enc)) } : EncSide) =
      afterBlocks u data (j + 1) m := by
  have hsucc : (j + 1) * u.enc.blockSize = j * u.enc.blockSize + u.enc.blockSize := Nat.succ_mul _ _
  have hpending : pendingBytes (blockFilled u data j m).enc =
      ((pendingBytes u.enc ++ data).drop (j * u.enc.blockSize)).take u.enc.blockSize := hblock
  have hlen : (pendingBytes u.enc ++ data).length = u.enc.fill + data.length := by
    rw [List.length_append, pendingBytes_length]
  have hle : j ≤ (u.enc.fill + data.length) / u.enc.blockSize :=
    (Nat.le_div_iff_mul_le (by omega)).mpr (by omega)
  have hzero : u.enc.fill - (j + 1) * u.enc.blockSize = 0 := by omega
  rw [hpending]
  simp only [blockFilled, blockEmitted, afterBlocks, sink_after_after, hzero, dataFrames_append, dataFrames_singleton,
    fullBlocks_take_succ (Nat.zero_lt_of_lt hfill) (hlen ▸ hj), List.length_take, fullBlocks_length, hlen,
    Nat.min_eq_left hle, Nat.mul_succ, Nat.add_assoc]

/-- Over a sink that answers, the first `j` blocks go out. -/
theorem writeBytes_blocks (j : Nat) (hfill : u.enc.fill < u.enc.blockSize)
    (hj : j * u.enc.blockSize ≤ u.enc.fill + data.length) (hidx : u.enc.nextIndex + j ≤ 2 ^ 32)
    (hs : u.sink.Serves (4 * j)) :
    ∃ m, BlocksOut u.enc data j m ∧
      writeBytes data u = writeBytes (data.drop (j * u.enc.blockSize - u.enc.fill)) (afterBlocks u data j m) := by
  induction j with
  | zero =>
    refine ⟨u.enc.buf, blocksOut_zero _ _, ?_⟩
    rw [Nat.zero_mul, Nat.zero_sub, List.drop_zero, afterBlocks_zero]
  | succ j ih =>
    have hsucc : (j + 1) * u.enc.blockSize = j * u.enc.blockSize + u.enc.blockSize := Nat.succ_mul _ _
    obtain ⟨m, hm, hwrite⟩ := ih (by omega) (by omega) (hs.mono (by omega))
    obtain ⟨m', hblock, hm', hnext⟩ := writeBytes_afterBlocks hfill hm hj
    have hserves : (blockFilled u data j m').sink.Serves 4 := Sink.Serves.after (m := 4 * j) (n := 4) hs _
    have hfull : (blockFilled u data j m').enc.fill ≠ 0 := Nat.ne_zero_of_lt hfill
    have hlast : (blockFilled u data j m').enc.nextIndex < 2 ^ 32 := hidx
    refine ⟨m', hm', ?_⟩
    rw [hwrite, hnext, emitBuffer_served hfull hlast hserves, bind_done]
    exact congrArg _ (blockFilled_emitted hfill hblock hj)

/-- Over a sink that answers, with indices enough, every full block goes out and the rest is kept. -/
theorem writeBytes_served (hfill : u.enc.fill < u.enc.blockSize)
    (hidx : u.enc.nextIndex + (u.enc.fill + data.length) / u.enc.blockSize ≤ 2 ^ 32)
    (hs : u.sink.Serves (4 * ((u.enc.fill + data.length) / u.enc.blockSize))) :
    ∃ m, writeBytes data u = .done ()
        { enc := { u.enc with
            buf := m
            fill := (u.enc.fill + data.length) % u.enc.blockSize
            nextIndex := u.enc.nextIndex + (u.enc.fill + data.length) / u.enc.blockSize }
          sink := u.sink.after (4 * ((u.enc.fill + data.length) / u.enc.blockSize))
            (dataFrames u.enc.nextIndex (fullBlocks u.enc.blockSize (pendingBytes u.enc ++ data))) } ∧
      memRead Config.unwrittenEncBuf m 0 ((u.enc.fill + data.length) % u.enc.blockSize) =
        restBlock u.enc.blockSize (pendingBytes u.enc ++ data) ∧
      ∀ a, (∀ i, u.enc.fill ≤ i → i < u.enc.fill + data.length → i % u.enc.blockSize ≠ a) →
        readByte Config.unwrittenEncBuf m a = readByte Config.unwrittenEncBuf u.enc.buf a := by
  generalize hq : (u.enc.fill + data.length) / u.enc.blockSize = q at hidx hs
  have hqB : q * u.enc.blockSize + (u.enc.fill + data.length) % u.enc.blockSize = u.enc.fill + data.length := by
    rw [← hq, Nat.mul_comm]; exact Nat.div_add_mod _ _
  have hmod : (u.enc.fill + data.length) % u.enc.blockSize < u.enc.blockSize := Nat.mod_lt _ (by omega)
  obtain ⟨m, hm, hwrite⟩ := writeBytes_blocks (data := data) q hfill (by omega) hidx hs
  generalize hrest : data.drop (q * u.enc.blockSize - u.enc.fill) = rest at hwrite
  have hlen : u.enc.fill - q * u.enc.blockSize + rest.length = (u.enc.fill + data.length) % u.enc.blockSize := by
    rw [← hrest, List.length_drop]; omega
  have hall : (fullBlocks u.enc.blockSize (pendingBytes u.enc ++ data)).take q =
      fullBlocks u.enc.blockSize (pendingBytes u.enc ++ data) := by
    refine List.take_of_length_le ?_
    rw [fullBlocks_length, List.length_append, pendingBytes_length, hq]
  refine ⟨memWrite m (u.enc.fill - q * u.enc.blockSize) rest, ?_, ?_, fun a ha => ?_⟩
  · rw [hwrite, writeBytes_short (by simp only [afterBlocks]; omega)]
    simp only [fillBuffer, afterBlocks, hlen, hall]
  · rw [← hlen, memRead_memWrite_append, ← hrest, hm.pending, restBlock, List.length_append, pendingBytes_length, hq]
  · rw [readByte, readCell_memWrite, if_neg, ← readByte]
    · exact hm.kept a fun i hi hij => ha i hi (by omega)
    · rintro ⟨hle, hlt⟩
      refine ha (q * u.enc.blockSize + a) (by omega) (by omega) ?_
      rw [Nat.mul_add_mod_self_right, Nat.mod_eq_of_lt (by omega)]

end Blocks

/-! ### The command -/

/-- An open encoder that does not wait runs the loop (R140, R144). -/
theorem exec_encWrite {s : State} (hs : s.enc.Ready) (data : Bytes) :
    exec (.encWrite data) s =
      .next (s.finishEnc ((writeBytes data s.encSide).bind fun _ u => .done .empty u)) := by
  rw [exec_admitted hs rfl (by simp), admittedFlow]

/-- The state a write leaves that is done. -/
theorem exec_encWrite_done {s : State} (hs : s.enc.Ready) {data : Bytes} {v : EncSide}
    (h : writeBytes data s.encSide = .done () v) :
    exec (.encWrite data) s =
      .next { s with enc := v.enc, sink := v.sink, responses := s.responses ++ [.ok .empty] } := by
  rw [exec_encWrite hs, h, bind_done, finishEnc_eq]
  rfl

/-- The state a write leaves that raises. -/
theorem exec_encWrite_raised {s : State} (hs : s.enc.Ready) {data : Bytes} {e : Err} {v : EncSide}
    (h : writeBytes data s.encSide = .raised e v) :
    exec (.encWrite data) s =
      .next { s with
        enc := { v.enc with err := some e }, sink := v.sink, responses := s.responses ++ [.error e] } := by
  rw [exec_encWrite hs, h, bind_raised, finishEnc_eq]
  rfl

/-- The state a write leaves that waits. -/
theorem exec_encWrite_stuck {s : State} (hs : s.enc.Ready) {data : Bytes} {v : EncSide}
    (h : writeBytes data s.encSide = .stuck v) :
    exec (.encWrite data) s = .next { s with enc := { v.enc with waiting := true }, sink := v.sink } := by
  rw [exec_encWrite hs, h, bind_stuck, finishEnc_eq]
  simp

/-! ### The statements -/

/-- Settles O33: one pass copies all the bytes. -/
theorem encWriteShortFillsTheBuffer : Obligations.EncWriteShortFillsTheBuffer := by
  unfold Obligations.EncWriteShortFillsTheBuffer
  intro data s hs hshort
  refine ⟨memWrite s.enc.buf s.enc.fill data, exec_encWrite_done hs (writeBytes_short hshort),
    fun i hi => ?_, fun a ha => ?_, fun hnil => by rw [hnil]; rfl⟩
  · rw [readByte, readCell_memWrite, if_pos (by omega), Nat.add_sub_cancel_left, List.getElem?_eq_getElem hi,
      Option.getD_some]
  · rw [readByte, readCell_memWrite, if_neg ha, ← readByte]

/-- Settles O34: the full blocks go out one after another, the rest is copied in one pass. -/
theorem encWriteEmitsEveryFullBlock : Obligations.EncWriteEmitsEveryFullBlock := by
  unfold Obligations.EncWriteEmitsEveryFullBlock
  intro data s hs hfill hsink hidx
  obtain ⟨m, hwrite, hrest, hkept⟩ := writeBytes_served (u := s.encSide) hfill hidx (hsink.serves _)
  exact ⟨m, exec_encWrite_done hs hwrite, hrest, hkept⟩

end Sys2Proof.Machine

/-! What a command can do, said once for each unit: the outcomes of a `DEC.READ`, and those of an encoder command but
`ENC.INIT`. What holds of every command follows (spec/60_exceptions.md section 3, spec/20_memory.md section 4). -/

namespace Sys2Proof.Machine

/-! ### Outcomes -/

theorem Flow.Post.and {σ α : Type} {D D' : α → σ → Prop} {R R' : Err → σ → Prop} {A A' : Response → σ → Prop}
    {S S' : σ → Prop} {f : Flow σ α} (h : f.Post D R A S) (h' : f.Post D' R' A' S') :
    f.Post (fun a u => D a u ∧ D' a u) (fun e u => R e u ∧ R' e u) (fun r u => A r u ∧ A' r u)
      (fun u => S u ∧ S' u) := by
  cases f <;> exact ⟨h, h'⟩

/-- What holds of the side that any outcome leaves. -/
def Flow.All {σ α : Type} (P : σ → Prop) (f : Flow σ α) : Prop := f.Post (fun _ => P) (fun _ => P) (fun _ => P) P

theorem Flow.All.bind {σ α β : Type} {P : σ → Prop} {f : Flow σ α} {g : α → σ → Flow σ β} (hf : f.All P)
    (hg : ∀ a u, P u → (g a u).All P) : (f.bind g).All P :=
  Flow.Post.bind hf hg

theorem Flow.All.imp {σ α : Type} {P Q : σ → Prop} {f : Flow σ α} (hf : f.All P) (h : ∀ u, P u → Q u) : f.All Q :=
  Flow.Post.imp hf (fun _ => h) (fun _ => h) (fun _ => h) h

/-! ### The source's bytes -/

theorem srcReadExactly_data (n : Nat) (r : Source) : (srcReadExactly n r).2.data = r.data := by
  unfold srcReadExactly
  cases r.answer with
  | serve => by_cases h : r.pos + n ≤ r.data.length <;> simp [h]
  | _ => rfl

/-- The bytes of the source stay. -/
def DecSide.SameBytes (u v : DecSide) : Prop := v.source.data = u.source.data

theorem srcField_sameBytes (n : Nat) {u v : DecSide} (h : u.SameBytes v) : (srcField n v).All u.SameBytes := by
  have hdata := srcReadExactly_data n v.source
  unfold srcField
  rcases hcall : srcReadExactly n v.source with ⟨a, r⟩
  rw [hcall] at hdata
  cases a <;> exact hdata.trans h

theorem readFrame_sameBytes (p : Params) (u : DecSide) : (readFrame p u).All u.SameBytes := by
  have hbody : ∀ d len v, u.SameBytes v → (readBody p d len v).All u.SameBytes := by
    intro d len v hv
    refine Flow.All.bind (by unfold checkLength; split <;> exact hv) fun _ w hw => ?_
    split
    · unfold acceptTerminal; split <;> exact hw
    · refine Flow.All.bind (srcField_sameBytes _ hw) fun b x hx => ?_
      split <;> exact hx
  rw [readFrame_eq]
  refine Flow.All.bind (srcField_sameBytes 4 (show u.SameBytes u from rfl)) fun b v hv => ?_
  refine Flow.All.bind (by unfold checkIndex; split <;> exact hv) fun _ w hw => ?_
  refine Flow.All.bind (srcField_sameBytes 32 hw) fun d x hx => ?_
  exact Flow.All.bind (srcField_sameBytes 4 hx) fun l y hy => hbody _ _ y hy

/-! ### `DEC.READ` -/

/-- The decoder a `DEC.READ` delivers from: as it is when a residual is left, else with a block just accepted (R172). -/
def Refilled (p : Params) (d d' : Decoder) : Prop :=
  (¬ d.ResidualEmpty ∧ d' = d) ∨
  (d.ResidualEmpty ∧ d.term = false ∧ d.expectedIndex < 2 ^ 32 ∧
    ∃ b : Bytes, 1 ≤ b.length ∧ b.length ≤ p.maxBlockLen ∧ d' = acceptBlock b d)

/-- The decoder when `DEC.READ n` has delivered from it (R179). -/
def deliverFrom (n : U32) (d : Decoder) : Decoder := { d with resPos := d.resPos + deliverLength n d }

/-- A decoder whose next `DEC.READ` reads a frame, waiting or not. -/
def ReadsFrame (d : Decoder) : Prop := d.err = none ∧ d.ResidualEmpty ∧ d.term = false

/-- All a `DEC.READ n` with `n ≥ 1` can do. -/
theorem decReadFlow_post (p : Params) (n : U32) (u : DecSide) :
    (decReadFlow p n u).Post
      (fun x v => u.dec.err = none ∧ u.SameBytes v ∧ ∃ d, Refilled p u.dec d ∧ v.dec = deliverFrom n d ∧
        x = .chunk (BitVec.ofNat 32 (deliverLength n d)) (deliverBytes n d))
      (fun e v => ReadsFrame u.dec ∧ u.SameBytes v ∧ v.dec = u.dec ∧ e ∈ frameErrors)
      (fun r v => (∃ e, u.dec.err = some e ∧ r = .error e ∧ v = u) ∨
        (u.dec.err = none ∧ u.dec.ResidualEmpty ∧ u.SameBytes v ∧ r = .eos ∧ v.dec = { u.dec with term := true }))
      (fun v => ReadsFrame u.dec ∧ u.SameBytes v ∧ v.dec = u.dec) := by
  unfold decReadFlow
  cases herr : u.dec.err with
  | some e => rw [decAdmit_failed herr]; exact .inl ⟨e, rfl, rfl, rfl⟩
  | none =>
    rw [decAdmit_ready herr, bind_done]
    by_cases hres : u.dec.ResidualEmpty
    · cases hterm : u.dec.term with
      | true =>
        rw [refill_terminated p hres hterm]
        exact .inr ⟨rfl, hres, rfl, rfl, by rw [← hterm]⟩
      | false =>
        rw [refill_frame p hres hterm]
        have hreads : ReadsFrame u.dec := ⟨herr, hres, hterm⟩
        refine Flow.Post.bind (((readFrame_post p u).and (readFrame_sameBytes p u)).imp
          (D' := fun _ v => u.SameBytes v ∧ Refilled p u.dec v.dec) ?_ ?_ ?_ ?_) ?_
        · rintro - v ⟨⟨hidx, b, h1, hmax, hv⟩, hdata⟩
          exact ⟨hdata, .inr ⟨hres, hterm, hidx, b, h1, hmax, hv⟩⟩
        · rintro e v ⟨⟨hv, he⟩, hdata⟩
          exact ⟨hreads, hdata, hv, he⟩
        · rintro r v ⟨⟨hr, hv⟩, hdata⟩
          exact .inr ⟨rfl, hres, hdata, hr, hv⟩
        · rintro v ⟨hv, hdata⟩
          exact ⟨hreads, hdata, hv⟩
        · rintro - v ⟨hdata, hv⟩
          exact ⟨rfl, hdata, _, hv, rfl, rfl⟩
    · rw [refill_residual p hres, bind_done]
      exact ⟨rfl, rfl, _, .inl ⟨hres, rfl⟩, rfl, rfl⟩

/-! ### Encoder commands -/

/-- What an admitted encoder command keeps: the flags and the block size; the index only advances, the sink only grows. -/
structure EncSide.Progress (u v : EncSide) : Prop where
  blockSize : v.enc.blockSize = u.enc.blockSize
  closed : v.enc.closed = u.enc.closed
  err : v.enc.err = u.enc.err
  waiting : v.enc.waiting = u.enc.waiting
  nextIndex_le : u.enc.nextIndex ≤ v.enc.nextIndex
  nextIndex_bound : u.enc.nextIndex ≤ 2 ^ 32 → v.enc.nextIndex ≤ 2 ^ 32
  data : u.sink.data <+: v.sink.data

theorem EncSide.Progress.refl (u : EncSide) : u.Progress u :=
  ⟨rfl, rfl, rfl, rfl, Nat.le_refl _, id, List.prefix_refl _⟩

theorem EncSide.Progress.trans {u v w : EncSide} (h : u.Progress v) (h' : v.Progress w) : u.Progress w :=
  ⟨h'.blockSize.trans h.blockSize, h'.closed.trans h.closed, h'.err.trans h.err, h'.waiting.trans h.waiting,
    Nat.le_trans h.nextIndex_le h'.nextIndex_le, fun hb => h'.nextIndex_bound (h.nextIndex_bound hb),
    h.data.trans h'.data⟩

/-- The registers stay, the sink grows. -/
theorem EncSide.Progress.of_sink {u v : EncSide} (he : v.enc = u.enc) (hd : u.sink.data <+: v.sink.data) :
    u.Progress v where
  blockSize := by rw [he]
  closed := by rw [he]
  err := by rw [he]
  waiting := by rw [he]
  nextIndex_le := by rw [he]
  nextIndex_bound := fun h => by rwa [he]
  data := hd

theorem EncSide.Progress.of_wrote {u v : EncSide} {q : Bytes} (he : v.enc = u.enc) (hw : u.sink.Wrote q v.sink) :
    u.Progress v := .of_sink he ⟨q, hw.data.symm⟩

theorem fillBuffer_progress (d : Bytes) (u : EncSide) : u.Progress (fillBuffer d u) :=
  ⟨rfl, rfl, rfl, rfl, Nat.le_refl _, id, List.prefix_refl _⟩

/-- An outcome that neither answers nor ends the encoder's progress. -/
def Flow.Progresses {α : Type} (u : EncSide) (f : Flow EncSide α) : Prop :=
  f.Post (fun _ => u.Progress) (fun _ => u.Progress) (fun _ _ => False) u.Progress

theorem Flow.Progresses.bind {α β : Type} {u : EncSide} {f : Flow EncSide α} {g : α → EncSide → Flow EncSide β}
    (hf : f.Progresses u) (hg : ∀ a v, (g a v).Progresses v) : (f.bind g).Progresses u := by
  refine Flow.Post.bind hf fun a v hv => ?_
  exact (hg a v).imp (fun _ _ => hv.trans) (fun _ _ => hv.trans) (fun _ _ => id) (fun _ => hv.trans)

theorem emitFrame_progresses (p d : Bytes) (u : EncSide) : (emitFrame p d u).Progresses u := by
  refine (emitFrame_post p d u).imp ?_ ?_ (fun _ _ => id) ?_
  · rintro - v ⟨hidx, hv, hw⟩
    exact ⟨by rw [hv], by rw [hv], by rw [hv], by rw [hv], by rw [hv]; exact Nat.le_succ _, fun _ => by rw [hv]; exact hidx,
      ⟨_, hw.data.symm⟩⟩
  · rintro e v ⟨hv, ⟨-, -, hsink⟩ | ⟨-, -, q, -, hw⟩⟩
    · exact .of_sink hv (by rw [hsink])
    · exact .of_wrote hv hw
  · rintro v ⟨hv, q, -, hw⟩
    exact .of_wrote hv hw

theorem emitBuffer_progresses (u : EncSide) : (emitBuffer u).Progresses u :=
  Flow.Progresses.bind (emitFrame_progresses _ _ u) fun _ _ =>
    ⟨rfl, rfl, rfl, rfl, Nat.le_refl _, id, List.prefix_refl _⟩

theorem emitRest_progresses (u : EncSide) : (emitRest u).Progresses u := by
  unfold emitRest
  split
  · exact emitBuffer_progresses u
  · exact .refl u

theorem writeLoop_progresses (passes : Nat) (data : Bytes) (u : EncSide) : (writeLoop passes data u).Progresses u := by
  induction passes generalizing data u with
  | zero => cases data <;> exact EncSide.Progress.refl u
  | succ passes ih =>
    cases data with
    | nil => exact .refl u
    | cons b bs =>
      have hcopy : ∀ k, (Flow.done () (fillBuffer ((b :: bs).take k) u)).Progresses u := fun k => fillBuffer_progress _ u
      rw [writeLoop_pass]
      split
      · exact (hcopy _).bind fun _ v => (emitBuffer_progresses v).bind fun _ w => ih _ w
      · exact (hcopy _).bind fun _ v => ih _ v

/-- A call that leaves the content, as a flush and a close do. -/
theorem encCall_progresses {call : Sink → SinkAnswer × Sink} (h : ∀ k, (call k).2.data = k.data) (cause : Byte)
    (u : EncSide) : (encCall call cause u).Progresses u := by
  have hdata : ∀ v : EncSide, v.sink = (call u.sink).2 → u.sink.data <+: v.sink.data := fun v hv => by rw [hv, h]
  refine (encCall_post call cause u).imp ?_ ?_ (fun _ _ => id) ?_
  · exact fun _ v ⟨hv, _, hs⟩ => .of_sink hv (hdata v hs)
  · exact fun _ v ⟨hv, _, _, hs⟩ => .of_sink hv (hdata v hs)
  · exact fun v ⟨hv, _, hs⟩ => .of_sink hv (hdata v hs)

theorem sinkFlush_data (k : Sink) : (sinkFlush k).2.data = k.data := rfl

theorem sinkClose_data (k : Sink) : (sinkClose k).2.data = k.data := by
  unfold sinkClose
  cases k.answer <;> rfl

/-- The encoder's side with the flag of R25 set. -/
def EncSide.close (u : EncSide) : EncSide := { u with enc := { u.enc with closed := true } }

/-- All an admitted encoder command but `ENC.INIT` can do: only `ENC.CLOSE` that is done sets the flag. -/
theorem admittedFlow_post (i : Instr) (u : EncSide) :
    (admittedFlow i u).Post
      (fun x v => x = .empty ∧ ∃ w, u.Progress w ∧ (v = w ∨ (i = .encClose ∧ v = w.close)))
      (fun _ => u.Progress) (fun _ _ => False) u.Progress := by
  have hplain : ∀ f : Flow EncSide Unit, f.Progresses u →
      (f.bind fun _ v => .done Payload.empty v).Post
        (fun x v => x = .empty ∧ ∃ w, u.Progress w ∧ (v = w ∨ (i = .encClose ∧ v = w.close)))
        (fun _ => u.Progress) (fun _ _ => False) u.Progress := by
    intro f hf
    exact Flow.Post.bind hf fun _ v hv => ⟨rfl, v, hv, .inl rfl⟩
  cases i with
  | encWrite data => exact hplain _ (writeLoop_progresses _ data u)
  | encFlush => exact hplain _ (encCall_progresses sinkFlush_data 2 u)
  | encClose =>
    have hcalls : (((((emitRest u).bind fun _ => emitTerminal).bind fun _ => encCall sinkFlush 2).bind
        fun _ => encCall sinkClose 3)).Progresses u :=
      (((emitRest_progresses u).bind fun _ v => emitFrame_progresses _ _ v).bind
        fun _ v => encCall_progresses sinkFlush_data 2 v).bind fun _ v => encCall_progresses sinkClose_data 3 v
    have hflow : admittedFlow .encClose u =
        ((((emitRest u).bind fun _ => emitTerminal).bind fun _ => encCall sinkFlush 2).bind
          fun _ => encCall sinkClose 3).bind fun _ v => .done .empty v.close := by
      simp only [bind_assoc]
      rfl
    rw [hflow]
    exact Flow.Post.bind hcalls fun _ v hv => ⟨rfl, v, hv, .inr ⟨rfl, rfl⟩⟩
  | _ => exact ⟨rfl, u, .refl u, .inl rfl⟩

/-- All an encoder command but `ENC.INIT` can do. -/
theorem encFlow_post (p : Params) {i : Instr} (hinit : ∀ cfg, i ≠ .encInit cfg) (u : EncSide) :
    (encFlow p i u).Post
      (fun x v => u.enc.mode = .opened ∧ x = .empty ∧ ∃ w, u.Progress w ∧ (v = w ∨ (i = .encClose ∧ v = w.close)))
      (fun _ v => u.enc.mode = .opened ∧ u.Progress v)
      (fun _ v => u.enc.mode ≠ .opened ∧ v = u)
      (fun v => u.enc.mode = .opened ∧ u.Progress v) := by
  rw [encFlow_admit p hinit]
  cases herr : u.enc.err with
  | some e => rw [encAdmit_failed herr]; exact ⟨by simp [Encoder.mode, herr], rfl⟩
  | none =>
    cases hclosed : u.enc.closed with
    | true => rw [encAdmit_closed herr hclosed]; exact ⟨by simp [Encoder.mode, herr, hclosed], rfl⟩
    | false =>
      have hmode : u.enc.mode = .opened := by simp [Encoder.mode, herr, hclosed]
      rw [encAdmit_ready herr hclosed, bind_done]
      exact (admittedFlow_post i u).imp (fun _ _ h => ⟨hmode, h⟩) (fun _ _ h => ⟨hmode, h⟩) (fun _ _ h => h.elim)
        (fun _ h => ⟨hmode, h⟩)

end Sys2Proof.Machine

/-! What holds of every command and every step, from what each command can do: one response or none, latched errors and
modes, counters, the sink's content (spec/60_exceptions.md sections 2 and 3, spec/20_memory.md sections 1 and 2). -/

namespace Sys2Proof.Machine

/-! ### Construction as a flow -/

/-- Both outcomes of `ENC.INIT` leave the constructed encoder and the sink as it was. -/
theorem encInitFlow_post (p : Params) (cfg : U32) (u : EncSide) :
    (encInitFlow p cfg u).Post
      (fun x v => x = .empty ∧ v = { u with enc := constructEncoder p cfg u.enc })
      (fun e v => constructionError p = some e ∧ v = { u with enc := constructEncoder p cfg u.enc })
      (fun _ _ => False) (fun _ => False) := by
  unfold encInitFlow
  cases constructionError p with
  | none => exact ⟨rfl, rfl⟩
  | some e => exact ⟨rfl, rfl⟩

/-- Both outcomes of `DEC.INIT` leave the constructed decoder and the source as it was. -/
theorem decInitFlow_post (p : Params) (u : DecSide) :
    (decInitFlow p u).Post
      (fun x v => x = .empty ∧ v = { u with dec := constructDecoder p u.dec })
      (fun e v => constructionError p = some e ∧ v = { u with dec := constructDecoder p u.dec })
      (fun _ _ => False) (fun _ => False) := by
  unfold decInitFlow
  cases constructionError p with
  | none => exact ⟨rfl, rfl⟩
  | some e => exact ⟨rfl, rfl⟩

/-! ### One response or none -/

theorem refilled_waiting {p : Params} {d d' : Decoder} (h : Refilled p d d') : d'.waiting = d.waiting := by
  rcases h with ⟨-, rfl⟩ | ⟨-, -, -, b, -, -, rfl⟩ <;> rfl

/-- No part of an encoder command touches the field `waiting`. -/
theorem encFlow_waiting (p : Params) (i : Instr) {u : EncSide} (hw : u.enc.waiting = false) :
    (encFlow p i u).All (fun v => v.enc.waiting = false) := by
  by_cases hinit : ∃ cfg, i = .encInit cfg
  · obtain ⟨cfg, rfl⟩ := hinit
    exact (encInitFlow_post p cfg u).imp (fun _ _ h => by rw [h.2]; rfl) (fun _ _ h => by rw [h.2]; rfl)
      (fun _ _ => False.elim) (fun _ => False.elim)
  · refine (encFlow_post p (fun cfg h => hinit ⟨cfg, h⟩) u).imp ?_ (fun _ _ h => h.2.waiting.trans hw)
      (fun _ _ h => by rw [h.2, hw]) (fun _ h => h.2.waiting.trans hw)
    rintro x v ⟨-, -, w, hprogress, rfl | ⟨-, rfl⟩⟩ <;> exact hprogress.waiting.trans hw

/-- No part of a decoder command touches the field `waiting`. -/
theorem decFlow_waiting (p : Params) (i : Instr) {u : DecSide} (hw : u.dec.waiting = false) :
    (decFlow p i u).All (fun v => v.dec.waiting = false) := by
  by_cases hread : ∃ n, i = .decRead n
  · obtain ⟨n, rfl⟩ := hread
    refine (decReadFlow_post p n u).imp ?_ (fun _ _ h => by rw [h.2.2.1, hw]) ?_ (fun _ h => by rw [h.2.2, hw])
    · rintro x v ⟨-, -, d, hd, hv, -⟩
      rw [hv]
      exact (refilled_waiting hd).trans hw
    · rintro r v (⟨e, -, -, rfl⟩ | ⟨-, -, -, -, hv⟩)
      · exact hw
      · rw [hv]
        exact hw
  · have hflow : decFlow p i u = decInitFlow p u := by
      cases i with
      | decRead n => exact absurd ⟨n, rfl⟩ hread
      | _ => rfl
    rw [hflow]
    exact (decInitFlow_post p u).imp (fun _ _ h => by rw [h.2]; rfl) (fun _ _ h => by rw [h.2]; rfl)
      (fun _ _ => False.elim) (fun _ => False.elim)

/-- Settles O13: a flow that is not stuck gives one response, and leaves its unit as free to go on as it was. -/
theorem oneResponseOrNone : Obligations.OneResponseOrNone := by
  unfold Obligations.OneResponseOrNone
  intro i s t h
  cases ran_of_exec h with
  | enc hunit hw ht =>
    subst ht
    have hkept := encFlow_waiting s.params i (u := s.encSide) hw
    rw [finishEnc_responses, finishEnc_enc, finishEnc_dec, hw]
    cases hflow : encFlow s.params i s.encSide with
    | stuck u => exact .inr ⟨List.append_nil _, .inl ⟨hunit, rfl⟩⟩
    | _ => rw [hflow] at hkept; exact .inl ⟨_, rfl, hkept, rfl⟩
  | dec hunit hn hw ht =>
    subst ht
    have hkept := decFlow_waiting s.params i (u := s.decSide) hw
    rw [finishDec_responses, finishDec_dec, finishDec_enc, hw]
    cases hflow : decFlow s.params i s.decSide with
    | stuck u => exact .inr ⟨List.append_nil _, .inr ⟨hunit, rfl⟩⟩
    | _ => rw [hflow] at hkept; exact .inl ⟨_, rfl, rfl, hkept⟩
  | answered hunit r ht =>
    subst ht
    exact .inl ⟨r, rfl, rfl, rfl⟩

/-! ### `DEC.READ`, by what it can do -/

/-- A `DEC.READ` that has a next state: illegal, or the outcome of its flow. -/
theorem decReadFlow_of_exec {n : U32} {s t : State} (h : exec (.decRead n) s = .next t) :
    (n = 0 ∧ t = s.respond .illegalCommand) ∨
      (n ≠ 0 ∧ s.dec.waiting = false ∧ t = s.finishDec (decReadFlow s.params n s.decSide)) := by
  cases ran_of_exec h with
  | enc hunit => exact nomatch hunit
  | dec _ hn hw ht => exact .inr ⟨fun h0 => hn (congrArg _ h0), hw, ht⟩
  | answered hunit r ht =>
    have hzero : n = 0 := Instr.decRead.inj (hunit.resolve_left nofun)
    subst hzero
    exact .inl ⟨rfl, (Host.Outcome.next.inj h).symm⟩

/-! ### A failed `DEC.READ` -/

theorem refilled_err {p : Params} {d d' : Decoder} (h : Refilled p d d') : d'.err = d.err := by
  rcases h with ⟨-, rfl⟩ | ⟨-, -, -, b, -, -, rfl⟩ <;> rfl

theorem refilled_term {p : Params} {d d' : Decoder} (h : Refilled p d d') : d'.term = d.term := by
  rcases h with ⟨-, rfl⟩ | ⟨-, -, -, b, -, -, rfl⟩ <;> rfl

/-- Settles O50: an error is raised only while a frame is read, and is then the only change of the registers. -/
theorem decoderFailureKeepsItsRegisters : Obligations.DecoderFailureKeepsItsRegisters := by
  unfold Obligations.DecoderFailureKeepsItsRegisters
  intro n s t e h herr hlatched
  rcases decReadFlow_of_exec h with ⟨-, rfl⟩ | ⟨-, -, rfl⟩
  · exact absurd (herr.symm.trans hlatched) nofun
  have hpost := decReadFlow_post s.params n s.decSide
  rw [finishDec_dec] at hlatched
  rw [finishDec_dec, finishDec_source, finishDec_responses]
  cases hflow : decReadFlow s.params n s.decSide with
  | done x v =>
    rw [hflow] at hpost hlatched
    obtain ⟨-, -, d, hd, hv, -⟩ := hpost
    rw [decAfter_done, hv] at hlatched
    exact absurd (((refilled_err hd).trans herr).symm.trans hlatched) nofun
  | raised e' v =>
    rw [hflow] at hpost hlatched
    obtain ⟨⟨-, hres, hterm⟩, hdata, hv, -⟩ := hpost
    obtain rfl : e' = e := Option.some.inj hlatched
    exact ⟨by rw [decAfter_raised, hv]; rfl, hterm, hres, hdata, rfl⟩
  | answered r v =>
    rw [hflow] at hpost hlatched
    rcases hpost with ⟨e', he', -, -⟩ | ⟨-, -, -, -, hv⟩
    · exact absurd (herr.symm.trans he') nofun
    · rw [decAfter_answered, hv] at hlatched
      exact absurd (herr.symm.trans hlatched) nofun
  | stuck v =>
    rw [hflow] at hpost hlatched
    obtain ⟨-, -, hv⟩ := hpost
    rw [decAfter_stuck, hv] at hlatched
    exact absurd (herr.symm.trans hlatched) nofun

/-! ### The chunk of a `DEC.READ` -/

theorem deliverLength_le (n : U32) (d : Decoder) : deliverLength n d ≤ n.toNat := Nat.min_le_left _ _

/-- With the residual in its range, what a read delivers from is never empty. -/
theorem refilled_nonempty {p : Params} {d d' : Decoder} (h : Refilled p d d') (hrange : d.resPos ≤ d.resLen) :
    d'.resPos < d'.resLen := by
  rcases h with ⟨hres, rfl⟩ | ⟨-, -, -, b, h1, -, rfl⟩
  · exact Nat.lt_of_le_of_ne hrange hres
  · exact h1

/-- A read of at least one byte from a residual delivers at least one. -/
theorem deliverLength_pos {n : U32} {d : Decoder} (hn : n ≠ 0) (hd : d.resPos < d.resLen) : 1 ≤ deliverLength n d := by
  have hpos : n.toNat ≠ 0 := fun h0 => hn (BitVec.eq_of_toNat_eq h0)
  exact Nat.le_min.mpr ⟨by omega, by omega⟩

/-- Settles O5: the layouts by definition; a chunk is as long as it says, and holds at least one byte of a block. -/
theorem responsesCarryStatusAndPayload : Obligations.ResponsesCarryStatusAndPayload := by
  unfold Obligations.ResponsesCarryStatusAndPayload
  refine ⟨rfl, fun _ => rfl, fun _ => rfl, fun _ => rfl, fun _ => rfl, fun _ _ => rfl,
    fun n k out s t hinv h hresp => ?chunk, rfl, rfl, fun _ => ⟨rfl, rfl, rfl, rfl, rfl⟩⟩
  case chunk =>
    rcases decReadFlow_of_exec h with ⟨-, rfl⟩ | ⟨hn, -, rfl⟩
    · simp at hresp
    have hpost := decReadFlow_post s.params n s.decSide
    rw [finishDec_responses, List.append_cancel_left_eq] at hresp
    cases hflow : decReadFlow s.params n s.decSide with
    | done x v =>
      rw [hflow] at hpost hresp
      obtain ⟨-, -, d, hd, -, rfl⟩ := hpost
      rw [replies_done, List.cons.injEq, Response.ok.injEq, Payload.chunk.injEq] at hresp
      obtain ⟨⟨rfl, rfl⟩, -⟩ := hresp
      obtain ⟨hrange, -⟩ := hinv.dec.residual_range
      have hle := deliverLength_le n d
      have hk : (BitVec.ofNat 32 (deliverLength n d)).toNat = deliverLength n d := by
        rw [BitVec.toNat_ofNat, Nat.mod_eq_of_lt (by have := n.isLt; omega)]
      rw [hk, deliverBytes, memRead_length]
      exact ⟨rfl, deliverLength_pos hn (refilled_nonempty hd hrange), hle⟩
    | raised e v => rw [hflow] at hresp; simp at hresp
    | answered r v =>
      rw [hflow] at hpost hresp
      rcases hpost with ⟨e, -, rfl, -⟩ | ⟨-, -, -, rfl, -⟩ <;> simp at hresp
    | stuck v => rw [hflow] at hresp; simp at hresp

/-! ### Counters and contents -/

theorem EncSide.Progress.of_encAfter {p : Params} {i : Instr} (hinit : ∀ cfg, i ≠ .encInit cfg) (u : EncSide) :
    u.enc.nextIndex ≤ (encAfter (encFlow p i u)).enc.nextIndex ∧
      (u.enc.nextIndex ≤ 2 ^ 32 → (encAfter (encFlow p i u)).enc.nextIndex ≤ 2 ^ 32) ∧
      u.sink.data <+: (encAfter (encFlow p i u)).sink.data := by
  have hpost := encFlow_post p hinit u
  cases hflow : encFlow p i u with
  | done x v =>
    rw [hflow] at hpost
    obtain ⟨-, -, w, hw, rfl | ⟨-, rfl⟩⟩ := hpost <;> exact ⟨hw.nextIndex_le, hw.nextIndex_bound, hw.data⟩
  | raised e v =>
    rw [hflow] at hpost
    obtain ⟨-, hv⟩ := hpost
    exact ⟨hv.nextIndex_le, hv.nextIndex_bound, hv.data⟩
  | answered r v =>
    rw [hflow] at hpost
    obtain ⟨-, rfl⟩ := hpost
    exact ⟨Nat.le_refl _, id, List.prefix_refl _⟩
  | stuck v =>
    rw [hflow] at hpost
    obtain ⟨-, hv⟩ := hpost
    exact ⟨hv.nextIndex_le, hv.nextIndex_bound, hv.data⟩

/-- A read leaves the index, or counts one below 2^32. -/
theorem decAfter_decReadFlow (p : Params) (n : U32) (u : DecSide) :
    ((decAfter (decReadFlow p n u)).dec.expectedIndex = u.dec.expectedIndex ∨
      ((decAfter (decReadFlow p n u)).dec.expectedIndex = u.dec.expectedIndex + 1 ∧ u.dec.expectedIndex < 2 ^ 32)) ∧
      (decAfter (decReadFlow p n u)).source.data = u.source.data := by
  have hpost := decReadFlow_post p n u
  cases hflow : decReadFlow p n u with
  | done x v =>
    rw [hflow] at hpost
    obtain ⟨-, hdata, d, hd, hv, -⟩ := hpost
    refine ⟨?_, hdata⟩
    rw [decAfter_done, hv]
    rcases hd with ⟨-, rfl⟩ | ⟨-, -, hidx, b, -, -, rfl⟩
    · exact .inl rfl
    · exact .inr ⟨rfl, hidx⟩
  | raised e v =>
    rw [hflow] at hpost
    obtain ⟨-, hdata, hv, -⟩ := hpost
    exact ⟨.inl (by rw [decAfter_raised, hv]), hdata⟩
  | answered r v =>
    rw [hflow] at hpost
    rcases hpost with ⟨e, -, -, rfl⟩ | ⟨-, -, hdata, -, hv⟩
    · exact ⟨.inl rfl, rfl⟩
    · exact ⟨.inl (by rw [decAfter_answered, hv]), hdata⟩
  | stuck v =>
    rw [hflow] at hpost
    obtain ⟨-, hdata, hv⟩ := hpost
    exact ⟨.inl (by rw [decAfter_stuck, hv]), hdata⟩

/-- Settles O58: each frame emitted or accepted counts one below 2^32. -/
theorem indexCountersOnlyAdvance : Obligations.IndexCountersOnlyAdvance := by
  unfold Obligations.IndexCountersOnlyAdvance
  intro i s t h
  cases ran_of_exec h with
  | enc hunit hw ht =>
    subst ht
    refine ⟨fun hinit => ?_, fun _ => ?_⟩
    · obtain ⟨hle, hbound, -⟩ := EncSide.Progress.of_encAfter (p := s.params) hinit s.encSide
      rw [finishEnc_enc]
      exact ⟨hle, hbound⟩
    · rw [finishEnc_dec]
      exact ⟨Nat.le_refl _, Nat.le_succ _, id⟩
  | dec hunit hn hw ht =>
    subst ht
    refine ⟨fun _ => ?_, fun hinit => ?_⟩
    · rw [finishDec_enc]
      exact ⟨Nat.le_refl _, id⟩
    · obtain ⟨n, rfl⟩ := (commandUnit_eq_dec_iff.mp hunit).resolve_left hinit
      obtain ⟨hidx, -⟩ := decAfter_decReadFlow s.params n s.decSide
      rw [decSide_dec] at hidx
      rw [finishDec_dec, decFlow]
      omega
  | answered hunit r ht =>
    subst ht
    exact ⟨fun _ => ⟨Nat.le_refl _, id⟩, fun _ => ⟨Nat.le_refl _, Nat.le_succ _, id⟩⟩

/-- Settles O59: an encoder command only appends, a decoder command only moves the position. -/
theorem sinkIsAppendOnly : Obligations.SinkIsAppendOnly := by
  unfold Obligations.SinkIsAppendOnly
  intro i s t h
  cases ran_of_exec h with
  | enc hunit hw ht =>
    subst ht
    rw [finishEnc_sink, finishEnc_source]
    refine ⟨?_, rfl⟩
    by_cases hinit : ∃ cfg, i = .encInit cfg
    · obtain ⟨cfg, rfl⟩ := hinit
      have hsink : (encAfter (encInitFlow s.params cfg s.encSide)).sink = s.sink := by
        unfold encInitFlow
        split <;> rfl
      rw [encFlow, hsink]
    · obtain ⟨-, -, hdata⟩ := EncSide.Progress.of_encAfter (p := s.params) (fun cfg hi => hinit ⟨cfg, hi⟩) s.encSide
      exact hdata
  | dec hunit hn hw ht =>
    subst ht
    rw [finishDec_sink, finishDec_source]
    refine ⟨List.prefix_refl _, ?_⟩
    rcases commandUnit_eq_dec_iff.mp hunit with rfl | ⟨n, rfl⟩
    · show (decAfter (decInitFlow s.params s.decSide)).source.data = s.source.data
      unfold decInitFlow
      split <;> rfl
    · obtain ⟨-, hdata⟩ := decAfter_decReadFlow s.params n s.decSide
      exact hdata
  | answered hunit r ht =>
    subst ht
    exact ⟨List.prefix_refl _, rfl⟩

end Sys2Proof.Machine

/-! Modes and latched errors over the steps of the machine (spec/60_exceptions.md section 3), and the commands that make no
call or only forward one (spec/42_block_encoder.md R140, R145; spec/43_block_decoder.md R172, R179, R183). -/

namespace Sys2Proof.Machine

/-! ### The steps of the machine -/

/-- All that a step with an event can have been. -/
inductive Stepped (s t : State) (rest : List HostEvent) : HostEvent → Prop
  | command (b : Bytes) (i : Instr) (hdecode : decode b = .ok i) (h : exec i { s with events := rest } = .next t) :
      Stepped s t rest (.command b)
  | illegal (b : Bytes) (e : DecodeError) (hdecode : decode b = .error e)
      (h : t = State.respond { s with events := rest } .illegalCommand) : Stepped s t rest (.command b)
  | attachSink (k : Sink) (h : t = { s with sink := k, events := rest }) : Stepped s t rest (.attachSink k)
  | attachSource (r : Source) (h : t = { s with source := r, events := rest }) : Stepped s t rest (.attachSource r)
  | powerOnReset (h : t = State.powerOnReset { s with events := rest }) : Stepped s t rest .powerOnReset

theorem stepped_of_step {s t : State} {ev : HostEvent} {rest : List HostEvent} (hevents : s.events = ev :: rest)
    (h : step s = .next t) : Stepped s t rest ev := by
  cases ev with
  | command b =>
    rw [step_command hevents] at h
    cases hdecode : decode b with
    | ok i => exact .command b i hdecode (runTransaction_of_decode hdecode _ ▸ h)
    | error e =>
      rw [runTransaction, hdecode] at h
      exact .illegal b e hdecode (Host.Outcome.next.inj h).symm
  | attachSink k => exact .attachSink k (Host.Outcome.next.inj ((step_attachSink hevents).symm.trans h)).symm
  | attachSource r => exact .attachSource r (Host.Outcome.next.inj ((step_attachSource hevents).symm.trans h)).symm
  | powerOnReset => exact .powerOnReset (Host.Outcome.next.inj ((step_powerOnReset hevents).symm.trans h)).symm

/-! ### The encoder's mode -/

theorem encoder_mode_eq_failed {e : Encoder} : e.mode = .failed ↔ ∃ x, e.err = some x := by
  unfold Encoder.mode
  cases e.err <;> cases e.closed <;> simp

theorem encoder_mode_eq_closed {e : Encoder} : e.mode = .closed ↔ e.err = none ∧ e.closed = true := by
  unfold Encoder.mode
  cases e.err <;> cases e.closed <;> simp

theorem encoder_mode_eq_opened {e : Encoder} : e.mode = .opened ↔ e.err = none ∧ e.closed = false := by
  unfold Encoder.mode
  cases e.err <;> cases e.closed <;> simp

/-- A command but `ENC.INIT` leaves the registers of a closed or failed encoder as they were (R140, R214). -/
theorem exec_enc_kept {i : Instr} {s t : State} (h : exec i s = .next t) (hinit : ∀ cfg, i ≠ .encInit cfg)
    (hmode : s.enc.mode ≠ .opened) : t.enc = s.enc := by
  cases ran_of_exec h with
  | enc hunit hw ht =>
    subst ht
    have hpost := encFlow_post s.params hinit s.encSide
    rw [finishEnc_enc]
    cases hflow : encFlow s.params i s.encSide with
    | answered r v => rw [hflow] at hpost; exact congrArg EncSide.enc hpost.2
    | _ => rw [hflow] at hpost; exact absurd hpost.1 hmode
  | dec hunit hn hw ht => subst ht; exact finishDec_enc _ _
  | answered hunit r ht => subst ht; rfl

/-- What a command but `ENC.INIT` makes of an open encoder: it stays open, or `ENC.CLOSE` answers `OK` and closes it, or an
error is latched and answered. -/
theorem exec_enc_opened {i : Instr} {s t : State} (h : exec i s = .next t) (hinit : ∀ cfg, i ≠ .encInit cfg)
    (hmode : s.enc.mode = .opened) :
    t.enc.mode = .opened ∨
    (t.enc.mode = .closed ∧ i = .encClose ∧ t.responses = s.responses ++ [.ok .empty]) ∨
    (t.enc.mode = .failed ∧ ∃ e, t.enc.err = some e ∧ t.responses = s.responses ++ [.error e]) := by
  obtain ⟨herr, hclosed⟩ := encoder_mode_eq_opened.mp hmode
  cases ran_of_exec h with
  | enc hunit hw ht =>
    subst ht
    have hpost := encFlow_post s.params hinit s.encSide
    rw [finishEnc_enc, finishEnc_responses]
    cases hflow : encFlow s.params i s.encSide with
    | done x v =>
      rw [hflow] at hpost
      obtain ⟨-, rfl, w, hprogress, rfl | ⟨rfl, rfl⟩⟩ := hpost
      · exact .inl (encoder_mode_eq_opened.mpr ⟨hprogress.err.trans herr, hprogress.closed.trans hclosed⟩)
      · exact .inr (.inl ⟨encoder_mode_eq_closed.mpr ⟨hprogress.err.trans herr, rfl⟩, rfl, rfl⟩)
    | raised e v => exact .inr (.inr ⟨encoder_mode_eq_failed.mpr ⟨e, rfl⟩, e, rfl, rfl⟩)
    | answered r v => rw [hflow] at hpost; exact absurd hmode hpost.1
    | stuck v =>
      rw [hflow] at hpost
      obtain ⟨-, hprogress⟩ := hpost
      exact .inl (encoder_mode_eq_opened.mpr ⟨hprogress.err.trans herr, hprogress.closed.trans hclosed⟩)
  | dec hunit hn hw ht => subst ht; rw [finishDec_enc]; exact .inl hmode
  | answered hunit r ht => subst ht; exact .inl hmode

/-! ### The decoder's mode -/

theorem decoder_mode_eq_failed {d : Decoder} : d.mode = .failed ↔ ∃ x, d.err = some x := by
  unfold Decoder.mode
  cases d.err with
  | none => by_cases ht : d.term = true <;> by_cases hr : d.resPos = d.resLen <;> simp [Decoder.ResidualEmpty, ht, hr]
  | some x => simp

theorem decoder_mode_eq_terminated {d : Decoder} :
    d.mode = .terminated ↔ d.err = none ∧ d.term = true ∧ d.ResidualEmpty := by
  unfold Decoder.mode
  cases d.err with
  | none => by_cases ht : d.term = true <;> by_cases hr : d.resPos = d.resLen <;> simp [Decoder.ResidualEmpty, ht, hr]
  | some x => simp

theorem decoder_mode_eq_active {d : Decoder} :
    d.mode = .active ↔ d.err = none ∧ ¬ (d.term = true ∧ d.ResidualEmpty) := by
  unfold Decoder.mode
  cases d.err with
  | none => by_cases ht : d.term = true <;> by_cases hr : d.resPos = d.resLen <;> simp [Decoder.ResidualEmpty, ht, hr]
  | some x => simp

/-- A decoder command but `DEC.INIT` is illegal or the outcome of a `DEC.READ`. -/
theorem exec_dec_cases {i : Instr} {s t : State} (h : exec i s = .next t) (hinit : i ≠ .decInit) :
    t.dec = s.dec ∨
      ∃ n, i = .decRead n ∧ n ≠ 0 ∧ t.dec = (decAfter (decReadFlow s.params n s.decSide)).dec ∧
        t.responses = s.responses ++ (decReadFlow s.params n s.decSide).replies := by
  cases ran_of_exec h with
  | enc hunit hw ht => subst ht; exact .inl (finishEnc_dec _ _)
  | dec hunit hn hw ht =>
    subst ht
    obtain ⟨n, rfl⟩ := (commandUnit_eq_dec_iff.mp hunit).resolve_left hinit
    exact .inr ⟨n, rfl, fun h0 => hn (congrArg _ h0), finishDec_dec _ _, finishDec_responses _ _⟩
  | answered hunit r ht => subst ht; exact .inl rfl

/-- A command but `DEC.INIT` leaves the registers of a terminated or failed decoder as they were (R183, R214). -/
theorem exec_dec_kept {i : Instr} {s t : State} (h : exec i s = .next t) (hinit : i ≠ .decInit)
    (hmode : s.dec.mode ≠ .active) : t.dec = s.dec := by
  rcases exec_dec_cases h hinit with hkept | ⟨n, rfl, -, hdec, -⟩
  · exact hkept
  have hactive : s.dec.err = none → ¬ (s.dec.term = true ∧ s.dec.ResidualEmpty) → False :=
    fun herr hnot => hmode (decoder_mode_eq_active.mpr ⟨herr, hnot⟩)
  have hpost := decReadFlow_post s.params n s.decSide
  rw [hdec]
  cases hflow : decReadFlow s.params n s.decSide with
  | done x v =>
    rw [hflow] at hpost
    obtain ⟨herr, -, d, ⟨hres, -⟩ | ⟨-, hterm, -⟩, -⟩ := hpost
    · exact (hactive herr fun ⟨_, hempty⟩ => hres hempty).elim
    · exact (hactive herr fun ⟨ht, _⟩ => nomatch hterm.symm.trans ht).elim
  | raised e v =>
    rw [hflow] at hpost
    obtain ⟨⟨herr, -, hterm⟩, -⟩ := hpost
    exact (hactive herr fun ⟨ht, _⟩ => nomatch hterm.symm.trans ht).elim
  | stuck v =>
    rw [hflow] at hpost
    obtain ⟨⟨herr, -, hterm⟩, -⟩ := hpost
    exact (hactive herr fun ⟨ht, _⟩ => nomatch hterm.symm.trans ht).elim
  | answered r v =>
    rw [hflow] at hpost
    rcases hpost with ⟨e, -, -, rfl⟩ | ⟨herr, hres, -, -, hv⟩
    · rfl
    · have hterm : s.dec.term = true := by
        by_contra hfalse
        exact hactive herr fun ⟨ht, _⟩ => hfalse ht
      rw [decAfter_answered, hv, decSide_dec, ← hterm]

/-- What a command but `DEC.INIT` makes of an active decoder whose terminal flag is clear: it stays active, or a `DEC.READ`
answers `EOS` and terminates it, or an error is latched and answered. -/
theorem exec_dec_active {i : Instr} {s t : State} (h : exec i s = .next t) (hinit : i ≠ .decInit)
    (herr : s.dec.err = none) (hterm : s.dec.term = false) :
    t.dec.mode = .active ∨
    (t.dec.mode = .terminated ∧ (∃ n, n ≠ 0 ∧ i = .decRead n) ∧ t.responses = s.responses ++ [.eos]) ∨
    (t.dec.mode = .failed ∧ ∃ e, t.dec.err = some e ∧ t.responses = s.responses ++ [.error e]) := by
  have hactive : ∀ d : Decoder, d.err = none → d.term = false → d.mode = .active := fun d he ht =>
    decoder_mode_eq_active.mpr ⟨he, fun ⟨h1, _⟩ => nomatch ht.symm.trans h1⟩
  rcases exec_dec_cases h hinit with hkept | ⟨n, rfl, hn, hdec, hresp⟩
  · rw [hkept]
    exact .inl (hactive _ herr hterm)
  have hpost := decReadFlow_post s.params n s.decSide
  rw [hdec, hresp]
  cases hflow : decReadFlow s.params n s.decSide with
  | done x v =>
    rw [hflow] at hpost
    obtain ⟨-, -, d, hd, hv, -⟩ := hpost
    rw [decAfter_done, hv]
    exact .inl (hactive _ ((refilled_err hd).trans herr) ((refilled_term hd).trans hterm))
  | raised e v => exact .inr (.inr ⟨decoder_mode_eq_failed.mpr ⟨e, rfl⟩, e, rfl, rfl⟩)
  | answered r v =>
    rw [hflow] at hpost
    rcases hpost with ⟨e, he, -, -⟩ | ⟨-, hres, -, rfl, hv⟩
    · exact absurd (herr.symm.trans he) nofun
    · refine .inr (.inl ⟨?_, ⟨n, hn, rfl⟩, rfl⟩)
      rw [decAfter_answered, hv]
      exact decoder_mode_eq_terminated.mpr ⟨herr, rfl, hres⟩
  | stuck v =>
    rw [hflow] at hpost
    obtain ⟨-, -, hv⟩ := hpost
    rw [decAfter_stuck, hv]
    exact .inl (hactive _ herr hterm)

/-! ### The statements about modes -/

/-- Settles O56: a failed unit's registers change by construction alone. -/
theorem latchedErrorsLastUntilConstruction : Obligations.LatchedErrorsLastUntilConstruction := by
  unfold Obligations.LatchedErrorsLastUntilConstruction
  intro s t ev rest e hevents hstep
  have henc : s.enc.err = some e → s.enc.mode ≠ .opened := fun he hm =>
    nomatch (encoder_mode_eq_opened.mp hm).1.symm.trans he
  have hdec : s.dec.err = some e → s.dec.mode ≠ .active := fun he hm =>
    nomatch (decoder_mode_eq_active.mp hm).1.symm.trans he
  cases stepped_of_step hevents hstep with
  | command b i hdecode h =>
    exact ⟨fun he hnot => exec_enc_kept (s := { s with events := rest }) h (fun cfg hi => hnot ⟨cfg, hi ▸ hdecode⟩) (henc he),
      fun he hnot => exec_dec_kept (s := { s with events := rest }) h (fun hi => hnot (hi ▸ hdecode : decode b = .ok .decInit)) (hdec he)⟩
  | illegal b e' hdecode h => subst h; exact ⟨fun _ _ => rfl, fun _ _ => rfl⟩
  | attachSink k h => subst h; exact ⟨fun _ _ => rfl, fun _ _ => rfl⟩
  | attachSource r h => subst h; exact ⟨fun _ _ => rfl, fun _ _ => rfl⟩
  | powerOnReset h => exact ⟨fun _ hnot => absurd trivial hnot, fun _ hnot => absurd trivial hnot⟩

/-- How the encoder's mode changes in a step (R222). -/
def EncModeRule (s t : State) (ev : HostEvent) : Prop :=
  ¬ ConstructsEnc ev →
    (s.enc.mode ≠ .opened → t.enc.mode = s.enc.mode) ∧
    (s.enc.mode = .opened → t.enc.mode = .closed →
      ev = .command (encode .encClose) ∧ t.responses = s.responses ++ [.ok .empty]) ∧
    (s.enc.mode = .opened → t.enc.mode = .failed →
      ∃ e, t.enc.err = some e ∧ t.responses = s.responses ++ [.error e])

/-- How the decoder's mode changes in a step (R223). -/
def DecModeRule (s t : State) (ev : HostEvent) : Prop :=
  ¬ ConstructsDec ev →
    (s.dec.mode ≠ .active → t.dec.mode = s.dec.mode) ∧
    (s.dec.mode = .active → t.dec.mode = .terminated →
      (∃ n, ev = .command (encode (.decRead n))) ∧ t.responses = s.responses ++ [.eos]) ∧
    (s.dec.mode = .active → t.dec.mode = .failed →
      ∃ e, t.dec.err = some e ∧ t.responses = s.responses ++ [.error e])

theorem encModeRule_of_kept {s t : State} (ev : HostEvent) (h : t.enc = s.enc) : EncModeRule s t ev := by
  intro _
  rw [h]
  exact ⟨fun _ => rfl, fun hs ht => absurd (hs.symm.trans ht) nofun, fun hs ht => absurd (hs.symm.trans ht) nofun⟩

theorem decModeRule_of_kept {s t : State} (ev : HostEvent) (h : t.dec = s.dec) : DecModeRule s t ev := by
  intro _
  rw [h]
  exact ⟨fun _ => rfl, fun hs ht => absurd (hs.symm.trans ht) nofun, fun hs ht => absurd (hs.symm.trans ht) nofun⟩

theorem encModeRule_command {i : Instr} {s t : State} (h : exec i s = .next t)
    (hdecode : decode (encode i) = .ok i) : EncModeRule s t (.command (encode i)) := by
  intro hnot
  have hinit : ∀ cfg, i ≠ .encInit cfg := fun cfg hi => hnot ⟨cfg, hi ▸ hdecode⟩
  refine ⟨fun hmode => by rw [exec_enc_kept h hinit hmode], fun hmode hclosed => ?_, fun hmode hfailed => ?_⟩
  all_goals rcases exec_enc_opened h hinit hmode with ho | ⟨hc, rfl, hresp⟩ | ⟨hf, herr⟩
  · exact nomatch ho.symm.trans hclosed
  · exact ⟨rfl, hresp⟩
  · exact nomatch hf.symm.trans hclosed
  · exact nomatch ho.symm.trans hfailed
  · exact nomatch hc.symm.trans hfailed
  · exact herr

/-- The invariant rules out a terminal flag beside a residual. -/
theorem term_of_active {p : Params} {d : Decoder} (hinv : d.Inv p) (h : d.mode = .active) : d.term = false := by
  obtain ⟨-, hnot⟩ := decoder_mode_eq_active.mp h
  cases hterm : d.term with
  | false => rfl
  | true => exact absurd ⟨hterm, hinv.term_empty hterm⟩ hnot

theorem decModeRule_command {i : Instr} {s t : State} {p : Params} (hinv : s.dec.Inv p) (h : exec i s = .next t)
    (hdecode : decode (encode i) = .ok i) : DecModeRule s t (.command (encode i)) := by
  intro hnot
  have hinit : i ≠ .decInit := fun hi => hnot (by subst hi; exact hdecode)
  refine ⟨fun hmode => by rw [exec_dec_kept h hinit hmode], fun hmode hended => ?_, fun hmode hfailed => ?_⟩
  all_goals
    obtain ⟨herr, -⟩ := decoder_mode_eq_active.mp hmode
    rcases exec_dec_active h hinit herr (term_of_active hinv hmode) with ha | ⟨hc, ⟨n, -, rfl⟩, hresp⟩ | ⟨hf, herr⟩
  · exact nomatch ha.symm.trans hended
  · exact ⟨⟨n, rfl⟩, hresp⟩
  · exact nomatch hf.symm.trans hended
  · exact nomatch ha.symm.trans hfailed
  · exact nomatch hc.symm.trans hfailed
  · exact herr

/-- Settles O57: an event but construction leaves both modes, or changes them as the command does that it issues. -/
theorem modesChangeOnlyAsTheSpecSays : Obligations.ModesChangeOnlyAsTheSpecSays := by
  unfold Obligations.ModesChangeOnlyAsTheSpecSays
  intro s t ev rest hinv hevents hstep
  show EncModeRule s t ev ∧ DecModeRule s t ev
  cases stepped_of_step hevents hstep with
  | illegal b e' hdecode h => subst h; exact ⟨encModeRule_of_kept _ rfl, decModeRule_of_kept _ rfl⟩
  | attachSink k h => subst h; exact ⟨encModeRule_of_kept _ rfl, decModeRule_of_kept _ rfl⟩
  | attachSource r h => subst h; exact ⟨encModeRule_of_kept _ rfl, decModeRule_of_kept _ rfl⟩
  | powerOnReset h => exact ⟨fun hnot => absurd trivial hnot, fun hnot => absurd trivial hnot⟩
  | command b i hdecode h =>
    obtain ⟨rfl, -⟩ := decodesTo_of_decode hdecode
    exact ⟨encModeRule_command (s := { s with events := rest }) h hdecode,
      decModeRule_command (s := { s with events := rest }) hinv.dec h hdecode⟩

/-! ### Commands that make no call, and the flush -/

/-- Settles O31: the admission answers (R140). -/
theorem closedEncoderAnswersIOFailure : Obligations.ClosedEncoderAnswersIOFailure := by
  unfold Obligations.ClosedEncoderAnswersIOFailure
  intro s i hw herr hclosed hunit hinit
  exact exec_enc_admit_answered hunit hinit hw (encAdmit_closed herr hclosed)

/-- Settles O32: the outcome of the one call; a failed or closed encoder makes none. -/
theorem encFlushForwardsToTheSink : Obligations.EncFlushForwardsToTheSink := by
  unfold Obligations.EncFlushForwardsToTheSink
  refine ⟨fun s hs hanswer => ?ok, fun s hs hanswer => ⟨(sinkFlush s.sink).2, ?fail, rfl, rfl, rfl⟩,
    fun s e hw herr => exec_enc_admit_answered rfl (by simp) hw (encAdmit_failed herr),
    fun s hw herr hclosed => exec_enc_admit_answered rfl (by simp) hw (encAdmit_closed herr hclosed), rfl⟩
  case ok =>
    have hcall : sinkFlush s.encSide.sink = (.ok, (sinkFlush s.sink).2) := by rw [← hanswer]; rfl
    rw [exec_admitted hs rfl (by simp), admittedFlow, encCall_ok 2 hcall, bind_done, finishEnc_eq]
    rfl
  case fail =>
    have hcall : sinkFlush s.encSide.sink = (.fail, (sinkFlush s.sink).2) := by rw [← hanswer]; rfl
    rw [exec_admitted hs rfl (by simp), admittedFlow, encCall_stopped 2 hcall nofun, stopped_bind, stopped_fail, finishEnc_eq]
    rfl

/-- Settles O43: the residual is delivered from before any frame is read. -/
theorem decReadDeliversTheResidualFirst : Obligations.DecReadDeliversTheResidualFirst := by
  unfold Obligations.DecReadDeliversTheResidualFirst
  intro n s hn hw herr hres
  have hnonempty : ¬ s.decSide.dec.ResidualEmpty := Nat.ne_of_lt hres
  rw [exec_decRead hn hw, decReadFlow, decAdmit_ready herr, bind_done, refill_residual _ hnonempty, bind_done, finishDec_eq]
  rfl

/-- Settles O44: with the terminal flag set no frame is read. -/
theorem terminatedDecoderAnswersEos : Obligations.TerminatedDecoderAnswersEos := by
  unfold Obligations.TerminatedDecoderAnswersEos
  intro n s hn hw herr hterm hres
  rw [exec_decRead hn hw, decReadFlow, decAdmit_ready herr, bind_done, refill_terminated _ hres hterm, bind_answered,
    finishDec_eq]
  rfl

end Sys2Proof.Machine

/-! Every step keeps the invariants of spec/10_state.md section 6: the encoder's registers between its sink calls, the
decoder's when it has read a frame. -/

namespace Sys2Proof.Machine

/-! ### Memory -/

theorem readCell_memWrite_isSome {m : Memory} {a : Nat} {b : Bytes} {i : Nat}
    (h : (a ≤ i ∧ i < a + b.length) ∨ (readCell m i).isSome) : (readCell (memWrite m a b) i).isSome := by
  rw [readCell_memWrite]
  split
  · next hin => rw [List.getElem?_eq_getElem (by omega)]; rfl
  · next hout => exact h.resolve_left hout

theorem Written.memWrite {m : Memory} {n : Nat} (h : Written m n) (b : Bytes) :
    Written (Machine.memWrite m n b) (n + b.length) := fun i hi =>
  readCell_memWrite_isSome (by
    by_cases hin : n ≤ i
    · exact .inl ⟨hin, hi⟩
    · exact .inr (h i (by omega)))

/-! ### The encoder inside a command -/

/-- What holds of an open encoder's registers between its sink calls: the invariants but for I-b of R40. -/
structure Encoder.Working (p : Params) (e : Encoder) : Prop where
  wf : e.buf.wf
  blockSize_range : 1 ≤ e.blockSize ∧ e.blockSize ≤ 2 ^ 31 - 1
  fill_le : e.fill ≤ e.blockSize
  written : Written e.buf e.fill
  nextIndex_le : e.nextIndex ≤ 2 ^ 32
  closed : e.closed = false
  err : e.err = none
  available : p.sha256Available = true

section Working

variable {p : Params} {e : Encoder}

theorem Encoder.Inv.working (h : e.Inv p) (hmode : e.mode = .opened) : e.Working p where
  wf := h.wf
  blockSize_range := h.blockSize_range
  fill_le := h.fill_le
  written := h.written
  nextIndex_le := h.nextIndex_le
  closed := (encoder_mode_eq_opened.mp hmode).2
  err := (encoder_mode_eq_opened.mp hmode).1
  available := by
    cases hsha : p.sha256Available with
    | true => rfl
    | false => exact absurd ((encoder_mode_eq_opened.mp hmode).1.symm.trans (h.unavailable hsha)) nofun

theorem Encoder.Working.mode (h : e.Working p) : e.mode = .opened := encoder_mode_eq_opened.mpr ⟨h.err, h.closed⟩

/-- The flags a command ends with decide the rest of the invariants. -/
theorem Encoder.Working.inv_with (h : e.Working p) (x : Option Err) (c w : Bool)
    (hopen : x = none → c = false → w = false → e.fill < e.blockSize)
    (hclosed : c = true → x = none ∧ e.fill = 0 ∧ w = false)
    (herr : ∀ y, x = some y → y ∈ encErrors p ∧ w = false) :
    ({ e with err := x, closed := c, waiting := w } : Encoder).Inv p where
  wf := h.wf
  blockSize_range := h.blockSize_range
  fill_le := h.fill_le
  written := h.written
  nextIndex_le := h.nextIndex_le
  open_fill := fun hm => by
    obtain ⟨hx, hc⟩ := encoder_mode_eq_opened.mp hm
    exact hopen hx hc
  closed_fill := fun hm => by
    obtain ⟨-, hc⟩ := encoder_mode_eq_closed.mp hm
    obtain ⟨-, hfill, -⟩ := hclosed hc
    exact hfill
  closed_err := fun hc => by
    obtain ⟨hx, -⟩ := hclosed hc
    exact hx
  err_legal := fun y hy => by
    obtain ⟨hlegal, -⟩ := herr y hy
    exact hlegal
  unavailable := fun hsha => absurd (h.available.symm.trans hsha) nofun
  waiting_open := fun (hw : w = true) => by
    refine encoder_mode_eq_opened.mpr ⟨?_, ?_⟩
    · cases hx : x with
      | none => rfl
      | some y =>
        obtain ⟨-, hidle⟩ := herr y hx
        exact absurd (hidle.symm.trans hw) nofun
    · cases hc : c with
      | false => rfl
      | true =>
        obtain ⟨-, -, hidle⟩ := hclosed hc
        exact absurd (hidle.symm.trans hw) nofun

theorem Encoder.Working.inv (h : e.Working p) (hfill : e.fill < e.blockSize) : e.Inv p :=
  h.inv_with e.err e.closed e.waiting (fun _ _ _ => hfill) (fun hc => absurd (h.closed.symm.trans hc) nofun)
    (fun _ hx => absurd (h.err.symm.trans hx) nofun)

theorem Encoder.Working.inv_waiting (h : e.Working p) : ({ e with waiting := true } : Encoder).Inv p :=
  h.inv_with e.err e.closed true nofun (fun hc => absurd (h.closed.symm.trans hc) nofun)
    (fun _ hx => absurd (h.err.symm.trans hx) nofun)

theorem Encoder.Working.inv_failed (h : e.Working p) (hw : e.waiting = false) {x : Err} (hx : x ∈ encErrors p) :
    ({ e with err := some x } : Encoder).Inv p :=
  h.inv_with (some x) e.closed e.waiting nofun (fun hc => absurd (h.closed.symm.trans hc) nofun)
    (fun _ hy => ⟨Option.some.inj hy ▸ hx, hw⟩)

theorem Encoder.Working.inv_closed (h : e.Working p) (hfill : e.fill = 0) (hw : e.waiting = false) :
    ({ e with closed := true } : Encoder).Inv p :=
  h.inv_with e.err true e.waiting nofun (fun _ => ⟨h.err, hfill, hw⟩)
    (fun _ hx => absurd (h.err.symm.trans hx) nofun)

end Working

/-! ### The operations of the encoder -/

/-- The operation ends between calls, with no wait begun: done as `D` says, or raising an error an encoder may latch. -/
def Flow.Works {α : Type} (p : Params) (D : EncSide → Prop) (f : Flow EncSide α) : Prop :=
  f.Post (fun _ v => v.enc.Working p ∧ v.enc.waiting = false ∧ D v)
    (fun e v => v.enc.Working p ∧ v.enc.waiting = false ∧ e ∈ encErrors p) (fun _ _ => False)
    (fun v => v.enc.Working p)

theorem Flow.Works.bind {α β : Type} {p : Params} {D D' : EncSide → Prop} {f : Flow EncSide α}
    {g : α → EncSide → Flow EncSide β} (hf : f.Works p D)
    (hg : ∀ a v, v.enc.Working p → v.enc.waiting = false → D v → (g a v).Works p D') : (f.bind g).Works p D' :=
  Flow.Post.bind hf fun a v ⟨hv, hw, hd⟩ => hg a v hv hw hd

/-- An operation that leaves the registers and raises only a legal error. -/
theorem Flow.Works.of_kept {α : Type} {p : Params} {u : EncSide} {D : EncSide → Prop} {f : Flow EncSide α}
    (hu : u.enc.Working p) (hw : u.enc.waiting = false) (hD : ∀ v, v.enc = u.enc → D v)
    (hf : f.Post (fun _ v => v.enc = u.enc) (fun e v => v.enc = u.enc ∧ e ∈ encErrors p) (fun _ _ => False)
      (fun v => v.enc = u.enc)) : f.Works p D := by
  refine hf.imp (fun _ v hv => ⟨hv ▸ hu, hv ▸ hw, hD v hv⟩) ?_ (fun _ _ => id) (fun v hv => hv ▸ hu)
  rintro e v ⟨hv, he⟩
  exact ⟨hv ▸ hu, hv ▸ hw, he⟩

theorem encErrors_of_available {p : Params} (h : p.sha256Available = true) :
    encErrors p = [ioFailure 1, ioFailure 2, ioFailure 3, rangeError] := if_pos h

section Works

variable {p : Params} {u : EncSide}

theorem emitFrame_works (b d : Bytes) (hu : u.enc.Working p) (hw : u.enc.waiting = false) :
    (emitFrame b d u).Works p (fun v => v.enc.fill = u.enc.fill ∧ v.enc.blockSize = u.enc.blockSize) := by
  have hlegal := encErrors_of_available hu.available
  refine (emitFrame_post b d u).imp ?_ ?_ (fun _ _ => id) (fun v ⟨hv, _⟩ => hv ▸ hu)
  · rintro - v ⟨hidx, hv, -⟩
    beta_reduce
    rw [hv]
    exact ⟨{ hu with nextIndex_le := hidx }, hw, rfl, rfl⟩
  · rintro e v ⟨hv, ⟨rfl, -⟩ | ⟨rfl, -⟩⟩ <;> rw [hv, hlegal] <;> exact ⟨hu, hw, by simp⟩

theorem emitBuffer_works (hu : u.enc.Working p) (hw : u.enc.waiting = false) :
    (emitBuffer u).Works p (fun v => v.enc.fill = 0 ∧ v.enc.blockSize = u.enc.blockSize) := by
  refine Flow.Post.bind (emitFrame_works _ _ hu hw) ?_
  rintro - v ⟨hv, hvw, -, hsize⟩
  exact ⟨{ hv with fill_le := Nat.zero_le _, written := fun i hi => absurd hi (Nat.not_lt_zero i) }, hvw, rfl, hsize⟩

theorem emitRest_works (hu : u.enc.Working p) (hw : u.enc.waiting = false) :
    (emitRest u).Works p (fun v => v.enc.fill = 0) := by
  unfold emitRest
  split
  · exact (emitBuffer_works hu hw).imp (fun _ _ ⟨hv, hvw, hfill, _⟩ => ⟨hv, hvw, hfill⟩) (fun _ _ => id) (fun _ _ => id)
      (fun _ => id)
  · exact ⟨hu, hw, by omega⟩

theorem fillBuffer_working (hu : u.enc.Working p) {data : Bytes} (h : u.enc.fill + data.length ≤ u.enc.blockSize) :
    (fillBuffer data u).enc.Working p :=
  { hu with
    wf := memWrite_wf hu.wf _ _
    fill_le := h
    written := hu.written.memWrite data }

/-- A call whose failure is `IOFailure` of a legal cause. -/
theorem encCall_works (call : Sink → SinkAnswer × Sink) {cause : Byte} {D : EncSide → Prop}
    (hcause : ioFailure cause ∈ encErrors p) (hu : u.enc.Working p) (hw : u.enc.waiting = false)
    (hD : ∀ v, v.enc = u.enc → D v) : (encCall call cause u).Works p D :=
  .of_kept hu hw hD ((encCall_post call cause u).imp (fun _ _ ⟨hv, _⟩ => hv)
    (fun _ _ ⟨hv, he, _⟩ => ⟨hv, he ▸ hcause⟩) (fun _ _ => id) (fun _ ⟨hv, _⟩ => hv))

end Works

/-- What holds of every outcome of the write loop, from what holds of one pass. -/
theorem writeBytes_post {D : EncSide → Prop} {R : Err → EncSide → Prop} {S : EncSide → Prop}
    (hroom : ∀ u, D u → u.enc.fill < u.enc.blockSize)
    (hcopy : ∀ data u, D u → u.enc.fill + data.length < u.enc.blockSize → D (fillBuffer data u))
    (hemit : ∀ data u, D u → u.enc.fill + data.length = u.enc.blockSize →
      (emitBuffer (fillBuffer data u)).Post (fun _ => D) R (fun _ _ => False) S)
    (data : Bytes) {u : EncSide} (hu : D u) : (writeBytes data u).Post (fun _ => D) R (fun _ _ => False) S := by
  induction hn : data.length using Nat.strongRecOn generalizing data u with
  | _ n ih =>
  subst hn
  have hfill := hroom u hu
  by_cases hshort : u.enc.fill + data.length < u.enc.blockSize
  · rw [writeBytes_short hshort]
    exact hcopy data u hu hshort
  · rw [writeBytes_full hfill (by omega)]
    refine Flow.Post.bind (hemit _ u hu ?_) fun _ v hv => ih _ ?_ _ hv rfl
    · rw [List.length_take]; omega
    · rw [List.length_drop]; omega

theorem writeBytes_works {p : Params} (data : Bytes) {u : EncSide} (hu : u.enc.Working p) (hw : u.enc.waiting = false)
    (hfill : u.enc.fill < u.enc.blockSize) :
    (writeBytes data u).Works p (fun v => v.enc.fill < v.enc.blockSize) := by
  refine writeBytes_post (fun u hu => hu.2.2) ?_ ?_ data (D := fun v => v.enc.Working p ∧ v.enc.waiting = false ∧
    v.enc.fill < v.enc.blockSize) ⟨hu, hw, hfill⟩
  · rintro data u ⟨hu, hw, -⟩ hshort
    exact ⟨fillBuffer_working hu hshort.le, hw, hshort⟩
  · rintro data u ⟨hu, hw, hroom⟩ hfull
    refine (emitBuffer_works (fillBuffer_working hu hfull.le) hw).imp ?_ (fun _ _ => id) (fun _ _ => id) (fun _ => id)
    rintro - v ⟨hv, hvw, hzero, hsize⟩
    refine ⟨hv, hvw, ?_⟩
    rw [hzero, hsize, fillBuffer_blockSize]
    omega

/-! ### The commands of the encoder -/

/-- An operation that works and is done with room in the buffer leaves the invariants, whatever its outcome. -/
theorem Flow.Works.inv {α : Type} {p : Params} {f : Flow EncSide α}
    (h : f.Works p (fun v => v.enc.fill < v.enc.blockSize)) : (encAfter f).enc.Inv p := by
  cases f with
  | done a v =>
    obtain ⟨hv, -, hroom⟩ := h
    exact hv.inv hroom
  | raised e v =>
    obtain ⟨hv, hw, he⟩ := h
    exact hv.inv_failed hw he
  | answered r v => exact h.elim
  | stuck v => exact Encoder.Working.inv_waiting h

/-- `ENC.CLOSE` up to its flag. -/
def closeCalls (u : EncSide) : Flow EncSide Unit :=
  (((emitRest u).bind fun _ => emitTerminal).bind fun _ => encCall sinkFlush 2).bind fun _ => encCall sinkClose 3

theorem admittedFlow_encClose (u : EncSide) :
    admittedFlow .encClose u = (closeCalls u).bind fun _ v => .done .empty v.close := by
  simp only [closeCalls, bind_assoc]
  rfl

theorem closeCalls_works {p : Params} {u : EncSide} (hu : u.enc.Working p) (hw : u.enc.waiting = false) :
    (closeCalls u).Works p (fun v => v.enc.fill = 0) := by
  have hlegal := encErrors_of_available hu.available
  have hterminal : ∀ v, v.enc.Working p → v.enc.waiting = false → v.enc.fill = 0 →
      (emitTerminal v).Works p (fun w => w.enc.fill = 0) := fun v hv hvw hfill =>
    (emitFrame_works _ _ hv hvw).imp (fun _ _ ⟨h1, h2, h3, _⟩ => ⟨h1, h2, h3.trans hfill⟩) (fun _ _ => id) (fun _ _ => id)
      (fun _ => id)
  have hcall : ∀ call cause v, ioFailure cause ∈ encErrors p → v.enc.Working p → v.enc.waiting = false →
      v.enc.fill = 0 → (encCall call cause v).Works p (fun w => w.enc.fill = 0) := fun call cause v hc hv hvw hfill =>
    encCall_works call hc hv hvw fun w hw => by rw [hw, hfill]
  exact (((emitRest_works hu hw).bind fun _ => hterminal).bind
    fun _ v => hcall sinkFlush 2 v (by simp [hlegal])).bind fun _ v => hcall sinkClose 3 v (by simp [hlegal])

theorem admittedFlow_inv {p : Params} {i : Instr} {u : EncSide} (hu : u.enc.Working p) (hw : u.enc.waiting = false)
    (hfill : u.enc.fill < u.enc.blockSize) : (encAfter (admittedFlow i u)).enc.Inv p := by
  have hempty : ∀ f : Flow EncSide Unit, f.Works p (fun v => v.enc.fill < v.enc.blockSize) →
      (encAfter (f.bind fun _ v => .done Payload.empty v)).enc.Inv p := fun f hf =>
    Flow.Works.inv (Flow.Post.bind hf fun _ _ hv => hv)
  cases i with
  | encWrite data => exact hempty _ (writeBytes_works data hu hw hfill)
  | encFlush =>
    have hlegal := encErrors_of_available hu.available
    exact hempty _ (encCall_works sinkFlush (by simp [hlegal]) hu hw fun v hv => by rwa [hv])
  | encClose =>
    have hcalls := closeCalls_works hu hw
    rw [admittedFlow_encClose]
    cases hflow : closeCalls u with
    | done a v =>
      rw [hflow] at hcalls
      obtain ⟨hv, hvw, hzero⟩ := hcalls
      exact hv.inv_closed hzero hvw
    | raised e v =>
      rw [hflow] at hcalls
      obtain ⟨hv, hvw, he⟩ := hcalls
      exact hv.inv_failed hvw he
    | answered r v => rw [hflow] at hcalls; exact hcalls.elim
    | stuck v => rw [hflow] at hcalls; exact Encoder.Working.inv_waiting hcalls
  | _ => exact hu.inv hfill

/-- Every encoder command keeps the encoder's invariants. -/
theorem encFlow_inv {p : Params} (hp : p.Legal) (i : Instr) {u : EncSide} (hu : u.enc.Inv p)
    (hw : u.enc.waiting = false) : (encAfter (encFlow p i u)).enc.Inv p := by
  by_cases hinit : ∃ cfg, i = .encInit cfg
  · obtain ⟨cfg, rfl⟩ := hinit
    have hconstructed : (encAfter (encInitFlow p cfg u)).enc = constructEncoder p cfg u.enc := by
      unfold encInitFlow
      cases herr : constructionError p with
      | none => rfl
      | some e => rw [constructEncoder, herr]; rfl
    rw [encFlow, hconstructed]
    exact constructEncoder_inv hp hu.wf cfg
  · have hadmit := encFlow_admit p (fun cfg hi => hinit ⟨cfg, hi⟩) u
    by_cases hmode : u.enc.mode = .opened
    · obtain ⟨herr, hclosed⟩ := encoder_mode_eq_opened.mp hmode
      rw [hadmit, encAdmit_ready herr hclosed, bind_done]
      exact admittedFlow_inv (hu.working hmode) hw (hu.open_fill hmode hw)
    · have hpost := encFlow_post p (fun cfg hi => hinit ⟨cfg, hi⟩) u
      cases hflow : encFlow p i u with
      | answered r v => rw [hflow] at hpost; obtain ⟨-, rfl⟩ := hpost; exact hu
      | _ => rw [hflow] at hpost; exact absurd hpost.1 hmode

/-! ### The commands of the decoder -/

section Decoder

variable {p : Params} {d : Decoder}

/-- A block accepted within the maximum keeps the ranges of `DEC.RES` and the rest. -/
theorem acceptBlock_inv (h : d.Inv p) (hterm : d.term = false) (herr : d.err = none) (hw : d.waiting = false)
    (hidx : d.expectedIndex < 2 ^ 32) {b : Bytes} (hmax : b.length ≤ p.maxBlockLen) : (acceptBlock b d).Inv p where
  wf := memWrite_wf h.wf _ _
  capacity := fun c hc => by
    rcases mem_memWrite hc with hold | ⟨-, hlt⟩
    · exact h.capacity c hold
    · omega
  expectedIndex_le := hidx
  residual_range := ⟨Nat.zero_le _, hmax⟩
  written := fun i hi => readCell_memWrite_isSome (.inl ⟨Nat.zero_le i, by rw [Nat.zero_add]; exact hi⟩)
  term_empty := fun ht => absurd (hterm.symm.trans ht) nofun
  err_empty := fun he => by rw [acceptBlock_err, herr] at he; exact absurd he nofun
  term_err := fun ht => absurd (hterm.symm.trans ht) nofun
  err_legal := fun x hx => absurd (herr.symm.trans hx) nofun
  unavailable := h.unavailable
  waiting_active := fun ht => absurd (hw.symm.trans ht) nofun

/-- Delivery moves the position inside the residual of an active decoder. -/
theorem deliverFrom_inv (h : d.Inv p) (hterm : d.term = false) (herr : d.err = none) (hw : d.waiting = false) (n : U32) :
    (deliverFrom n d).Inv p where
  wf := h.wf
  capacity := h.capacity
  expectedIndex_le := h.expectedIndex_le
  residual_range := by
    obtain ⟨hpos, hlen⟩ := h.residual_range
    refine ⟨?_, hlen⟩
    show d.resPos + min n.toNat (d.resLen - d.resPos) ≤ d.resLen
    omega
  written := h.written
  term_empty := fun ht => absurd (hterm.symm.trans ht) nofun
  err_empty := fun he => by rw [show (deliverFrom n d).err = none from herr] at he; exact absurd he nofun
  term_err := fun ht => absurd (hterm.symm.trans ht) nofun
  err_legal := fun x hx => absurd (herr.symm.trans hx) nofun
  unavailable := h.unavailable
  waiting_active := fun ht => absurd (hw.symm.trans ht) nofun

theorem refilled_inv {d' : Decoder} (h : d.Inv p) (herr : d.err = none) (hw : d.waiting = false)
    (hd : Refilled p d d') : d'.Inv p ∧ d'.term = false := by
  rcases hd with ⟨hres, rfl⟩ | ⟨-, hterm, hidx, b, -, hmax, rfl⟩
  · refine ⟨h, ?_⟩
    cases hterm : d'.term with
    | false => rfl
    | true => exact absurd (h.term_empty hterm) hres
  · exact ⟨acceptBlock_inv h hterm herr hw hidx hmax, hterm⟩

theorem available_of_err_none (h : d.Inv p) (herr : d.err = none) : p.sha256Available = true := by
  cases hsha : p.sha256Available with
  | true => rfl
  | false => exact absurd (herr.symm.trans (h.unavailable hsha)) nofun

/-- An error of the frame latched, with the residual empty. -/
theorem frameFailed_inv (h : d.Inv p) (hreads : ReadsFrame d) (hw : d.waiting = false) {e : Err} (he : e ∈ frameErrors) :
    ({ d with err := some e } : Decoder).Inv p := by
  obtain ⟨herr, hres, hterm⟩ := hreads
  have hsha := available_of_err_none h herr
  exact
    { h with
      err_empty := fun _ => hres
      term_err := fun ht => absurd (hterm.symm.trans ht) nofun
      err_legal := fun x hx => by
        obtain rfl := Option.some.inj hx
        rw [decErrors, if_pos hsha]
        exact he
      unavailable := fun hun => absurd (hsha.symm.trans hun) nofun
      waiting_active := fun ht => absurd (hw.symm.trans ht) nofun }

/-- The terminal flag set, with the residual empty. -/
theorem terminated_inv (h : d.Inv p) (herr : d.err = none) (hres : d.ResidualEmpty) (hw : d.waiting = false) :
    ({ d with term := true } : Decoder).Inv p :=
  { h with
    term_empty := fun _ => hres
    term_err := fun _ => herr
    waiting_active := fun ht => absurd (hw.symm.trans ht) nofun }

/-- Waiting inside a frame. -/
theorem waiting_inv (h : d.Inv p) (hreads : ReadsFrame d) : ({ d with waiting := true } : Decoder).Inv p := by
  obtain ⟨herr, hres, hterm⟩ := hreads
  exact { h with
    waiting_active := fun _ => ⟨decoder_mode_eq_active.mpr ⟨herr, fun ⟨ht, _⟩ => nomatch hterm.symm.trans ht⟩, hres⟩ }

end Decoder

/-- Every `DEC.READ` keeps the decoder's invariants. -/
theorem decReadFlow_inv {p : Params} (n : U32) {u : DecSide} (hu : u.dec.Inv p) (hw : u.dec.waiting = false) :
    (decAfter (decReadFlow p n u)).dec.Inv p := by
  have hpost := decReadFlow_post p n u
  cases hflow : decReadFlow p n u with
  | done x v =>
    rw [hflow] at hpost
    obtain ⟨herr, -, d, hd, hv, -⟩ := hpost
    obtain ⟨hinv, hterm⟩ := refilled_inv hu herr hw hd
    rw [decAfter_done, hv]
    exact deliverFrom_inv hinv hterm ((refilled_err hd).trans herr) ((refilled_waiting hd).trans hw) n
  | raised e v =>
    rw [hflow] at hpost
    obtain ⟨hreads, -, hv, he⟩ := hpost
    rw [decAfter_raised, hv]
    exact frameFailed_inv hu hreads hw he
  | answered r v =>
    rw [hflow] at hpost
    rcases hpost with ⟨e, -, -, rfl⟩ | ⟨herr, hres, -, -, hv⟩
    · exact hu
    · rw [decAfter_answered, hv]
      exact terminated_inv hu herr hres hw
  | stuck v =>
    rw [hflow] at hpost
    obtain ⟨hreads, -, hv⟩ := hpost
    rw [decAfter_stuck, hv]
    exact waiting_inv hu hreads

/-- Every decoder command keeps the decoder's invariants. -/
theorem decFlow_inv {p : Params} {i : Instr} (hunit : commandUnit i = some .dec) {u : DecSide} (hu : u.dec.Inv p)
    (hw : u.dec.waiting = false) : (decAfter (decFlow p i u)).dec.Inv p := by
  rcases commandUnit_eq_dec_iff.mp hunit with rfl | ⟨n, rfl⟩
  · have hconstructed : (decAfter (decInitFlow p u)).dec = constructDecoder p u.dec := by
      unfold decInitFlow
      cases herr : constructionError p with
      | none => rfl
      | some e => rw [constructDecoder, herr]; rfl
    rw [decFlow, hconstructed]
    · exact constructDecoder_inv hu.wf hu.capacity
    · simp
  · exact decReadFlow_inv n hu hw

/-! ### The statement -/

/-- Every command keeps the invariants. -/
theorem exec_inv {i : Instr} {s t : State} (hs : s.Inv) (h : exec i s = .next t) : t.Inv := by
  cases ran_of_exec h with
  | enc hunit hw ht =>
    subst ht
    refine ⟨?_, ?_, ?_⟩
    · rw [finishEnc_params]; exact hs.params
    · rw [finishEnc_params, finishEnc_enc]; exact encFlow_inv hs.params i hs.enc hw
    · rw [finishEnc_params, finishEnc_dec]; exact hs.dec
  | dec hunit hn hw ht =>
    subst ht
    refine ⟨?_, ?_, ?_⟩
    · rw [finishDec_params]; exact hs.params
    · rw [finishDec_params, finishDec_enc]; exact hs.enc
    · rw [finishDec_params, finishDec_dec]; exact decFlow_inv hunit hs.dec hw
  | answered hunit r ht => subst ht; exact ⟨hs.params, hs.enc, hs.dec⟩

/-- Settles O11: commands and construction keep the invariants, the other events touch no register. -/
theorem everyStepKeepsTheInvariant : Obligations.EveryStepKeepsTheInvariant := by
  unfold Obligations.EveryStepKeepsTheInvariant
  intro s t hs hstep
  cases hevents : s.events with
  | nil =>
    obtain rfl : s = t := Host.Outcome.next.inj ((step_idle hevents).symm.trans hstep)
    exact hs
  | cons ev rest =>
    cases stepped_of_step hevents hstep with
    | command b i hdecode h => exact exec_inv (s := { s with events := rest }) ⟨hs.params, hs.enc, hs.dec⟩ h
    | illegal b e hdecode h => subst h; exact ⟨hs.params, hs.enc, hs.dec⟩
    | attachSink k h => subst h; exact ⟨hs.params, hs.enc, hs.dec⟩
    | attachSource r h => subst h; exact ⟨hs.params, hs.enc, hs.dec⟩
    | powerOnReset h =>
      subst h
      exact ⟨hs.params, constructEncoder_inv hs.params hs.enc.wf _, constructDecoder_inv hs.dec.wf hs.dec.capacity⟩

end Sys2Proof.Machine

/-! Calls that are answered (spec/70_reset_and_hazards.md R256): an operation all of whose calls are answered does not
wait. -/

namespace Sys2Proof.Machine

/-- The sink answers every coming call. -/
def Sink.NeverFree (k : Sink) : Prop := ∀ a ∈ k.answers, a ≠ .never

/-- The source answers every coming call. -/
def Source.NeverFree (r : Source) : Prop := ∀ a ∈ r.answers, a ≠ .never

/-- The operation does not wait, and is done as `P` says. -/
def Flow.Answers {σ α : Type} (P : σ → Prop) (f : Flow σ α) : Prop :=
  f.Post (fun _ => P) (fun _ _ => True) (fun _ _ => True) (fun _ => False)

theorem Flow.Answers.bind {σ α β : Type} {P Q : σ → Prop} {f : Flow σ α} {g : α → σ → Flow σ β} (hf : f.Answers P)
    (hg : ∀ a u, P u → (g a u).Answers Q) : (f.bind g).Answers Q :=
  Flow.Post.bind hf hg

/-- A command that does not wait gives a response. -/
theorem Flow.Answers.replies {σ : Type} {P : σ → Prop} {f : Flow σ Payload} (h : f.Answers P) :
    ∃ r, f.replies = [r] := by
  cases f with
  | stuck u => exact h.elim
  | _ => exact ⟨_, rfl⟩

/-! ### The encoder -/

theorem Sink.NeverFree.answer {k : Sink} (h : k.NeverFree) : k.answer ≠ .never := by
  unfold Sink.answer
  cases ha : k.answers with
  | nil => exact nofun
  | cons a l => exact h a (by simp [ha])

/-- A call that takes the sink's next answer. -/
def TakesAnswer (call : Sink → SinkAnswer × Sink) : Prop :=
  ∀ k, (call k).1 = k.answer ∧ (call k).2.answers = k.answers.tail

theorem sinkWrite_takesAnswer (b : Bytes) : TakesAnswer (sinkWrite b) := by
  intro k
  unfold sinkWrite
  cases k.answer <;> exact ⟨rfl, rfl⟩

theorem sinkFlush_takesAnswer : TakesAnswer sinkFlush := fun _ => ⟨rfl, rfl⟩

theorem sinkClose_takesAnswer : TakesAnswer sinkClose := by
  intro k
  unfold sinkClose
  cases k.answer <;> exact ⟨rfl, rfl⟩

section Encoder

variable {u : EncSide}

theorem encCall_answers {call : Sink → SinkAnswer × Sink} (hcall : TakesAnswer call) (cause : Byte)
    (h : u.sink.NeverFree) : (encCall call cause u).Answers (fun v => v.sink.NeverFree) := by
  obtain ⟨hanswer, htail⟩ := hcall u.sink
  refine (encCall_post call cause u).imp ?_ (fun _ _ _ => trivial) (fun _ _ _ => trivial) ?_
  · rintro - v ⟨-, -, hv⟩ a ha
    rw [hv, htail] at ha
    exact h a (List.mem_of_mem_tail ha)
  · rintro v ⟨-, hnever, -⟩
    exact h.answer (hanswer.symm.trans hnever)

theorem writeCall_answers (b : Bytes) (h : u.sink.NeverFree) :
    (encCall (sinkWrite b) 1 u).Answers (fun v => v.sink.NeverFree) :=
  encCall_answers (sinkWrite_takesAnswer b) 1 h

theorem writePayload_answers (p : Bytes) (h : u.sink.NeverFree) :
    (writePayload p u).Answers (fun v => v.sink.NeverFree) := by
  unfold writePayload
  split
  · exact h
  · exact writeCall_answers p h

theorem emitFrame_answers (p d : Bytes) (h : u.sink.NeverFree) :
    (emitFrame p d u).Answers (fun v => v.sink.NeverFree) := by
  unfold emitFrame
  split
  · exact trivial
  · exact (writeCall_answers _ h).bind fun _ v hv => (writeCall_answers _ hv).bind fun _ v hv =>
      (writeCall_answers _ hv).bind fun _ v hv => (writePayload_answers p hv).bind fun _ v hv => hv

theorem emitBuffer_answers (h : u.sink.NeverFree) : (emitBuffer u).Answers (fun v => v.sink.NeverFree) :=
  (emitFrame_answers _ _ h).bind fun _ _ hv => hv

theorem emitRest_answers (h : u.sink.NeverFree) : (emitRest u).Answers (fun v => v.sink.NeverFree) := by
  unfold emitRest
  split
  · exact emitBuffer_answers h
  · exact h

/-- With room in the buffer the loop ends (log 18). -/
theorem writeBytes_answers (data : Bytes) (h : u.sink.NeverFree) (hfill : u.enc.fill < u.enc.blockSize) :
    (writeBytes data u).Answers (fun v => v.sink.NeverFree ∧ v.enc.fill < v.enc.blockSize) := by
  refine (writeBytes_post (D := fun v => v.sink.NeverFree ∧ v.enc.fill < v.enc.blockSize) (R := fun _ _ => True)
    (S := fun _ => False) (fun u hu => hu.2) (fun data u hu hshort => ⟨hu.1, hshort⟩) ?_ data ⟨h, hfill⟩).imp
    (fun _ _ => id) (fun _ _ => id) (fun _ _ _ => trivial) (fun _ => id)
  rintro data u ⟨hu, hroom⟩ -
  have hanswers := emitBuffer_answers (u := fillBuffer data u) hu
  cases hflow : emitBuffer (fillBuffer data u) with
  | done a v =>
    rw [hflow] at hanswers
    refine ⟨hanswers, ?_⟩
    rw [emitBuffer_done hflow, blockEmitted_fill, blockEmitted_blockSize, fillBuffer_blockSize]
    omega
  | raised e v => exact trivial
  | answered r v =>
    have hpost := emitBuffer_progresses (fillBuffer data u)
    rw [hflow] at hpost
    exact hpost.elim
  | stuck v => rw [hflow] at hanswers; exact hanswers.elim

theorem admittedFlow_answers (i : Instr) (h : u.sink.NeverFree) (hfill : u.enc.fill < u.enc.blockSize) :
    (admittedFlow i u).Answers (fun _ => True) := by
  cases i with
  | encWrite data => exact (writeBytes_answers data h hfill).bind fun _ _ _ => trivial
  | encFlush => exact (encCall_answers sinkFlush_takesAnswer 2 h).bind fun _ _ _ => trivial
  | encClose =>
    exact (emitRest_answers h).bind fun _ v hv => (emitFrame_answers _ _ hv).bind fun _ v hv =>
      (encCall_answers sinkFlush_takesAnswer 2 hv).bind fun _ v hv =>
      (encCall_answers sinkClose_takesAnswer 3 hv).bind fun _ v _ => trivial
  | _ => exact trivial

/-- An encoder command over a sink that answers every call gives a response. -/
theorem encFlow_answers {p : Params} (i : Instr) (hinv : u.enc.Inv p) (hw : u.enc.waiting = false)
    (h : u.sink.NeverFree) : ∃ r, (encFlow p i u).replies = [r] := by
  by_cases hinit : ∃ cfg, i = .encInit cfg
  · obtain ⟨cfg, rfl⟩ := hinit
    exact Flow.Answers.replies (P := fun _ => True)
      ((encInitFlow_post p cfg u).imp (fun _ _ _ => trivial) (fun _ _ _ => trivial) (fun _ _ => False.elim) (fun _ => id))
  · rw [encFlow_admit p fun cfg hi => hinit ⟨cfg, hi⟩]
    cases herr : u.enc.err with
    | some e => rw [encAdmit_failed herr]; exact ⟨_, rfl⟩
    | none =>
      cases hclosed : u.enc.closed with
      | true => rw [encAdmit_closed herr hclosed]; exact ⟨_, rfl⟩
      | false =>
        rw [encAdmit_ready herr hclosed, bind_done]
        exact (admittedFlow_answers i h (hinv.open_fill (encoder_mode_eq_opened.mpr ⟨herr, hclosed⟩) hw)).replies

end Encoder

/-! ### The decoder -/

theorem Source.NeverFree.answer {r : Source} (h : r.NeverFree) : r.answer ≠ .never := by
  unfold Source.answer
  cases ha : r.answers with
  | nil => exact nofun
  | cons a l => exact h a (by simp [ha])

section Decoder

variable {u : DecSide}

theorem srcField_answers (n : Nat) (h : u.source.NeverFree) : (srcField n u).Answers (fun v => v.source.NeverFree) := by
  have htail : ∀ a ∈ u.source.answers.tail, a ≠ .never := fun a ha => h a (List.mem_of_mem_tail ha)
  unfold srcField srcReadExactly
  cases hanswer : u.source.answer with
  | serve =>
    by_cases hlen : u.source.pos + n ≤ u.source.data.length
    · simp only [hlen, if_true]; exact htail
    · simp only [hlen, if_false]; exact trivial
  | short => exact trivial
  | fail => exact trivial
  | never => exact absurd hanswer h.answer

theorem acceptData_answers (d : Bytes) (len : Nat) (h : u.source.NeverFree) :
    (acceptData d len u).Answers (fun v => v.source.NeverFree) :=
  (srcField_answers len h).bind fun b v hv => by split; exacts [trivial, hv]

theorem readBody_answers (p : Params) (d : Bytes) (len : Nat) (h : u.source.NeverFree) :
    (readBody p d len u).Answers (fun v => v.source.NeverFree) := by
  refine Flow.Answers.bind (P := fun v => v.source.NeverFree) (by unfold checkLength; split; exacts [trivial, h])
    fun _ v hv => ?_
  split
  · unfold acceptTerminal; split <;> exact trivial
  · exact acceptData_answers d len hv

theorem readFrame_answers (p : Params) (h : u.source.NeverFree) :
    (readFrame p u).Answers (fun v => v.source.NeverFree) := by
  have hcheck : ∀ (idx : U32) (v : DecSide), v.source.NeverFree →
      (checkIndex idx v).Answers (fun w => w.source.NeverFree) := fun idx v hv => by
    unfold checkIndex; split; exacts [trivial, hv]
  rw [readFrame_eq]
  exact (srcField_answers 4 h).bind fun _ v hv => (hcheck _ v hv).bind fun _ v hv =>
    (srcField_answers 32 hv).bind fun d v hv => (srcField_answers 4 hv).bind fun _ v hv => readBody_answers p d _ hv

/-- A `DEC.READ` over a source that answers every call gives a response. -/
theorem decReadFlow_answers (p : Params) (n : U32) (h : u.source.NeverFree) :
    (decReadFlow p n u).Answers (fun _ => True) := by
  refine Flow.Answers.bind (P := fun v => v.source.NeverFree) ?_ fun _ v hv => ?_
  · unfold decAdmit; split; exacts [trivial, h]
  · refine Flow.Answers.bind (P := fun _ => True) ?_ fun _ _ _ => trivial
    have hread := readFrame_answers p hv
    unfold refill
    split
    · split
      · exact trivial
      · exact hread.imp (fun _ _ _ => trivial) (fun _ _ => id) (fun _ _ => id) (fun _ => id)
    · exact trivial

/-- A decoder command over a source that answers every call gives a response. -/
theorem decFlow_answers (p : Params) {i : Instr} (hunit : commandUnit i = some .dec) (h : u.source.NeverFree) :
    ∃ r, (decFlow p i u).replies = [r] := by
  rcases commandUnit_eq_dec_iff.mp hunit with rfl | ⟨n, rfl⟩
  · exact Flow.Answers.replies (P := fun _ => True)
      ((decInitFlow_post p u).imp (fun _ _ _ => trivial) (fun _ _ _ => trivial) (fun _ _ => False.elim) (fun _ => id))
  · exact (decReadFlow_answers p n h).replies

end Decoder

/-! ### The statement -/

/-- Settles O14: no call waits, and by the invariant the write loop ends. -/
theorem answeredCallsGiveAnAnsweredCommand : Obligations.AnsweredCallsGiveAnAnsweredCommand := by
  unfold Obligations.AnsweredCallsGiveAnAnsweredCommand
  intro i s t hinv hsink hsource h
  cases ran_of_exec h with
  | enc hunit hw ht =>
    subst ht
    obtain ⟨r, hr⟩ := encFlow_answers (u := s.encSide) i hinv.enc hw hsink
    exact ⟨r, by rw [finishEnc_responses, hr]⟩
  | dec hunit hn hw ht =>
    subst ht
    obtain ⟨r, hr⟩ := decFlow_answers (u := s.decSide) s.params hunit hsource
    exact ⟨r, by rw [finishDec_responses, hr]⟩
  | answered hunit r ht => subst ht; exact ⟨r, rfl⟩

end Sys2Proof.Machine

/-! `ENC.WRITE` split in two, and `ENC.WRITE` that fails (spec/42_block_encoder.md R141, R147, R150). -/

namespace Sys2Proof.Machine

/-! ### A write split in two -/

/-- A loop that is done leaves an open encoder with room in its buffer. -/
theorem writeBytes_ready (data : Bytes) {u : EncSide} (hu : u.enc.Ready) (hfill : u.enc.fill < u.enc.blockSize) :
    (writeBytes data u).Post (fun _ v => v.enc.Ready ∧ v.enc.fill < v.enc.blockSize) (fun _ _ => True)
      (fun _ _ => False) (fun _ => True) := by
  refine writeBytes_post (D := fun v => v.enc.Ready ∧ v.enc.fill < v.enc.blockSize) (fun u hu => hu.2)
    (fun data u hu hshort => ⟨hu.1, hshort⟩) ?_ data ⟨hu, hfill⟩
  rintro data u ⟨hu, hroom⟩ -
  have hpost := emitBuffer_progresses (fillBuffer data u)
  cases hflow : emitBuffer (fillBuffer data u) with
  | done a v =>
    refine ⟨?_, ?_⟩ <;> rw [emitBuffer_done hflow]
    · exact hu
    · rw [blockEmitted_fill, blockEmitted_blockSize, fillBuffer_blockSize]; omega
  | raised e v => exact trivial
  | answered r v => rw [hflow] at hpost; exact hpost.elim
  | stuck v => exact trivial

/-- Settles O36: the loop over both sequences is the loop over the first and then over the second. -/
theorem splitWritesAgreeWithOneWrite : Obligations.SplitWritesAgreeWithOneWrite := by
  unfold Obligations.SplitWritesAgreeWithOneWrite
  intro d d' s a hs hfill ha herr hidle
  have hready := writeBytes_ready d (u := s.encSide) hs hfill
  have hsplit := writeBytes_append d d' s.encSide hfill
  cases hwrite : writeBytes d s.encSide with
  | done x v =>
    rw [hwrite] at hready hsplit
    obtain ⟨hv, -⟩ := hready
    obtain rfl := Host.Outcome.next.inj ((exec_encWrite_done hs hwrite).symm.trans ha)
    refine ⟨_, _, exec_encWrite hv d', exec_encWrite hs (d ++ d'), ?_, ?_⟩
    · rw [finishEnc_enc, finishEnc_enc, hsplit]; rfl
    · rw [finishEnc_sink, finishEnc_sink, hsplit]; rfl
  | raised e v =>
    obtain rfl := Host.Outcome.next.inj ((exec_encWrite_raised hs hwrite).symm.trans ha)
    exact nomatch herr
  | answered r v => rw [hwrite] at hready; exact hready.elim
  | stuck v =>
    obtain rfl := Host.Outcome.next.inj ((exec_encWrite_stuck hs hwrite).symm.trans ha)
    exact nomatch hidle

/-! ### A write that fails -/

theorem fullBlocks_cons {B : Nat} {x : Bytes} (hB : 0 < B) (h : B ≤ x.length) :
    fullBlocks B x = x.take B :: fullBlocks B (x.drop B) := by
  rw [fullBlocks, fullBlocks, Nat.div_eq_sub_div hB h, List.length_drop, List.range_succ_eq_map, List.map_cons,
    List.map_map, Nat.zero_mul, List.drop_zero]
  congr 2
  funext k
  rw [Function.comp_apply, List.drop_drop, Nat.succ_mul, Nat.add_comm]

/-- All that emitting the buffer can do. -/
theorem emitBuffer_post (u : EncSide) :
    (emitBuffer u).Post
      (fun _ v => v.enc = blockEmitted u.enc ∧ u.enc.nextIndex < 2 ^ 32 ∧
        u.sink.Wrote (dataFrame u.enc.nextIndex (pendingBytes u.enc)) v.sink)
      (fun e v => v.enc = u.enc ∧ ((e = rangeError ∧ 2 ^ 32 ≤ u.enc.nextIndex ∧ v.sink = u.sink) ∨
        (e = ioFailure 1 ∧ u.enc.nextIndex < 2 ^ 32 ∧
          ∃ q, q <+: dataFrame u.enc.nextIndex (pendingBytes u.enc) ∧ u.sink.Wrote q v.sink)))
      (fun _ _ => False) (fun v => v.enc = u.enc) := by
  rw [emitBuffer_eq, ← frameBytes_data]
  refine Flow.Post.bind ((emitFrame_post _ _ u).imp (fun _ _ => id) (fun _ _ => id) (fun _ _ => id) fun _ h => h.1) ?_
  rintro - v ⟨hidx, hv, hw⟩
  exact ⟨by rw [hv]; rfl, hidx, hw⟩

/-- What a write leaves that raises `e` in the frame after `j` whole ones (R141, R147). -/
structure FailedIn (u : EncSide) (data : Bytes) (e : Err) (v : EncSide) (j : Nat) (q : Bytes) : Prop where
  index_lt : j < (u.enc.fill + data.length) / u.enc.blockSize
  registers : v.enc = { u.enc with buf := v.enc.buf, fill := u.enc.blockSize, nextIndex := u.enc.nextIndex + j }
  sink : u.sink.Wrote
    (dataFrames u.enc.nextIndex ((fullBlocks u.enc.blockSize (pendingBytes u.enc ++ data)).take j) ++ q) v.sink
  cause : (e = ioFailure 1 ∧ u.enc.nextIndex + j < 2 ^ 32 ∧
      q <+: dataFrame (u.enc.nextIndex + j)
        ((fullBlocks u.enc.blockSize (pendingBytes u.enc ++ data)).getD j [])) ∨
    (e = rangeError ∧ u.enc.nextIndex + j = 2 ^ 32 ∧ q = [])

section Failure

variable {u v : EncSide} {data : Bytes} {e : Err}

/-- The buffer filled up is the first block of the buffered bytes and `data`. -/
theorem pendingBytes_firstBlock (hfill : u.enc.fill ≤ u.enc.blockSize) :
    pendingBytes (fillBuffer (data.take (u.enc.blockSize - u.enc.fill)) u).enc =
      (pendingBytes u.enc ++ data).take u.enc.blockSize := by
  rw [pendingBytes_fillBuffer, List.take_append, pendingBytes_length,
    List.take_of_length_le (l := pendingBytes u.enc) (by rwa [pendingBytes_length])]

/-- Failing in the first frame. -/
theorem failedIn_first (hfill : u.enc.fill < u.enc.blockSize) (hidx : u.enc.nextIndex ≤ 2 ^ 32)
    (hfull : u.enc.blockSize ≤ u.enc.fill + data.length)
    (h : emitBuffer (fillBuffer (data.take (u.enc.blockSize - u.enc.fill)) u) = .raised e v) :
    ∃ q, FailedIn u data e v 0 q := by
  have hpost := emitBuffer_post (fillBuffer (data.take (u.enc.blockSize - u.enc.fill)) u)
  rw [h] at hpost
  obtain ⟨hv, hcause⟩ := hpost
  have hlen : (data.take (u.enc.blockSize - u.enc.fill)).length = u.enc.blockSize - u.enc.fill :=
    List.length_take_of_le (by omega)
  have hregisters : v.enc = { u.enc with
      buf := v.enc.buf, fill := u.enc.blockSize, nextIndex := u.enc.nextIndex + 0 } := by
    rw [hv, fillBuffer]
    simp only [hlen, Nat.add_zero, Encoder.mk.injEq, true_and, and_true]
    omega
  have hlt : 0 < (u.enc.fill + data.length) / u.enc.blockSize := Nat.div_pos hfull (by omega)
  rcases hcause with ⟨rfl, hexhausted, hsink⟩ | ⟨rfl, hidx', q, hq, hw⟩
  · refine ⟨[], hlt, hregisters, ?_, .inr ⟨rfl, Nat.le_antisymm hidx hexhausted, rfl⟩⟩
    rw [hsink]
    exact Sink.Wrote.refl _
  · refine ⟨q, hlt, hregisters, hw, .inl ⟨rfl, hidx', ?_⟩⟩
    rw [fullBlocks_cons (by omega) (by rwa [List.length_append, pendingBytes_length]), List.getD_cons_zero,
      ← pendingBytes_firstBlock hfill.le]
    exact hq

/-- Failing in a later frame. -/
theorem failedIn_later {w : EncSide} {j : Nat} {q : Bytes} (hfill : u.enc.fill < u.enc.blockSize)
    (hfull : u.enc.blockSize ≤ u.enc.fill + data.length)
    (h : emitBuffer (fillBuffer (data.take (u.enc.blockSize - u.enc.fill)) u) = .done () w)
    (hrest : FailedIn w (data.drop (u.enc.blockSize - u.enc.fill)) e v j q) : FailedIn u data e v (j + 1) q := by
  have hpost := emitBuffer_post (fillBuffer (data.take (u.enc.blockSize - u.enc.fill)) u)
  rw [h] at hpost
  obtain ⟨hw, -, hfirst⟩ := hpost
  rw [pendingBytes_firstBlock hfill.le] at hfirst
  obtain ⟨hlt, hregisters, hsink, hcause⟩ := hrest
  have hlen : u.enc.blockSize ≤ (pendingBytes u.enc ++ data).length := by rwa [List.length_append, pendingBytes_length]
  have hdrop : (pendingBytes u.enc ++ data).drop u.enc.blockSize = data.drop (u.enc.blockSize - u.enc.fill) := by
    rw [List.drop_append, pendingBytes_length, List.drop_of_length_le (by rw [pendingBytes_length]; omega),
      List.nil_append]
  have hblocks := fullBlocks_cons (by omega) hlen
  rw [hdrop] at hblocks
  have hpending : pendingBytes (blockEmitted (fillBuffer (data.take (u.enc.blockSize - u.enc.fill)) u).enc) = [] := rfl
  rw [hw, hpending, List.nil_append] at hsink hcause
  rw [hw] at hlt hregisters
  simp only [blockEmitted_fill, blockEmitted_blockSize, blockEmitted_nextIndex, fillBuffer_blockSize,
    fillBuffer_nextIndex] at hlt hsink hcause
  have hdiv := Nat.div_eq_sub_div (show 0 < u.enc.blockSize by omega) hfull
  refine ⟨?_, ?_, ?_, ?_⟩
  · rw [List.length_drop, show 0 + (data.length - (u.enc.blockSize - u.enc.fill)) =
      u.enc.fill + data.length - u.enc.blockSize by omega] at hlt
    omega
  · rw [hregisters]
    simp only [blockEmitted, fillBuffer, Encoder.mk.injEq, true_and, and_true]
    omega
  · rw [hblocks, List.take_succ_cons, dataFrames, List.append_assoc]
    exact hfirst.trans hsink
  · rw [hblocks, List.getD_cons_succ, ← Nat.add_assoc, Nat.add_right_comm]
    exact hcause

/-- A loop that raises does so in one of the frames it emits. -/
theorem writeBytes_failedIn (hfill : u.enc.fill < u.enc.blockSize) (hidx : u.enc.nextIndex ≤ 2 ^ 32)
    (h : writeBytes data u = .raised e v) : ∃ j q, FailedIn u data e v j q := by
  induction hn : data.length using Nat.strongRecOn generalizing data u with
  | _ n ih =>
  subst hn
  by_cases hshort : u.enc.fill + data.length < u.enc.blockSize
  · rw [writeBytes_short hshort] at h
    exact nomatch h
  · rw [writeBytes_full hfill (by omega)] at h
    have hpost := emitBuffer_post (fillBuffer (data.take (u.enc.blockSize - u.enc.fill)) u)
    cases hflow : emitBuffer (fillBuffer (data.take (u.enc.blockSize - u.enc.fill)) u) with
    | done x w =>
      rw [hflow] at h hpost
      obtain ⟨hw, hidx', -⟩ := hpost
      have hroom : w.enc.fill < w.enc.blockSize := by
        rw [hw, blockEmitted_fill, blockEmitted_blockSize, fillBuffer_blockSize]; omega
      have hnext : w.enc.nextIndex ≤ 2 ^ 32 := by rw [hw]; exact hidx'
      obtain ⟨j, q, hrest⟩ := ih _ (by rw [List.length_drop]; omega) hroom hnext h rfl
      exact ⟨j + 1, q, failedIn_later hfill (by omega) hflow hrest⟩
    | raised e' w =>
      rw [hflow] at h
      cases h
      obtain ⟨q, hq⟩ := failedIn_first hfill hidx (by omega) hflow
      exact ⟨0, q, hq⟩
    | answered r w => rw [hflow] at hpost; exact hpost.elim
    | stuck w => rw [hflow] at h; exact nomatch h

end Failure

/-- Settles O35: the frame in which the loop raised. -/
theorem encWriteFailureStopsInsideOneFrame : Obligations.EncWriteFailureStopsInsideOneFrame := by
  unfold Obligations.EncWriteFailureStopsInsideOneFrame
  intro data s t e hs hfill hidx h herr
  have hready := writeBytes_ready data (u := s.encSide) hs hfill
  cases hwrite : writeBytes data s.encSide with
  | done x v =>
    rw [hwrite] at hready
    obtain ⟨⟨hnone, -⟩, -⟩ := hready
    obtain rfl := Host.Outcome.next.inj ((exec_encWrite_done hs hwrite).symm.trans h)
    exact absurd (hnone.symm.trans herr) nofun
  | raised e' v =>
    obtain rfl := Host.Outcome.next.inj ((exec_encWrite_raised hs hwrite).symm.trans h)
    obtain rfl : e' = e := Option.some.inj herr
    obtain ⟨j, q, hlt, hregisters, hsink, hcause⟩ := writeBytes_failedIn (u := s.encSide) hfill hidx hwrite
    have hnext : v.enc.nextIndex = s.enc.nextIndex + j := by rw [hregisters]; rfl
    refine ⟨j, q, hlt, hnext, by rw [hregisters]; rfl, ?_, by rw [hregisters]; rfl, ?_, hsink.isOpen, hsink.flushes, ?_,
      rfl⟩
    · obtain ⟨-, hclosed, -⟩ := hs
      rw [hregisters]
      exact hclosed
    · rw [hsink.data, ← List.append_assoc]
      rfl
    · show _ ∨ (_ ∧ v.enc.nextIndex = _ ∧ _)
      rw [hnext]
      exact hcause
  | answered r v => rw [hwrite] at hready; exact hready.elim
  | stuck v =>
    have hpost := writeLoop_progresses (data.length + 1) data s.encSide
    obtain rfl := Host.Outcome.next.inj ((exec_encWrite_stuck hs hwrite).symm.trans h)
    rw [show writeLoop (data.length + 1) data s.encSide = .stuck v from hwrite] at hpost
    obtain ⟨hnone, -⟩ := hs
    exact absurd ((hpost.err.trans hnone).symm.trans herr) nofun

end Sys2Proof.Machine

/-! `ENC.CLOSE` call by call (spec/42_block_encoder.md R146), where it stops, and calls that never answer
(spec/00_scope.md R13). -/

namespace Sys2Proof.Machine

/-! ### The frames of `ENC.CLOSE` -/

/-- The last data block, when there is one, and the terminal block. -/
def closeFrames (u : EncSide) : Flow EncSide Unit := (emitRest u).bind fun _ v => emitTerminal v

theorem emitRest_empty {u : EncSide} (h : u.enc.fill = 0) : emitRest u = .done () u := if_neg (by omega)

theorem emitRest_nonempty {u : EncSide} (h : u.enc.fill ≠ 0) : emitRest u = emitBuffer u := if_pos (by omega)

theorem lastBlocks_empty {e : Encoder} (h : e.fill = 0) : e.lastBlocks = 0 := if_pos h

theorem lastBlocks_nonempty {e : Encoder} (h : e.fill ≠ 0) : e.lastBlocks = 1 := if_neg h

theorem closeWrites_empty {e : Encoder} (h : e.fill = 0) : closeWrites e = terminalWrites e.nextIndex := by
  rw [closeWrites, if_pos h, List.nil_append, lastBlocks_empty h, Nat.add_zero]

theorem closeWrites_nonempty {e : Encoder} (h : e.fill ≠ 0) :
    closeWrites e = dataWrites e.nextIndex (pendingBytes e) ++ terminalWrites (e.nextIndex + 1) := by
  rw [closeWrites, if_neg h, lastBlocks_nonempty h]

/-- The sequences `ENC.CLOSE` writes are its frames. -/
theorem closeWrites_flatten (e : Encoder) :
    (closeWrites e).flatten =
      dataFrames e.nextIndex (if e.fill = 0 then [] else [pendingBytes e]) ++
        terminalFrame (e.nextIndex + e.lastBlocks) := by
  unfold closeWrites
  split <;> simp [dataFrames, dataWrites_flatten, terminalWrites_flatten]

/-- The registers when only the terminal block is left. -/
theorem closeRegisters_late {e : Encoder} {j : Nat} (h1 : 4 * e.lastBlocks ≤ j) (h2 : j < 4 * e.lastBlocks + 3) :
    closeRegisters e j = { e with fill := 0, nextIndex := e.nextIndex + e.lastBlocks } := by
  rw [closeRegisters, if_neg (by omega), if_pos h2, Nat.add_zero]

/-- The registers when both blocks are out. -/
theorem closeRegisters_end (e : Encoder) :
    closeRegisters e (4 * e.lastBlocks + 3) =
      { e with fill := 0, nextIndex := e.nextIndex + e.lastBlocks + 1 } := by
  rw [closeRegisters, if_neg (by omega), if_neg (by omega)]

theorem dataWrites_length (k : Nat) (b : Bytes) : (dataWrites k b).length = 4 := rfl

theorem emitRest_served {u : EncSide} (hidx : u.enc.fill ≠ 0 → u.enc.nextIndex < 2 ^ 32)
    (hs : u.sink.Serves (4 * u.enc.lastBlocks)) :
    emitRest u = .done ()
      { enc := { u.enc with fill := 0, nextIndex := u.enc.nextIndex + u.enc.lastBlocks }
        sink := u.sink.after (4 * u.enc.lastBlocks)
          (dataFrames u.enc.nextIndex (if u.enc.fill = 0 then [] else [pendingBytes u.enc])) } := by
  by_cases h : u.enc.fill = 0
  · rw [emitRest_empty h, lastBlocks_empty h, if_pos h, dataFrames, Nat.mul_zero, sink_after_zero, Nat.add_zero, ← h]
  · rw [lastBlocks_nonempty h] at hs ⊢
    rw [emitRest_nonempty h, emitBuffer_served h (hidx h) hs, if_neg h, dataFrames_singleton]
    rfl

section Close

variable {u : EncSide} {j : Nat} {a : SinkAnswer} {l : List SinkAnswer}

/-- Over a sink that answers, both frames go out. -/
theorem closeFrames_served (hidx : u.enc.nextIndex + u.enc.lastBlocks < 2 ^ 32)
    (hs : u.sink.Serves (4 * u.enc.lastBlocks + 3)) :
    closeFrames u = .done ()
      { enc := closeRegisters u.enc (4 * u.enc.lastBlocks + 3)
        sink := u.sink.after (4 * u.enc.lastBlocks + 3) (closeWrites u.enc).flatten } := by
  rw [closeFrames, emitRest_served (fun _ => by omega) (hs.mono (by omega)), bind_done,
    emitTerminal_served hidx (Sink.Serves.after hs _), sink_after_after, closeRegisters_end, closeWrites_flatten]
  rfl

/-- A write that is not answered `ok` is the last call; what is out before it is counted. -/
theorem closeFrames_stopped (hj : j < 4 * u.enc.lastBlocks + 3) (hidx : (closeRegisters u.enc j).nextIndex < 2 ^ 32)
    (hs : u.sink.AnswersAfter j a l) (ha : a ≠ .ok) :
    ∃ q, q <+: (closeWrites u.enc).getD j [] ∧
      closeFrames u = stopped a 1
        { enc := closeRegisters u.enc j
          sink := u.sink.got (j + 1) (((closeWrites u.enc).take j).flatten ++ q) l } := by
  by_cases h : u.enc.fill = 0
  · have hlast := lastBlocks_empty h
    rw [closeRegisters_late (by omega) hj, hlast, Nat.add_zero] at hidx ⊢
    obtain ⟨q, hq, hflow⟩ := emitTerminal_stopped hidx (by omega) hs ha
    refine ⟨q, by rwa [closeWrites_empty h], ?_⟩
    rw [closeFrames, emitRest_empty h, bind_done, hflow, closeWrites_empty h, ← h]
  · have hlast := lastBlocks_nonempty h
    by_cases hj4 : j < 4
    · rw [closeRegisters_early (by omega)] at hidx ⊢
      obtain ⟨q, hq, hflow⟩ := emitBuffer_stopped h hidx hj4 hs ha
      refine ⟨q, ?_, ?_⟩
      · rwa [closeWrites_nonempty h, List.getD_append _ _ _ _ (by rwa [dataWrites_length])]
      · rw [closeFrames, emitRest_nonempty h, hflow, stopped_bind, closeWrites_nonempty h,
          List.take_append_of_le_length (by rw [dataWrites_length]; omega)]
    · obtain ⟨k, rfl⟩ := Nat.exists_eq_add_of_le (Nat.le_of_not_lt hj4)
      have hregisters : closeRegisters u.enc (4 + k) = blockEmitted u.enc := by
        rw [closeRegisters_late (by omega) hj, hlast]; rfl
      rw [hregisters] at hidx ⊢
      have hserved := emitBuffer_served h (Nat.lt_of_succ_lt hidx) ((Sink.AnswersAfter.serves hs).mono (by omega))
      obtain ⟨q, hq, hflow⟩ := emitTerminal_stopped (u := { enc := blockEmitted u.enc, sink := u.sink.after 4 _ }) hidx
        (by omega) (Sink.AnswersAfter.after (i := 4) hs (dataFrame u.enc.nextIndex (pendingBytes u.enc))) ha
      refine ⟨q, ?_, ?_⟩
      · rwa [closeWrites_nonempty h, List.getD_append_right _ _ _ _ (by rw [dataWrites_length]; omega), dataWrites_length,
          Nat.add_sub_cancel_left]
      · rw [closeFrames, emitRest_nonempty h, hserved, bind_done, hflow, sink_got_after, closeWrites_nonempty h,
          List.take_append, dataWrites_length, Nat.add_sub_cancel_left,
          List.take_of_length_le (l := dataWrites _ _) (by rw [dataWrites_length]; omega), List.flatten_append,
          dataWrites_flatten, List.append_assoc, Nat.add_assoc]
        rfl

/-! ### The flush and the close -/

/-- A sink that has got some bytes, then a flush. -/
def Sink.flushed (k : Sink) (n : Nat) (b : Bytes) (l : List SinkAnswer) : Sink :=
  { k.got n b l with flushes := k.flushes + 1 }

theorem sinkFlush_after {n : Nat} {b : Bytes} {k : Sink} (ha : (k.after n b).answer = a)
    (hl : (k.after n b).answers.tail = l) : sinkFlush (k.after n b) = (a, k.flushed (n + 1) b l) := by
  rw [sinkFlush, ha]
  simp only [Sink.flushed, Sink.got, Sink.called, hl, sink_after_data, sink_after_isOpen, sink_after_flushes,
    sink_after_calls, Nat.add_assoc]

theorem admittedFlow_encClose_eq (u : EncSide) :
    admittedFlow .encClose u = (closeFrames u).bind fun _ v => flushAndClose v := by
  rw [closeFrames, bind_assoc]
  rfl

/-- `ENC.CLOSE` from its flush on, both frames out. -/
theorem admittedFlow_encClose_flush (hidx : u.enc.nextIndex + u.enc.lastBlocks < 2 ^ 32)
    (hs : u.sink.Serves (4 * u.enc.lastBlocks + 3)) :
    admittedFlow .encClose u = flushAndClose
      { enc := closeRegisters u.enc (4 * u.enc.lastBlocks + 3)
        sink := u.sink.after (4 * u.enc.lastBlocks + 3) (closeWrites u.enc).flatten } := by
  rw [admittedFlow_encClose_eq, closeFrames_served hidx hs, bind_done]

/-- The flush stops it. -/
theorem flushAndClose_flush_stopped {n : Nat} {b : Bytes} {e : Encoder} {k : Sink} (hs : k.AnswersAfter n a l)
    (ha : a ≠ .ok) :
    flushAndClose { enc := e, sink := k.after n b } = stopped a 2 { enc := e, sink := k.flushed (n + 1) b l } := by
  have hzero : (k.after n b).AnswersAfter 0 a l := Sink.AnswersAfter.after (j := 0) hs b
  have hcall := sinkFlush_after (k := k) (n := n) (b := b) (Sink.AnswersAfter.answer hzero) (Sink.AnswersAfter.tail hzero)
  rw [flushAndClose, encCall_stopped (u := { enc := e, sink := k.after n b }) 2 hcall ha, stopped_bind]

/-- An answered flush is followed by the close. -/
theorem flushAndClose_flushed {n : Nat} {b : Bytes} {e : Encoder} {k : Sink} (hs : k.Serves (n + 1)) :
    flushAndClose { enc := e, sink := k.after n b } =
      (encCall sinkClose 3 { enc := e, sink := k.flushed (n + 1) b (k.answers.drop (n + 1)) }).bind
        fun _ v => .done .empty v.close := by
  have hanswer : (k.after n b).answer = .ok := (Sink.Serves.after hs b).answer Nat.one_pos
  have hcall := sinkFlush_after (k := k) (l := k.answers.drop (n + 1)) hanswer (by rw [sink_after_answers, List.tail_drop])
  rw [flushAndClose, encCall_ok (u := { enc := e, sink := k.after n b }) 2 hcall, bind_done]
  rfl

/-- The close stops it. -/
theorem sinkClose_stopped {k : Sink} (hs : k.AnswersAfter 0 a l) (ha : a ≠ .ok) :
    ∃ o, sinkClose k = (a, { k with answers := l, calls := k.calls + 1, isOpen := o }) := by
  refine ⟨Config.openAfterFailedClose k.calls, ?_⟩
  have hanswer := Sink.AnswersAfter.answer hs
  obtain rfl := Sink.AnswersAfter.tail hs
  cases a with
  | ok => exact absurd rfl ha
  | fail => simp [sinkClose, hanswer, Sink.called]
  | never => simp [sinkClose, hanswer, Sink.called]

end Close
end Sys2Proof.Machine

/-! The statements about `ENC.CLOSE`, about the exhausted index, and about calls that never answer
(spec/42_block_encoder.md sections 1 to 3, spec/00_scope.md R13). -/

namespace Sys2Proof.Machine

/-! ### `ENC.CLOSE` -/

theorem exec_encClose {s : State} (hs : s.enc.Ready) :
    exec .encClose s = .next (s.finishEnc (admittedFlow .encClose s.encSide)) :=
  exec_admitted hs rfl (by simp)

/-- The count of the last data block, as the statements write it. -/
theorem ite_eq_lastBlocks (e : Encoder) : (if e.fill = 0 then 0 else 1) = e.lastBlocks := rfl

/-- The number of its writes, as the statements write it. -/
theorem ite_eq_four_mul_lastBlocks (e : Encoder) : (if e.fill = 0 then 0 else 4) = 4 * e.lastBlocks := by
  unfold Encoder.lastBlocks
  split <;> rfl

/-- The close after some bytes and a flush, all answered `ok`. -/
theorem sinkClose_flushed {k : Sink} {n : Nat} (b : Bytes) (h : k.Serves (n + 1)) :
    sinkClose (k.flushed n b (k.answers.drop n)) =
      (.ok, { k.after (n + 1) b with isOpen := false, flushes := k.flushes + 1 }) := by
  have hanswer : (k.flushed n b (k.answers.drop n)).answer = .ok := (Sink.Serves.after h b).answer Nat.one_pos
  rw [sinkClose_ok hanswer]
  simp [Sink.called, Sink.flushed, Sink.got, Sink.after, Nat.add_assoc]

/-- A first stop of `ENC.CLOSE` in one of its writes. -/
theorem admittedFlow_encClose_stopped {u : EncSide} {j : Nat} {a : SinkAnswer} {l : List SinkAnswer}
    (hj : j < (closeWrites u.enc).length) (hidx : (closeRegisters u.enc j).nextIndex < 2 ^ 32)
    (hs : u.sink.AnswersAfter j a l) (ha : a ≠ .ok) :
    ∃ q, q <+: (closeWrites u.enc).getD j [] ∧
      admittedFlow .encClose u = stopped a 1
        { enc := closeRegisters u.enc j
          sink := u.sink.got (j + 1) (((closeWrites u.enc).take j).flatten ++ q) l } := by
  rw [closeWrites_length] at hj
  obtain ⟨q, hq, hflow⟩ := closeFrames_stopped hj hidx hs ha
  exact ⟨q, hq, by rw [admittedFlow_encClose_eq, hflow, stopped_bind]⟩

/-- A stop in its flush. -/
theorem admittedFlow_encClose_flush_stopped {u : EncSide} {a : SinkAnswer} {l : List SinkAnswer}
    (hidx : u.enc.nextIndex + u.enc.lastBlocks < 2 ^ 32) (hs : u.sink.AnswersAfter (4 * u.enc.lastBlocks + 3) a l)
    (ha : a ≠ .ok) :
    admittedFlow .encClose u = stopped a 2
      { enc := closeRegisters u.enc (4 * u.enc.lastBlocks + 3)
        sink := u.sink.flushed (4 * u.enc.lastBlocks + 4) (closeWrites u.enc).flatten l } := by
  rw [admittedFlow_encClose_flush hidx (Sink.AnswersAfter.serves hs), flushAndClose_flush_stopped hs ha]

/-- A stop in its close. -/
theorem admittedFlow_encClose_close_stopped {u : EncSide} {a : SinkAnswer} {l : List SinkAnswer}
    (hidx : u.enc.nextIndex + u.enc.lastBlocks < 2 ^ 32) (hs : u.sink.AnswersAfter (4 * u.enc.lastBlocks + 4) a l)
    (ha : a ≠ .ok) :
    ∃ o, admittedFlow .encClose u = stopped a 3
      { enc := closeRegisters u.enc (4 * u.enc.lastBlocks + 3)
        sink := { u.sink.flushed (4 * u.enc.lastBlocks + 5) (closeWrites u.enc).flatten l with isOpen := o } } := by
  have hserves := Sink.AnswersAfter.serves hs
  have hlast : (u.sink.flushed (4 * u.enc.lastBlocks + 4) (closeWrites u.enc).flatten
      (u.sink.answers.drop (4 * u.enc.lastBlocks + 4))).AnswersAfter 0 a l :=
    Sink.AnswersAfter.after (j := 0) hs []
  obtain ⟨o, hcall⟩ := sinkClose_stopped hlast ha
  refine ⟨o, ?_⟩
  rw [admittedFlow_encClose_flush hidx (hserves.mono (by omega)), flushAndClose_flushed hserves,
    encCall_stopped (u := { enc := _, sink := u.sink.flushed _ _ _ }) 3 hcall ha, stopped_bind]
  rfl

/-- Every call of `ENC.CLOSE` answered `ok`. -/
theorem admittedFlow_encClose_served {u : EncSide} (hidx : u.enc.nextIndex + u.enc.lastBlocks < 2 ^ 32)
    (hs : u.sink.Serves (4 * u.enc.lastBlocks + 5)) :
    admittedFlow .encClose u = .done .empty
      { enc := { closeRegisters u.enc (4 * u.enc.lastBlocks + 3) with closed := true }
        sink := { u.sink.after (4 * u.enc.lastBlocks + 5) (closeWrites u.enc).flatten with
          isOpen := false, flushes := u.sink.flushes + 1 } } := by
  rw [admittedFlow_encClose_flush hidx (hs.mono (by omega)), flushAndClose_flushed (hs.mono (by omega)),
    encCall_ok (u := { enc := _, sink := Sink.flushed _ _ _ _ }) 3 (sinkClose_flushed _ hs), bind_done]
  rfl

/-- The answers left are those after the calls made. -/
theorem Sink.AnswersAfter.after_eq_got {k : Sink} {j : Nat} {a : SinkAnswer} {l : List SinkAnswer}
    (h : k.AnswersAfter j a l) (b : Bytes) : k.after (j + 1) b = k.got (j + 1) b l := by
  have hdrop : k.answers.drop (j + 1) = l := by
    rw [h, List.drop_append, List.length_replicate, Nat.add_sub_cancel_left, List.drop_of_length_le (by simp),
      List.nil_append, List.drop_one, List.tail_cons]
  rw [Sink.after, Sink.got, hdrop]

/-! ### The statements about `ENC.CLOSE` -/

/-- Settles O37: every call is answered `ok`. -/
theorem encCloseEndsTheStream : Obligations.EncCloseEndsTheStream := by
  unfold Obligations.EncCloseEndsTheStream
  intro s hs hsink hidx
  simp only [ite_eq_lastBlocks, ite_eq_four_mul_lastBlocks, ← closeWrites_flatten] at hidx ⊢
  have hflow := admittedFlow_encClose_served (u := s.encSide) hidx (hsink.serves _)
  rw [exec_encClose hs, hflow, finishEnc_eq, encSide_enc, closeRegisters_end]
  rfl

/-- Settles O38: the call that fails is the last, its error is latched and answered. -/
theorem encCloseStopsAtItsFirstFailure : Obligations.EncCloseStopsAtItsFirstFailure := by
  unfold Obligations.EncCloseStopsAtItsFirstFailure
  simp only [ite_eq_lastBlocks, ite_eq_four_mul_lastBlocks, ← closeWrites_flatten]
  refine ⟨fun s l hs hidx hanswers => ?flush, fun s l hs hidx hanswers => ?close,
    fun s j l hs hj hidx hanswers => ?write, fun s hs hfill hidx hanswers => ?index⟩
  case flush =>
    have hflow := admittedFlow_encClose_flush_stopped (u := s.encSide) hidx hanswers nofun
    rw [exec_encClose hs, hflow, stopped_fail, finishEnc_eq, encSide_enc, closeRegisters_end,
      Sink.AnswersAfter.after_eq_got hanswers]
    rfl
  case close =>
    obtain ⟨o, hflow⟩ := admittedFlow_encClose_close_stopped (u := s.encSide) hidx hanswers nofun
    refine ⟨o, ?_⟩
    rw [exec_encClose hs, hflow, stopped_fail, finishEnc_eq, encSide_enc, closeRegisters_end,
      Sink.AnswersAfter.after_eq_got hanswers]
    rfl
  case write =>
    obtain ⟨q, hq, hflow⟩ := admittedFlow_encClose_stopped (u := s.encSide) hj hidx hanswers nofun
    refine ⟨q, hq, ?_⟩
    rw [exec_encClose hs, hflow, stopped_fail, finishEnc_eq]
    rfl
  case index =>
    have hlast : s.encSide.enc.nextIndex < 2 ^ 32 := by rw [encSide_enc, hidx]; decide
    have hexhausted : 2 ^ 32 ≤ (blockEmitted s.enc).nextIndex := by rw [blockEmitted_nextIndex, hidx]; decide
    have hblock := emitBuffer_served (u := s.encSide) hfill hlast hanswers
    have hflow : admittedFlow .encClose s.encSide = .raised rangeError
        { enc := blockEmitted s.enc, sink := s.sink.after 4 (dataFrame s.enc.nextIndex (pendingBytes s.enc)) } := by
      rw [admittedFlow_encClose_eq, closeFrames, emitRest_nonempty hfill, hblock, bind_done, emitTerminal,
        emitFrame_exhausted _ _ hexhausted]
      rfl
    rw [exec_encClose hs, hflow, finishEnc_eq, hidx]
    simp [blockEmitted, hidx, rangeError]

/-! ### The exhausted index -/

/-- Settles O39: the first frame to be emitted raises, before its first write. -/
theorem exhaustedIndexRaisesRangeError : Obligations.ExhaustedIndexRaisesRangeError := by
  unfold Obligations.ExhaustedIndexRaisesRangeError
  refine ⟨fun s hs hidx => ?close, fun data s hs hidx hfill hfull => ?write⟩
  case close =>
    have hexhausted : 2 ^ 32 ≤ s.encSide.enc.nextIndex := hidx.ge
    have hflow : admittedFlow .encClose s.encSide = .raised rangeError s.encSide := by
      rw [admittedFlow_encClose_eq, closeFrames]
      by_cases h : s.encSide.enc.fill = 0
      · rw [emitRest_empty h, bind_done, emitTerminal, emitFrame_exhausted _ _ hexhausted, bind_raised]
      · rw [emitRest_nonempty h, emitBuffer_exhausted hexhausted, bind_raised, bind_raised]
    rw [exec_encClose hs, hflow, finishEnc_eq]
    rfl
  case write =>
    have hexhausted : 2 ^ 32 ≤
        (fillBuffer (data.take (s.enc.blockSize - s.enc.fill)) s.encSide).enc.nextIndex := hidx.ge
    have hlen : s.enc.fill + (data.take (s.enc.blockSize - s.enc.fill)).length = s.enc.blockSize := by
      rw [List.length_take]; omega
    have hflow := writeBytes_full (u := s.encSide) hfill hfull
    rw [encSide_enc, emitBuffer_exhausted hexhausted, bind_raised] at hflow
    rw [exec_encWrite_raised hs hflow, fillBuffer, encSide_enc, hlen]
    rfl

/-! ### Calls that never answer -/

/-- A write of `ENC.WRITE` that never answers. -/
theorem writeBytes_stopped {u : EncSide} {data : Bytes} {j : Nat} {a : SinkAnswer} {l : List SinkAnswer}
    (hfill : u.enc.fill < u.enc.blockSize) (hj : j < 4 * ((u.enc.fill + data.length) / u.enc.blockSize))
    (hidx : u.enc.nextIndex + j / 4 < 2 ^ 32) (hs : u.sink.AnswersAfter j a l) (ha : a ≠ .ok) :
    ∃ (m : Memory) (q : Bytes), BlocksOut u.enc data (j / 4 + 1) m ∧
      memRead Config.unwrittenEncBuf m 0 u.enc.blockSize =
        ((pendingBytes u.enc ++ data).drop (j / 4 * u.enc.blockSize)).take u.enc.blockSize ∧
      q <+: (dataWrites (u.enc.nextIndex + j / 4) (memRead Config.unwrittenEncBuf m 0 u.enc.blockSize)).getD (j % 4) [] ∧
      writeBytes data u = stopped a 1
        { enc := (blockFilled u data (j / 4) m).enc
          sink := u.sink.got (j + 1)
            (dataFrames u.enc.nextIndex ((fullBlocks u.enc.blockSize (pendingBytes u.enc ++ data)).take (j / 4)) ++
              ((dataWrites (u.enc.nextIndex + j / 4)
                (memRead Config.unwrittenEncBuf m 0 u.enc.blockSize)).take (j % 4)).flatten ++ q) l } := by
  have hsplit : 4 * (j / 4) + j % 4 = j := Nat.div_add_mod j 4
  have hblock : (j / 4 + 1) * u.enc.blockSize ≤ u.enc.fill + data.length :=
    (Nat.le_div_iff_mul_le (by omega)).mp (by omega)
  have hsucc : (j / 4 + 1) * u.enc.blockSize = j / 4 * u.enc.blockSize + u.enc.blockSize := Nat.succ_mul _ _
  rw [← hsplit] at hs
  obtain ⟨m, hm, hwrite⟩ := writeBytes_blocks (data := data) (j / 4) hfill (by omega) hidx.le
    ((Sink.AnswersAfter.serves hs).mono (by omega))
  obtain ⟨m', hread, hm', hnext⟩ := writeBytes_afterBlocks hfill hm hblock
  obtain ⟨q, hq, hstop⟩ := emitBuffer_stopped (u := blockFilled u data (j / 4) m') (Nat.ne_zero_of_lt hfill) hidx
    (Nat.mod_lt j (by decide)) (Sink.AnswersAfter.after hs _) ha
  refine ⟨m', q, hm', hread, hq, ?_⟩
  rw [hwrite, hnext, hstop, stopped_bind]
  congr 2
  rw [blockFilled, afterBlocks, sink_got_after, ← Nat.add_assoc, hsplit, List.append_assoc]
  rfl

/-- The reading of a frame is the reading of one of its fields, and what follows it. -/
theorem readFrame_at_field {p : Params} {u : DecSide} {j : Nat} {w : List Bytes} (hp : p.Legal)
    (hw : FrameFields p u.dec.expectedIndex w) (hj : j < w.length) (h : u.source.Delivers (w.take j))
    (hidx : u.dec.expectedIndex < 2 ^ 32) :
    ∃ g : Bytes → DecSide → Flow DecSide Unit,
      readFrame p u = (srcField w[j].length (u.afterFields (w.take j))).bind g := by
  have hheader : ∀ {d : Bytes} {len : U32} {post : List Bytes}, d.length = 32 →
      w = headerFields u.dec.expectedIndex d len ++ post → j < 3 →
      ∃ g, readFrame p u = (srcField w[j].length (u.afterFields (w.take j))).bind g := by
    intro d len post hd hw hj3
    subst hw
    match j, hj3 with
    | 0, _ => exact ⟨_, readFrame_eq p u⟩
    | 1, _ =>
      refine ⟨fun d u => readLength p d u, (readFrame_index h hidx).trans ?_⟩
      show _ = (srcField d.length (u.afterFields [le32Enc (BitVec.ofNat 32 u.dec.expectedIndex)])).bind _
      rw [hd]
      rfl
    | 2, _ => exact ⟨_, (readFrame_index h hidx).trans ((readDigest_delivered h hd).trans rfl)⟩
  cases hw with
  | terminal => exact hheader (by simp) (terminalWrites_eq_header _) hj
  | data b h1 hmax =>
    by_cases hj3 : j < 3
    · exact hheader (sha256_length b) (dataWrites_eq_header _ b) hj3
    · obtain rfl : j = 3 := by rw [dataWrites_length] at hj; omega
      refine ⟨fun x v => if sha256 x ≠ sha256 b then .raised integrityViolation v
        else .done () { v with dec := acceptBlock x v.dec },
        (readFrame_header (post := []) h hidx (sha256_length b)).trans ?_⟩
      rw [toNat_ofNat_payload_length hp hmax, readBody_data _ _ h1 hmax]
      rfl

/-- A field read that never answers. -/
theorem srcField_never {u : DecSide} (n : Nat) (ha : u.source.answer = .never) :
    srcField n u = .stuck { u with source := u.source.lost } := by
  simp [srcField, srcReadExactly, ha]

/-- A `DEC.READ` that waits inside its frame. -/
theorem exec_decRead_stuck {n : U32} {s : State} {v : DecSide} (hn : n ≠ 0) (hs : s.dec.AtFrame)
    (hread : readFrame s.params s.decSide = .stuck v) :
    exec (.decRead n) s = .next { s with dec := { v.dec with waiting := true }, source := v.source } := by
  rw [exec_decRead_atFrame hn hs, hread]
  rfl

/-- Settles O15: the call that never answers is the last, whatever command makes it, and its unit waits from then on. -/
theorem unansweredCallBlocksItsUnit : Obligations.UnansweredCallBlocksItsUnit := by
  unfold Obligations.UnansweredCallBlocksItsUnit
  refine ⟨fun s l hs hanswers => ?flush, fun data s j l hs hfill hj hidx hanswers => ?write,
    fun s j l hs hj hidx hanswers => ?closeWrite, fun s l hs hidx hanswers => ?closeFlush,
    fun s l hs hidx hanswers => ?close, fun s n l hn hs hanswers => ?firstField,
    fun n f j l s hn hp hs hidx hframe hholds hanswers => ?field,
    fun i s hunit hw => exec_enc_waiting hunit hw, fun i s hunit hn hw => exec_dec_waiting hunit hn hw⟩
  case flush =>
    have hcall : sinkFlush s.encSide.sink = (.never, s.sink.flushed 1 [] l) := by
      simp [sinkFlush, Sink.answer, hanswers, Sink.flushed, Sink.got, Sink.called]
    rw [exec_admitted hs rfl (by simp), admittedFlow, encCall_stopped 2 hcall nofun, stopped_bind, stopped_never,
      finishEnc_eq]
    simp [Sink.flushed, Sink.got]
  case write =>
    obtain ⟨m, q, hm, hread, hq, hflow⟩ := writeBytes_stopped (u := s.encSide) hfill hj hidx hanswers nofun
    have hsucc : (j / 4 + 1) * s.enc.blockSize ≤ (pendingBytes s.enc ++ data).length := by
      rw [List.length_append, pendingBytes_length]
      exact (Nat.le_div_iff_mul_le (by omega)).mp (by omega)
    refine ⟨m, _, q, fullBlocks_getElem? (by omega) hsucc, hread ▸ hq, ?_, hread, fun a ha => hm.kept a fun i _ _ => ?_⟩
    · rw [exec_encWrite_stuck hs hflow, hread]
      rfl
    · exact Nat.ne_of_lt (Nat.lt_of_lt_of_le (Nat.mod_lt _ (Nat.zero_lt_of_lt hfill)) ha)
  case closeWrite =>
    obtain ⟨q, hq, hflow⟩ := admittedFlow_encClose_stopped (u := s.encSide) hj hidx hanswers nofun
    refine ⟨q, hq, ?_⟩
    rw [exec_encClose hs, hflow, stopped_never, finishEnc_eq]
    simp
  case closeFlush =>
    rw [closeWrites_length] at hanswers ⊢
    have hflow := admittedFlow_encClose_flush_stopped (u := s.encSide) hidx hanswers nofun
    rw [exec_encClose hs, hflow, stopped_never, finishEnc_eq]
    simp [Sink.flushed]
  case close =>
    rw [closeWrites_length] at hanswers ⊢
    obtain ⟨o, hflow⟩ := admittedFlow_encClose_close_stopped (u := s.encSide) hidx hanswers nofun
    refine ⟨o, ?_⟩
    rw [exec_encClose hs, hflow, stopped_never, finishEnc_eq]
    simp [Sink.flushed]
  case firstField =>
    have hanswer : s.decSide.source.answer = .never := by simp [Source.answer, hanswers]
    have hread : readFrame s.params s.decSide = .stuck { s.decSide with source := s.source.lost } := by
      rw [readFrame_eq, srcField_never 4 hanswer, bind_stuck]
      rfl
    refine ⟨Config.sourcePosition s.source.calls, ?_⟩
    rw [exec_decRead_stuck hn hs hread]
    simp [Source.lost, Source.called, hanswers]
  case field =>
    obtain ⟨w, hw, rfl, hj⟩ : ∃ w, FrameFields s.params s.dec.expectedIndex w ∧ w.flatten = f ∧ j < w.length := by
      rcases hframe with ⟨b, rfl, h1, hmax, hj⟩ | ⟨rfl, hj⟩
      · exact ⟨_, .data b h1 hmax, dataWrites_flatten _ b, hj⟩
      · exact ⟨_, .terminal, terminalWrites_flatten _, hj⟩
    have hlength : (w.take j).length = j := List.length_take_of_le hj.le
    have hanswer : (s.decSide.afterFields (w.take j)).source.answer = .never := by
      rw [afterFields_source, hlength]
      exact Source.AnswersAfter.answer hanswers _
    obtain ⟨g, hframe⟩ := readFrame_at_field (u := s.decSide) hp hw hj (Source.AnswersAfter.delivers hanswers hholds) hidx
    have hlost := Source.AnswersAfter.lost hanswers (w.take j).flatten.length
    rw [srcField_never _ hanswer, bind_stuck, afterFields_source, hlength, decSide_source, hlost] at hframe
    exact ⟨_, exec_decRead_stuck hn hs hframe⟩

end Sys2Proof.Machine

/-! Runs of the encoder (spec/42_block_encoder.md R149, R150; spec/30_encoding.md R82, R85): what the encoder has absorbed,
command by command, and the stream it ends with. -/

namespace Sys2Proof.Machine

/-! ### Programs, one command at a time -/

/-- A well-formed command of a program runs, the rest from the state it leaves. -/
theorem runEvents_issue {i : Instr} {es : List HostEvent} {s t : State} (hwf : WellFormed i = true)
    (h : exec i { s with events := es } = .next t) : runEvents (issue i :: es) s = runEvents es t := by
  have hstep : step { s with events := issue i :: es } = .next t := by
    rw [step_command (b := encode i) (rest := es) rfl, runTransaction_of_decode (decode_encode hwf)]
    exact h
  obtain ⟨-, hevents, -⟩ := commandsTouchOnlyTheirUnit i _ t h
  exact runEvents_cons hstep hevents

/-! ### The blocks of a byte sequence -/

theorem restBlock_drop {B : Nat} {x : Bytes} (hB : 0 < B) (h : B ≤ x.length) :
    restBlock B (x.drop B) = restBlock B x := by
  rw [restBlock, restBlock, List.length_drop, List.drop_drop, Nat.div_eq_sub_div hB h, Nat.succ_mul, Nat.add_comm]

/-- The full blocks of a sequence made longer: those it has, then those that its rest and the bytes added have. -/
theorem fullBlocks_append {B : Nat} (hB : 0 < B) (x d : Bytes) :
    fullBlocks B (x ++ d) = fullBlocks B x ++ fullBlocks B (restBlock B x ++ d) ∧
      restBlock B (x ++ d) = restBlock B (restBlock B x ++ d) := by
  induction hn : x.length using Nat.strongRecOn generalizing x with
  | _ n ih =>
  subst hn
  by_cases hx : x.length < B
  · rw [fullBlocks_of_lt hx, restBlock_of_lt hx, List.nil_append]
    exact ⟨rfl, rfl⟩
  · have hle : B ≤ x.length := Nat.le_of_not_lt hx
    have hle' : B ≤ (x ++ d).length := by rw [List.length_append]; omega
    obtain ⟨hfull, hrest⟩ := ih _ (by rw [List.length_drop]; omega) (x.drop B) rfl
    rw [restBlock_drop hB hle] at hfull hrest
    rw [fullBlocks_cons hB hle', ← restBlock_drop hB hle', fullBlocks_cons hB hle,
      List.take_append_of_le_length hle, List.drop_append_of_le_length hle, hfull]
    exact ⟨rfl, hrest⟩

theorem fullBlocks_flatten (B : Nat) (x : Bytes) : (fullBlocks B x).flatten ++ restBlock B x = x := by
  rcases Nat.eq_zero_or_pos B with rfl | hB
  · simp [fullBlocks, restBlock]
  induction hn : x.length using Nat.strongRecOn generalizing x with
  | _ n ih =>
  subst hn
  by_cases hx : x.length < B
  · rw [fullBlocks_of_lt hx, restBlock_of_lt hx, List.flatten_nil, List.nil_append]
  · have hle : B ≤ x.length := Nat.le_of_not_lt hx
    rw [fullBlocks_cons hB hle, ← restBlock_drop hB hle, List.flatten_cons, List.append_assoc,
      ih _ (by rw [List.length_drop]; omega) _ rfl, List.take_append_drop]

/-- The blocks hold all the bytes (R85). -/
theorem blocksOf_flatten (B : Nat) (x : Bytes) : (blocksOf B x).flatten = x := by
  rw [blocksOf, List.flatten_append]
  conv_rhs => rw [← fullBlocks_flatten B x]
  split
  · next h => rw [List.length_eq_zero_iff.mp h, List.flatten_nil]
  · rw [List.flatten_singleton]

theorem blocksOf_length (B : Nat) (x : Bytes) :
    (blocksOf B x).length = x.length / B + if x.length % B = 0 then 0 else 1 := by
  rw [blocksOf, List.length_append, fullBlocks_length, restBlock_length]
  split <;> rfl

theorem dataFrames_length (k : Nat) (ps : List Bytes) :
    (dataFrames k ps).length = ps.flatten.length + 40 * ps.length := by
  induction ps generalizing k with
  | nil => rfl
  | cons p ps ih =>
    rw [dataFrames, List.length_append, ih, dataFrame_length, List.flatten_cons, List.length_append, List.length_cons]
    omega

/-- A stream has 40 bytes for each frame besides the payloads. -/
theorem streamOf_length (ps : List Bytes) : (streamOf ps).length = ps.flatten.length + 40 * (ps.length + 1) := by
  rw [streamOf, List.length_append, dataFrames_length, terminalFrame_length]
  omega

/-! ### What the encoder has absorbed -/

/-- The open encoder has absorbed the bytes `x` since its construction with block size `B`, over a reliable sink that held
`d0`, and has forwarded `f` flushes in all. -/
structure Absorbed (B : Nat) (d0 x : Bytes) (f : Nat) (u : EncSide) : Prop where
  ready : u.enc.Ready
  blockSize : u.enc.blockSize = B
  fill : u.enc.fill = x.length % B
  nextIndex : u.enc.nextIndex = x.length / B
  pending : pendingBytes u.enc = restBlock B x
  data : u.sink.data = d0 ++ dataFrames 0 (fullBlocks B x)
  flushes : u.sink.flushes = f
  reliable : u.sink.Reliable

section Absorbed

variable {B f : Nat} {d0 x : Bytes} {u : EncSide}

/-- Construction: nothing absorbed. -/
theorem absorbed_construct {p : Params} (cfg : U32) (e : Encoder) {k : Sink} (hsha : p.sha256Available = true)
    (hk : k.Reliable) :
    Absorbed (effectiveBlockSize p cfg) k.data [] k.flushes { enc := constructEncoder p cfg e, sink := k } where
  ready := ⟨by simp [constructionError, hsha], rfl, rfl⟩
  blockSize := rfl
  fill := (Nat.zero_mod _).symm
  nextIndex := (Nat.zero_div _).symm
  pending := by simp [pendingBytes, memRead, restBlock]
  data := by simp [fullBlocks, dataFrames]
  flushes := rfl
  reliable := hk

/-- A write. -/
theorem Absorbed.write (h : Absorbed B d0 x f u) (hB : 0 < B) {d : Bytes} (hidx : (x ++ d).length / B ≤ 2 ^ 32) :
    ∃ v, writeBytes d u = .done () v ∧ Absorbed B d0 (x ++ d) f v := by
  have hfill : u.enc.fill < u.enc.blockSize := by rw [h.fill, h.blockSize]; exact Nat.mod_lt _ hB
  have hdiv : x.length / B + (x.length % B + d.length) / B = (x ++ d).length / B := by
    conv_rhs => rw [List.length_append, ← Nat.div_add_mod x.length B, Nat.add_assoc, Nat.mul_add_div hB]
  obtain ⟨hfull, hrest⟩ := fullBlocks_append hB x d
  obtain ⟨m, hwrite, hpending, -⟩ := writeBytes_served (u := u) (data := d) hfill
    (by rwa [h.fill, h.blockSize, h.nextIndex, hdiv]) (h.reliable.serves _)
  refine ⟨_, hwrite, h.ready, h.blockSize, ?_, ?_, ?_, ?_, h.flushes, h.reliable.after _ _⟩
  · simp only [h.fill, h.blockSize, List.length_append, Nat.mod_add_mod]
  · simp only [h.fill, h.blockSize, h.nextIndex, hdiv]
  · rw [hrest, ← h.pending, ← h.blockSize]
    exact hpending
  · simp only [sink_after_data, h.data, h.nextIndex, h.pending, h.blockSize, hfull, dataFrames_append, fullBlocks_length,
      List.append_assoc, Nat.zero_add]

/-- A flush. -/
theorem Absorbed.flush (h : Absorbed B d0 x f u) :
    ∃ v, encCall sinkFlush 2 u = .done () v ∧ Absorbed B d0 x (f + 1) v := by
  have hcall : sinkFlush u.sink = (.ok, (sinkFlush u.sink).2) := by rw [sinkFlush, h.reliable.answer]
  exact ⟨_, encCall_ok 2 hcall, h.ready, h.blockSize, h.fill, h.nextIndex, h.pending, h.data, congrArg (· + 1) h.flushes,
    h.reliable.tail⟩

theorem Absorbed.blocks (h : Absorbed B d0 x f u) :
    (blocksOf B x).length = u.enc.nextIndex + u.enc.lastBlocks := by
  rw [blocksOf_length, h.nextIndex, Encoder.lastBlocks, h.fill]

/-- The close. -/
theorem Absorbed.close (h : Absorbed B d0 x f u) (hidx : (blocksOf B x).length + 1 ≤ 2 ^ 32) :
    ∃ v, admittedFlow .encClose u = .done .empty v ∧ v.sink.data = d0 ++ encodedStream B x ∧ v.sink.isOpen = false ∧
      v.sink.flushes = f + 1 ∧ v.enc.mode = .closed ∧ v.enc.nextIndex = (blocksOf B x).length + 1 := by
  obtain ⟨herr, -, -⟩ := h.ready
  have hblocks := h.blocks
  refine ⟨_, admittedFlow_encClose_served (by omega) (h.reliable.serves _), ?_, rfl, congrArg (· + 1) h.flushes, ?_, ?_⟩
  · have hlast : (if u.enc.fill = 0 then [] else [pendingBytes u.enc]) =
        if (restBlock B x).length = 0 then [] else [restBlock B x] := by
      rw [h.fill, h.pending, restBlock_length]
    simp only [sink_after_data, closeWrites_flatten, hlast, ← hblocks, h.data, encodedStream, streamOf]
    conv_rhs => rw [blocksOf, dataFrames_append, fullBlocks_length, Nat.zero_add, ← h.nextIndex]
    rw [← blocksOf, List.append_assoc, List.append_assoc]
  · rw [closeRegisters_end]
    exact encoder_mode_eq_closed.mpr ⟨herr, rfl⟩
  · rw [closeRegisters_end, hblocks]

end Absorbed

/-! ### Runs of the encoder -/

/-- From `s` to `t` the responses `rs` have been given, and nothing else has changed but the encoder and the sink. -/
structure EncoderRan (rs : List Response) (s t : State) : Prop where
  params : t.params = s.params
  dec : t.dec = s.dec
  source : t.source = s.source
  responses : t.responses = s.responses ++ rs

theorem EncoderRan.trans {rs rs' : List Response} {s t r : State} (h : EncoderRan rs s t) (h' : EncoderRan rs' t r) :
    EncoderRan (rs ++ rs') s r where
  params := h'.params.trans h.params
  dec := h'.dec.trans h.dec
  source := h'.source.trans h.source
  responses := by rw [h'.responses, h.responses, List.append_assoc]

/-- A command of an encoder that is ready, with a flow that comes to its end, as the first event of a program. -/
theorem runEvents_admitted {i : Instr} {s : State} {v : EncSide} (hready : s.enc.Ready) (hwf : WellFormed i = true)
    (hunit : commandUnit i = some .enc) (hinit : ∀ cfg, i ≠ .encInit cfg)
    (hflow : admittedFlow i s.encSide = .done .empty v) (es : List HostEvent) :
    ∃ t, runEvents (issue i :: es) s = runEvents es t ∧ t.encSide = v ∧ EncoderRan [.ok .empty] s t := by
  have hexec := exec_admitted (s := { s with events := es }) hready hunit hinit
  rw [show ({ s with events := es } : State).encSide = s.encSide from rfl, hflow, finishEnc_eq] at hexec
  exact ⟨_, runEvents_issue hwf hexec, rfl, ⟨rfl, rfl, rfl, rfl⟩⟩

/-- `ENC.INIT` as the first event of a program. -/
theorem runEvents_encInit {s : State} (cfg : U32) (hw : s.enc.waiting = false) (hsha : s.params.sha256Available = true)
    (es : List HostEvent) :
    ∃ t, runEvents (issue (.encInit cfg) :: es) s = runEvents es t ∧
      t.encSide = { enc := constructEncoder s.params cfg s.enc, sink := s.sink } ∧ EncoderRan [.ok .empty] s t := by
  refine ⟨_, runEvents_issue rfl (exec_encInit (s := { s with events := es }) cfg hw), rfl, rfl, rfl, rfl, ?_⟩
  rw [constructionResponse, hsha]
  rfl

/-- The event of one operation of a program: a write or a flush. -/
def operation (o : Option Bytes) : HostEvent := issue (o.elim .encFlush .encWrite)

/-- One operation of a program adds its bytes, or its flush. -/
theorem runEvents_operation {B f : Nat} {d0 x : Bytes} {s : State} (h : Absorbed B d0 x f s.encSide) (hB : 0 < B)
    (o : Option Bytes) (hlen : ∀ d ∈ o, d.length < 2 ^ 64) (hidx : (x ++ o.getD []).length / B ≤ 2 ^ 32)
    (es : List HostEvent) :
    ∃ t, runEvents (operation o :: es) s = runEvents es t ∧
      Absorbed B d0 (x ++ o.getD []) (f + [o].count none) t.encSide ∧ EncoderRan [.ok .empty] s t := by
  cases o with
  | none =>
    obtain ⟨v, hflow, hv⟩ := h.flush
    obtain ⟨t, hrun, rfl, ht⟩ := runEvents_admitted (i := .encFlush) h.ready rfl rfl (by simp)
      (by rw [admittedFlow, hflow]; rfl) es
    exact ⟨t, hrun, by simpa using hv, ht⟩
  | some d =>
    obtain ⟨v, hflow, hv⟩ := h.write (d := d) hB hidx
    obtain ⟨t, hrun, rfl, ht⟩ := runEvents_admitted (i := .encWrite d) h.ready (decide_eq_true (hlen d rfl)) rfl (by simp)
      (by rw [admittedFlow, hflow]; rfl) es
    exact ⟨t, hrun, by simpa using hv, ht⟩

/-- A program of writes and flushes, operation by operation. -/
theorem runEvents_operations {B : Nat} {d0 : Bytes} (es : List HostEvent) (ops : List (Option Bytes))
    (hB : ops ≠ [] → 0 < B) : ∀ {x : Bytes} {f : Nat} {s : State}, Absorbed B d0 x f s.encSide → (∀ d, some d ∈ ops → d.length < 2 ^ 64) →
      (x ++ ops.reduceOption.flatten).length / B ≤ 2 ^ 32 →
      ∃ t, runEvents (ops.map operation ++ es) s = runEvents es t ∧
        Absorbed B d0 (x ++ ops.reduceOption.flatten) (f + ops.count none) t.encSide ∧
        EncoderRan (List.replicate ops.length (.ok .empty)) s t := by
  induction ops with
  | nil =>
    intro x f s h _ _
    exact ⟨s, rfl, by simpa using h, ⟨rfl, rfl, rfl, (List.append_nil _).symm⟩⟩
  | cons o ops ih =>
    intro x f s h hlen hidx
    have hbytes : x ++ (o :: ops).reduceOption.flatten = x ++ o.getD [] ++ ops.reduceOption.flatten := by
      cases o <;> simp
    rw [hbytes] at hidx ⊢
    obtain ⟨r, hfirst, hr, hsr⟩ := runEvents_operation h (hB (List.cons_ne_nil o ops)) o (fun d hd => hlen d (by simp [Option.mem_def.mp hd]))
      (le_trans (Nat.div_le_div_right (by rw [List.length_append (bs := ops.reduceOption.flatten)]; omega)) hidx)
      (ops.map operation ++ es)
    obtain ⟨t, hrest, ht, hrt⟩ := ih (fun _ => hB (List.cons_ne_nil o ops)) hr (fun d hd => hlen d (List.mem_cons_of_mem o hd)) hidx
    refine ⟨t, hfirst.trans hrest, ?_, hsr.trans hrt⟩
    rwa [Nat.add_assoc, ← List.count_append, List.singleton_append] at ht

/-- A run of the encoder from construction to close (R149): the stream of what it has absorbed. -/
theorem runEvents_encoder {s : State} (cfg : U32) (ops : List (Option Bytes)) (hw : s.enc.waiting = false)
    (hsha : s.params.sha256Available = true) (hsink : s.sink.Reliable)
    (hB : ops ≠ [] → 0 < effectiveBlockSize s.params cfg) (hlen : ∀ d, some d ∈ ops → d.length < 2 ^ 64)
    (hidx : (blocksOf (effectiveBlockSize s.params cfg) (ops.reduceOption.flatten)).length + 1 ≤ 2 ^ 32) :
    ∃ t, runEvents (issue (.encInit cfg) :: ops.map operation ++ [issue .encClose]) s = .next t ∧
      t.sink.data = s.sink.data ++ encodedStream (effectiveBlockSize s.params cfg) ops.reduceOption.flatten ∧
      t.sink.isOpen = false ∧ t.sink.flushes = s.sink.flushes + ops.count none + 1 ∧ t.enc.mode = .closed ∧
      t.enc.nextIndex = (blocksOf (effectiveBlockSize s.params cfg) ops.reduceOption.flatten).length + 1 ∧
      EncoderRan (List.replicate (ops.length + 2) (.ok .empty)) s t := by
  obtain ⟨r, hinit, hside, hr⟩ := runEvents_encInit cfg hw hsha (ops.map operation ++ [issue .encClose])
  have h0 := absorbed_construct cfg s.enc hsha hsink
  rw [← hside] at h0
  obtain ⟨q, hops, hq, hrq⟩ := runEvents_operations [issue .encClose] ops hB h0 hlen (by
    rw [List.nil_append]; rw [blocksOf_length] at hidx; omega)
  rw [List.nil_append] at hq
  obtain ⟨v, hflow, hdata, hopen, hflushes, hmode, hindex⟩ := hq.close hidx
  obtain ⟨t, hclose, rfl, ht⟩ := runEvents_admitted (i := .encClose) hq.ready rfl rfl (by simp) hflow []
  refine ⟨_, hinit.trans (hops.trans (hclose.trans (runEvents_nil t))), hdata, hopen, hflushes, hmode, hindex, ?_⟩
  have hran := (hr.trans hrq).trans ht
  rw [List.append_assoc, ← List.replicate_succ'] at hran
  exact ⟨hran.params, hran.dec, hran.source, hran.responses⟩

theorem blocksOf_nil (B : Nat) : blocksOf B [] = [] := by
  simp [blocksOf, fullBlocks, restBlock]

/-- Bytes that fill exactly one block are one block. -/
theorem blocksOf_self {x : Bytes} (h : 0 < x.length) : blocksOf x.length x = [x] := by
  have hrest : (restBlock x.length x).length = 0 := by rw [restBlock_length, Nat.mod_self]
  rw [blocksOf, if_pos hrest, fullBlocks_cons h (Nat.le_refl _), fullBlocks_of_lt (by simpa using h),
    List.take_length, List.append_nil]

/-- The stream of no byte: one terminal frame, 40 zero bytes. -/
theorem encodedStream_nil (B : Nat) : encodedStream B [] = List.replicate 40 0x00#8 := by
  rw [encodedStream, blocksOf_nil]
  decide

/-- The stream of one full block: its frame, then the terminal frame with index 1. -/
theorem encodedStream_self {x : Bytes} (h : 0 < x.length) :
    encodedStream x.length x = dataFrame 0 x ++ terminalFrame 1 := by
  rw [encodedStream, blocksOf_self h, streamOf, dataFrames_singleton, List.length_singleton]

/-! ### The statements -/

/-- Settles O40, operation by operation: what the encoder has absorbed is carried along (`Absorbed`). -/
theorem encoderRunWritesTheStream : Obligations.EncoderRunWritesTheStream := by
  unfold Obligations.EncoderRunWritesTheStream
  intro s cfg ops hw hlegal hsha hsink hlen hidx
  obtain ⟨t, hrun, hdata, hopen, hflushes, hmode, hindex, ht⟩ :=
    runEvents_encoder cfg ops hw hsha hsink (fun _ => (effectiveBlockSize_range hlegal cfg).1) hlen hidx
  refine ⟨t, hrun, hdata, ?_, hopen, hflushes, hmode, hindex, ht.responses, ht.dec, ht.source⟩
  rw [encodedStream, streamOf_length, blocksOf_flatten]

/-- Settles O41: the run of O40 with no operation and with the one write. -/
theorem singleTerminatorAndBoundaryBlock : Obligations.SingleTerminatorAndBoundaryBlock := by
  unfold Obligations.SingleTerminatorAndBoundaryBlock
  refine ⟨fun s cfg hw hsha hsink => ?_, fun s B data hw hsha hsink hpos hlen => ?_,
    fun B _ => encodedStream_nil B, fun data hdata => encodedStream_self hdata⟩
  · obtain ⟨t, hrun, hdata, -, -, hmode, hindex, ht⟩ := runEvents_encoder cfg [] hw hsha hsink (fun h => absurd rfl h)
      (fun d hd => absurd hd List.not_mem_nil) (by simp [blocksOf_nil])
    rw [List.reduceOption_nil, List.flatten_nil, encodedStream_nil] at hdata
    rw [List.reduceOption_nil, List.flatten_nil, blocksOf_nil] at hindex
    exact ⟨t, hrun, hdata, hmode, hindex, ht.responses⟩
  · have hsize : effectiveBlockSize s.params B = data.length := by rw [effectiveBlockSize_eq, if_pos hpos, hlen]
    have hdata0 : 0 < data.length := by
      rw [hlen]; rw [BitVec.toInt_eq_toNat_cond] at hpos; split at hpos <;> omega
    have hlt : data.length < 2 ^ 32 := hlen ▸ B.isLt
    have hbytes : [some data].reduceOption.flatten = data := by simp
    obtain ⟨t, hrun, hdata, -, -, hmode, hindex, ht⟩ := runEvents_encoder B [some data] hw hsha hsink
      (fun _ => by rwa [hsize]) (fun d hd => by
        obtain rfl := Option.some.inj (List.mem_singleton.mp hd)
        omega) (by rw [hbytes, hsize, blocksOf_self hdata0, List.length_singleton]; decide)
    rw [hbytes, hsize, encodedStream_self hdata0, dataFrame, hlen, BitVec.ofNat_toNat] at hdata
    rw [hbytes, hsize, blocksOf_self hdata0] at hindex
    exact ⟨t, hrun, by simpa [terminalFrame] using hdata, hmode, hindex, ht.responses⟩

end Sys2Proof.Machine

/-! A changed byte of a data frame (spec/43_block_decoder.md section 3, spec/90_conflicts.md C1): which field it stands in,
and what `ReadFrame` makes of a frame with that field changed. -/

namespace Sys2Proof.Machine

/-! ### A frame that is refused after its index -/

/-- The error of a frame that is not accepted, with length field `len`, when the source holds `avail` bytes after its
header (R173, R174, R176 to R178). -/
def refusalError (p : Params) (len avail : Nat) : Err :=
  if p.maxBlockLen < len then malformedFrame 2
  else if len = 0 then malformedFrame 3
  else if avail < len then malformedFrame 4
  else integrityViolation

theorem refusalError_within {p : Params} {len avail : Nat} (h1 : 1 ≤ len) (hmax : len ≤ p.maxBlockLen)
    (hle : len ≤ avail) : refusalError p len avail = integrityViolation := by
  rw [refusalError, if_neg (by omega), if_neg (by omega), if_neg (by omega)]

/-- A frame under the expected index that is neither a terminal frame nor a data frame with its payload's digest. -/
theorem readFrame_refused {p : Params} {u : DecSide} {d tail : Bytes} {len : U32} (hu : u.source.Reliable)
    (hidx : u.dec.expectedIndex < 2 ^ 32) (hd : d.length = 32)
    (h : u.source.data.drop u.source.pos = le32Enc (BitVec.ofNat 32 u.dec.expectedIndex) ++ d ++ le32Enc len ++ tail)
    (hterminal : len.toNat = 0 → d ≠ List.replicate 32 0x00)
    (hdata : 1 ≤ len.toNat → len.toNat ≤ tail.length → sha256 (tail.take len.toNat) ≠ d) :
    ∃ v, readFrame p u = .raised (refusalError p len.toNat tail.length) v ∧ v.dec = u.dec := by
  have hserve : ({ u with source := u.source.after 3 40 } : DecSide).source.answer = .serve := (hu.after 3 40).answer
  have htail : u.source.data.drop (u.source.pos + 40) = tail := by
    rw [← List.drop_drop, h, List.drop_left' (by simp [hd])]
  rw [readFrame_of_holds_header hu hidx hd ⟨tail, h.symm⟩, refusalError]
  split
  · next habove => exact ⟨_, readBody_above _ _ habove, rfl⟩
  split
  · next hzero =>
    rw [hzero, readBody_zero]
    exact ⟨_, acceptTerminal_other _ (hterminal hzero), rfl⟩
  rw [readBody_data _ _ (by omega) (by omega)]
  split
  · next hshort =>
    rw [acceptData, srcField_ended hserve (by rwa [source_after_data, source_after_pos, htail]), bind_raised]
    exact ⟨_, rfl, rfl⟩
  · next hheld =>
    have hle : len.toNat ≤ tail.length := Nat.le_of_not_lt hheld
    have hread := srcField_serve (n := len.toNat) (b := tail.take len.toNat) (rest := tail.drop len.toNat) hserve
      (by rw [source_after_data, source_after_pos, htail, List.take_append_drop]) (List.length_take_of_le hle) (by omega)
    rw [acceptData_delivered d hread, if_pos (hdata (by omega) hle)]
    exact ⟨_, rfl, rfl⟩

/-- A frame whose index field is another than the expected one. -/
theorem readFrame_otherIndex {p : Params} {u : DecSide} {i tail : Bytes} (hu : u.source.Reliable) (hi : i.length = 4)
    (h : u.source.data.drop u.source.pos = i ++ tail) (hother : i ≠ le32Enc (BitVec.ofNat 32 u.dec.expectedIndex)) :
    ∃ v, readFrame p u = .raised (malformedFrame 1) v ∧ v.dec = u.dec := by
  have hdelivers : u.source.Delivers [le32Enc (le32Dec i)] :=
    hu.delivers ⟨tail, by rw [List.flatten_singleton, le32Enc_le32Dec hi, h]⟩
  refine ⟨_, readFrame_wrongIndex hdelivers fun heq => hother ?_, rfl⟩
  rw [← heq, BitVec.ofNat_toNat, BitVec.setWidth_eq, le32Enc_le32Dec hi]

/-! ### Which field a byte stands in -/

section Change

variable (k : Nat) (p : Bytes) (x : Byte) {j : Nat}

theorem dataFrame_set_index (h : j < 4) :
    (dataFrame k p).set j x =
      (le32Enc (BitVec.ofNat 32 k)).set j x ++ (sha256 p ++ le32Enc (BitVec.ofNat 32 p.length) ++ p) := by
  rw [dataFrame, List.append_assoc, List.append_assoc, List.set_append_left _ _ (by simpa using h), List.append_assoc]

theorem dataFrame_set_digest (h : 4 ≤ j) (h' : j < 36) :
    (dataFrame k p).set j x =
      le32Enc (BitVec.ofNat 32 k) ++ (sha256 p).set (j - 4) x ++ le32Enc (BitVec.ofNat 32 p.length) ++ p := by
  have hindex : (le32Enc (BitVec.ofNat 32 k)).length = 4 := le32Enc_length _
  rw [dataFrame, List.set_append_left _ _ (by simp; omega), List.set_append_left _ _ (by simp; omega),
    List.set_append_right _ _ (by omega), hindex]

theorem dataFrame_set_length (h : 36 ≤ j) (h' : j < 40) :
    (dataFrame k p).set j x =
      le32Enc (BitVec.ofNat 32 k) ++ sha256 p ++ (le32Enc (BitVec.ofNat 32 p.length)).set (j - 36) x ++ p := by
  have hbefore : (le32Enc (BitVec.ofNat 32 k) ++ sha256 p).length = 36 := by simp
  rw [dataFrame, List.set_append_left _ _ (by simp; omega), List.set_append_right _ _ (by omega), hbefore]

theorem dataFrame_set_payload (h : 40 ≤ j) :
    (dataFrame k p).set j x =
      le32Enc (BitVec.ofNat 32 k) ++ sha256 p ++ le32Enc (BitVec.ofNat 32 p.length) ++ p.set (j - 40) x := by
  have hbefore : (le32Enc (BitVec.ofNat 32 k) ++ sha256 p ++ le32Enc (BitVec.ofNat 32 p.length)).length = 40 := by simp
  rw [dataFrame, List.set_append_right _ _ (by omega), hbefore]

end Change

/-- A list with one entry changed is another list. -/
theorem set_ne_self {l : Bytes} {j : Nat} {x : Byte} (h : ∃ h : j < l.length, l[j] ≠ x) : l.set j x ≠ l := by
  obtain ⟨hj, hne⟩ := h
  intro heq
  have hget : (l.set j x)[j]? = l[j]? := by rw [heq]
  rw [List.getElem?_set_self hj, List.getElem?_eq_getElem hj] at hget
  exact hne (Option.some.inj hget).symm

/-! ### The statement -/

/-- Settles O51, field by field: in all but the index the frame is refused (`readFrame_refused`). -/
theorem changedByteOfADataFrameIsDetected : Obligations.ChangedByteOfADataFrameIsDetected := by
  unfold Obligations.ChangedByteOfADataFrameIsDetected
  rintro n p f rest j L x s hn hp hs hsource hidx h1 hmax rfl hchange hL hdrop hpayload hterminal hdata
  have hother := set_ne_self hchange
  have hlen : (BitVec.ofNat 32 p.length).toNat = p.length := toNat_ofNat_payload_length hp hmax
  suffices hread : ∃ e v, readFrame s.params s.decSide = .raised e v ∧ v.dec = s.dec ∧
      e = if j < 4 then ⟨.malformedFrame, 1⟩
        else if j < 36 ∨ 40 ≤ j then ⟨.integrityViolation, 0⟩
        else refusalError s.params L (p ++ rest).length by
    obtain ⟨e, v, hread, hv, he⟩ := hread
    exact ⟨_, e, exec_decRead_raised hn hs hread hv, rfl, rfl, he⟩
  by_cases hj4 : j < 4
  case pos =>
    rw [dataFrame_set_index _ _ _ hj4] at hother hdrop
    obtain ⟨v, hread, hv⟩ := readFrame_otherIndex (p := s.params) (u := s.decSide)
      (i := (le32Enc (BitVec.ofNat 32 s.dec.expectedIndex)).set j x) hsource (by simp)
      (by rw [List.append_assoc] at hdrop; exact hdrop)
      (fun heq => hother (by rw [heq]; simp [dataFrame, State.decSide]))
    exact ⟨_, v, hread, hv, (if_pos hj4).symm⟩
  by_cases hj36 : j < 36
  case pos =>
    rw [dataFrame_set_digest _ _ _ (by omega) hj36] at hother hdrop
    have hdigest : sha256 p ≠ (sha256 p).set (j - 4) x := fun heq => hother (by rw [← heq, dataFrame])
    obtain ⟨v, hread, hv⟩ := readFrame_refused (p := s.params) (u := s.decSide) (d := (sha256 p).set (j - 4) x) hsource hidx
      (by simp)
      (by rw [List.append_assoc] at hdrop; exact hdrop) (by omega) (by
        rw [hlen, List.take_left]
        exact fun _ _ => hdigest)
    refine ⟨_, v, hread, hv, ?_⟩
    rw [if_neg hj4, if_pos (.inl hj36), hlen]
    exact refusalError_within h1 hmax (by simp)
  by_cases hj40 : j < 40
  case pos =>
    rw [dataFrame_set_length _ _ _ (by omega) hj40] at hdrop hL
    have hfield : ((le32Enc (BitVec.ofNat 32 p.length)).set (j - 36) x).length = 4 := by simp
    obtain rfl : L = (le32Dec ((le32Enc (BitVec.ofNat 32 p.length)).set (j - 36) x)).toNat := by
      rw [hL, le32Dec_toNat _ hfield, List.append_assoc, List.drop_left' (by simp), List.take_left' hfield]
    obtain ⟨v, hread, hv⟩ := readFrame_refused (p := s.params) (u := s.decSide) hsource hidx (sha256_length p)
      (by rw [List.append_assoc, ← le32Enc_le32Dec hfield] at hdrop; exact hdrop) (hterminal (by omega) hj40)
      (hdata (by omega) hj40)
    exact ⟨_, v, hread, hv, by rw [if_neg hj4, if_neg (by omega)]⟩
  case neg =>
    rw [dataFrame_set_payload _ _ _ (by omega)] at hdrop
    have hsame : (p.set (j - 40) x).length = p.length := List.length_set
    obtain ⟨v, hread, hv⟩ := readFrame_refused (p := s.params) (u := s.decSide) hsource hidx (sha256_length p)
      (by rw [List.append_assoc] at hdrop; exact hdrop) (by omega) (by
        rw [hlen, List.take_left' hsame]
        exact fun _ _ => hpayload (by omega))
    refine ⟨_, v, hread, hv, ?_⟩
    rw [if_neg hj4, if_pos (.inr (by omega)), hlen]
    exact refusalError_within h1 hmax (by simp)

end Sys2Proof.Machine

/-! Runs of the decoder (spec/43_block_decoder.md R181; spec/30_encoding.md R95): what is still ahead of it, read by read, and
why `DECODE` comes to an end. -/

namespace Sys2Proof.Machine

/-! ### One read of a program -/

/-- From `s` to `t` the responses `rs` have been given, and nothing else has changed but the decoder and the source. -/
structure DecoderRan (rs : List Response) (s t : State) : Prop where
  params : t.params = s.params
  enc : t.enc = s.enc
  sink : t.sink = s.sink
  responses : t.responses = s.responses ++ rs

theorem DecoderRan.trans {rs rs' : List Response} {s t r : State} (h : DecoderRan rs s t) (h' : DecoderRan rs' t r) :
    DecoderRan (rs ++ rs') s r where
  params := h'.params.trans h.params
  enc := h'.enc.trans h.enc
  sink := h'.sink.trans h.sink
  responses := by rw [h'.responses, h.responses, List.append_assoc]

theorem wellFormed_decRead {n : U32} (hn : n ≠ 0) : WellFormed (.decRead n) = true := decide_eq_true hn

/-- A `DEC.READ` as the first event of a program. -/
theorem runEvents_decRead {n : U32} {s : State} (hn : n ≠ 0) (hw : s.dec.waiting = false) (es : List HostEvent) :
    ∃ t, runEvents (issue (.decRead n) :: es) s = runEvents es t ∧ t.events = es ∧
      t.decSide = decAfter (decReadFlow s.params n s.decSide) ∧
      DecoderRan (decReadFlow s.params n s.decSide).replies s t := by
  have hexec := exec_decRead (s := { s with events := es }) hn hw
  rw [finishDec_eq] at hexec
  exact ⟨_, runEvents_issue (wellFormed_decRead hn) hexec, rfl, rfl, rfl, rfl, rfl, rfl⟩

/-- A `DEC.READ` as a whole program. -/
theorem runEvents_decRead_alone {n : U32} {s : State} (hn : n ≠ 0) (hw : s.dec.waiting = false) :
    ∃ t, runEvents [issue (.decRead n)] s = .next t ∧ t.decSide = decAfter (decReadFlow s.params n s.decSide) ∧
      DecoderRan (decReadFlow s.params n s.decSide).replies s t := by
  obtain ⟨t, hrun, hevents, hside, hran⟩ := runEvents_decRead hn hw []
  refine ⟨t, ?_, hside, hran⟩
  rw [hrun, runEvents_nil, ← hevents]

/-- The start of a program that reads a memory source. -/
theorem runEvents_decInit {s : State} (stream : Bytes) (hw : s.dec.waiting = false) (es : List HostEvent) :
    ∃ t, runEvents (.attachSource (.memory stream) :: issue .decInit :: es) s = runEvents es t ∧ t.events = es ∧
      t.decSide = { dec := constructDecoder s.params s.dec, source := .memory stream } ∧
      DecoderRan [constructionResponse s.params] s t := by
  have hattach := runEvents_cons (s := s) (es := issue .decInit :: es)
    (step_attachSource (r := .memory stream) (rest := issue .decInit :: es) rfl) rfl
  rw [hattach]
  refine ⟨_, runEvents_issue rfl (exec_decInit ?_), rfl, rfl, rfl, rfl, rfl, rfl⟩
  exact hw

/-! ### Reading what is buffered -/

theorem memRead_take (free : Nat → Byte) (m : Memory) (a k n : Nat) :
    (memRead free m a n).take k = memRead free m a (min k n) := by
  apply List.ext_getElem?
  intro i
  simp only [List.getElem?_take, memRead_getElem?, Nat.lt_min, ite_and]

theorem memRead_drop (free : Nat → Byte) (m : Memory) (a k n : Nat) :
    (memRead free m a n).drop k = memRead free m (a + min k n) (n - min k n) := by
  apply List.ext_getElem?
  intro i
  rw [List.getElem?_drop, memRead_getElem?, memRead_getElem?]
  by_cases hi : k + i < n
  · rw [if_pos hi, if_pos (by omega), Nat.min_eq_left (by omega), Nat.add_assoc]
  · rw [if_neg hi, if_neg (by omega)]

/-- The decoder holds the bytes `r`, undelivered. -/
structure Decoder.Residual (r : Bytes) (d : Decoder) : Prop where
  range : d.resPos ≤ d.resLen
  bytes : memRead Config.unwrittenDecRes d.res d.resPos (d.resLen - d.resPos) = r

theorem Decoder.Residual.empty_iff {r : Bytes} {d : Decoder} (h : d.Residual r) : d.ResidualEmpty ↔ r = [] := by
  obtain ⟨hrange, rfl⟩ := h
  rw [Decoder.ResidualEmpty, ← List.length_eq_zero_iff, memRead_length]
  omega

theorem residual_acceptBlock (b : Bytes) (d : Decoder) : (acceptBlock b d).Residual b where
  range := Nat.zero_le _
  bytes := by
    rw [acceptBlock_res, acceptBlock_resPos, acceptBlock_resLen, memRead_memWrite_part _ _ _ _ _ (by omega),
      List.drop_zero, Nat.sub_zero, List.take_length]

/-- A delivery takes the first bytes of the residual. -/
theorem Decoder.Residual.deliver {r : Bytes} {d : Decoder} (h : d.Residual r) (n : U32) :
    deliverBytes n d = r.take n.toNat ∧ (deliverFrom n d).Residual (r.drop n.toNat) := by
  obtain ⟨hrange, rfl⟩ := h
  refine ⟨(memRead_take ..).symm, ?_, ?_⟩
  · simp only [deliverFrom, deliverLength]
    omega
  · rw [memRead_drop, Nat.sub_sub]
    rfl

/-! ### What is ahead of the decoder -/

/-- Nothing is latched, no read waits, and the decoder has undelivered the bytes `r` of the block it holds; the source, at
`E` bytes from its position, ends the stream: the blocks `qs`, then the terminal frame, with index `N`. -/
structure Ahead (M N E : Nat) (r : Bytes) (qs : List Bytes) (u : DecSide) : Prop where
  err : u.dec.err = none
  term : u.dec.term = false
  waiting : u.dec.waiting = false
  residual : u.dec.Residual r
  index : u.dec.expectedIndex + qs.length = N
  blocks : ∀ q ∈ qs, 1 ≤ q.length ∧ q.length ≤ M
  reliable : u.source.Reliable
  holds : u.source.Holds (dataFrames u.dec.expectedIndex qs ++ terminalFrame N)
  pos : u.source.pos + (dataFrames u.dec.expectedIndex qs ++ terminalFrame N).length = E

/-- The decoder has accepted the terminal frame with index `N`, which ended at offset `E`. -/
structure Finished (N E : Nat) (u : DecSide) : Prop where
  err : u.dec.err = none
  term : u.dec.term = true
  waiting : u.dec.waiting = false
  residual : u.dec.ResidualEmpty
  index : u.dec.expectedIndex = N
  pos : u.source.pos = E

section Read

variable {p : Params} {N E : Nat} {r q : Bytes} {qs : List Bytes} {u : DecSide}

/-- A delivery takes the first of the undelivered bytes. -/
theorem Ahead.deliver {M : Nat} (h : Ahead M N E r qs u) (n : U32) :
    ∃ c v, deliver n u = .done (.chunk c (r.take n.toNat)) v ∧ Ahead M N E (r.drop n.toNat) qs v := by
  obtain ⟨hbytes, hres⟩ := h.residual.deliver n
  rw [← hbytes]
  exact ⟨_, { u with dec := deliverFrom n u.dec }, rfl, h.err, h.term, h.waiting, hres, h.index, h.blocks, h.reliable,
    h.holds, h.pos⟩

/-- The next block is accepted when the residual is empty. -/
theorem Ahead.accept (hp : p.Legal) (hN : N < 2 ^ 32) (h : Ahead p.maxBlockLen N E [] (q :: qs) u) :
    ∃ v, readFrame p u = .done () v ∧ Ahead p.maxBlockLen N E q qs v := by
  have hindex := h.index
  have hpos := h.pos
  obtain ⟨rest, hrest⟩ := h.holds
  obtain ⟨⟨h1, hmax⟩, hblocks⟩ := List.forall_mem_cons.mp h.blocks
  rw [dataFrames, List.append_assoc] at hrest hpos
  rw [List.length_append, dataFrame_length] at hpos
  rw [List.append_assoc] at hrest
  rw [List.length_cons] at hindex
  have hread := readFrame_of_holds_data hp h.reliable (by omega) (sha256_length q) h1 hmax ⟨_, hrest⟩
  rw [if_neg (not_not.mpr rfl)] at hread
  have hdrop : u.source.data.drop (u.source.pos + (40 + q.length)) =
      dataFrames (u.dec.expectedIndex + 1) qs ++ terminalFrame N ++ rest := by
    rw [← List.drop_drop, ← hrest, List.drop_left' (dataFrame_length _ _), List.append_assoc]
  refine ⟨_, hread, h.err, h.term, h.waiting, residual_acceptBlock q u.dec, ?_, hblocks, h.reliable.after _ _,
    ⟨rest, hdrop.symm⟩, ?_⟩
  · rw [acceptBlock_expectedIndex]
    omega
  · rw [source_after_pos, acceptBlock_expectedIndex]
    omega

/-- The terminal frame is accepted when no block is left. -/
theorem Ahead.finish (hN : N < 2 ^ 32) (h : Ahead p.maxBlockLen N E [] [] u) :
    ∃ v, readFrame p u = .answered .eos v ∧ Finished N E v := by
  obtain rfl : u.dec.expectedIndex = N := h.index
  have hpos := h.pos
  rw [dataFrames, List.nil_append, terminalFrame_length] at hpos
  rw [readFrame_of_holds_header h.reliable hN (List.length_replicate ..) h.holds,
    show (0 : U32).toNat = 0 from rfl, readBody_zero, acceptTerminal_zeros _ rfl]
  exact ⟨_, rfl, h.err, rfl, h.waiting, h.residual.empty_iff.mpr rfl, rfl, hpos⟩

/-- A read takes the first of the bytes ahead, at least one. -/
theorem Ahead.read_bytes (hp : p.Legal) (hN : N < 2 ^ 32) (h : Ahead p.maxBlockLen N E r qs u)
    (hne : r ++ qs.flatten ≠ []) {n : U32} (hn : n ≠ 0) :
    ∃ c out v r' qs', decReadFlow p n u = .done (.chunk c out) v ∧ out ≠ [] ∧
      out ++ (r' ++ qs'.flatten) = r ++ qs.flatten ∧ Ahead p.maxBlockLen N E r' qs' v := by
  have hpos : 0 < n.toNat := Nat.pos_of_ne_zero fun h0 => hn (BitVec.eq_of_toNat_eq h0)
  have htake : ∀ x : Bytes, x ≠ [] → x.take n.toNat ≠ [] := fun x hx h0 =>
    (List.take_eq_nil_iff.mp h0).elim (by omega) hx
  rw [decReadFlow, decAdmit_ready h.err, bind_done]
  by_cases hr : r = []
  · subst hr
    match qs, hne with
    | q :: qs, _ =>
      obtain ⟨v, hread, hv⟩ := h.accept hp hN
      obtain ⟨c, w, hdeliver, hw⟩ := hv.deliver n
      have hq : q ≠ [] := List.ne_nil_of_length_pos (h.blocks q List.mem_cons_self).1
      rw [refill_frame _ (h.residual.empty_iff.mpr rfl) h.term, hread, bind_done]
      exact ⟨c, _, w, _, qs, hdeliver, htake q hq, by rw [← List.append_assoc, List.take_append_drop]; rfl, hw⟩
  · obtain ⟨c, v, hdeliver, hv⟩ := h.deliver n
    rw [refill_residual _ (fun hempty => hr (h.residual.empty_iff.mp hempty)), bind_done]
    exact ⟨c, _, v, _, qs, hdeliver, htake r hr, by rw [← List.append_assoc, List.take_append_drop], hv⟩

/-- The read with no bytes ahead accepts the terminal frame. -/
theorem Ahead.read_end (hN : N < 2 ^ 32) (h : Ahead p.maxBlockLen N E r qs u) (hnil : r ++ qs.flatten = []) (n : U32) :
    ∃ v, decReadFlow p n u = .answered .eos v ∧ Finished N E v := by
  obtain ⟨rfl, hflat⟩ := List.append_eq_nil_iff.mp hnil
  obtain rfl : qs = [] := List.eq_nil_iff_forall_not_mem.mpr fun q hq =>
    absurd (h.blocks q hq).1 (by rw [List.flatten_eq_nil_iff.mp hflat q hq]; decide)
  obtain ⟨v, hread, hv⟩ := h.finish hN
  rw [decReadFlow, decAdmit_ready h.err, bind_done, refill_frame _ (h.residual.empty_iff.mpr rfl) h.term, hread,
    bind_answered]
  exact ⟨v, rfl, hv⟩

/-- Every read after the terminal frame. -/
theorem Finished.read (h : Finished N E u) (p : Params) (n : U32) : decReadFlow p n u = .answered .eos u := by
  rw [decReadFlow, decAdmit_ready h.err, bind_done, refill_terminated p h.residual h.term, bind_answered]

end Read

/-! ### Runs over a stream -/

/-- The reads of a program. -/
def reads (ns : List U32) : List HostEvent := ns.map fun n => issue (.decRead n)

theorem runEvents_reads_finished {N E : Nat} {ns : List U32} : ∀ {s : State}, Finished N E s.decSide → (∀ n ∈ ns, n ≠ 0) →
    ∃ t, runEvents (reads ns) s = .next t ∧ Finished N E t.decSide ∧
      DecoderRan (List.replicate ns.length .eos) s t := by
  induction ns with
  | nil =>
    intro s h _
    exact ⟨_, runEvents_nil s, h, rfl, rfl, rfl, (List.append_nil _).symm⟩
  | cons n ns ih =>
    intro s h hns
    obtain ⟨hn, hns⟩ := List.forall_mem_cons.mp hns
    obtain ⟨r, hrun, -, hside, hran⟩ := runEvents_decRead hn h.waiting (reads ns)
    rw [h.read] at hside hran
    obtain ⟨t, hrest, ht, hran'⟩ := ih (s := r) (by rw [hside]; exact h) hns
    exact ⟨t, hrun.trans hrest, ht, hran.trans hran'⟩

theorem delivered_append (rs rs' : List Response) : delivered (rs ++ rs') = delivered rs ++ delivered rs' :=
  List.flatMap_append

theorem delivered_replicate_eos (k : Nat) : delivered (List.replicate k .eos) = [] := by
  induction k with
  | zero => rfl
  | succ k ih => rw [List.replicate_succ, ← List.singleton_append, delivered_append, ih]; rfl

/-- Enough reads return all the bytes ahead and end in `EOS`, whatever their counts. -/
theorem runEvents_reads {N E : Nat} {ns : List U32} : ∀ {s : State} {r : Bytes} {qs : List Bytes}, s.params.Legal →
    N < 2 ^ 32 → Ahead s.params.maxBlockLen N E r qs s.decSide → (∀ n ∈ ns, n ≠ 0) → (r ++ qs.flatten).length < ns.length →
    ∃ t rs, runEvents (reads ns) s = .next t ∧ DecoderRan rs s t ∧ rs.length = ns.length ∧
      delivered rs = r ++ qs.flatten ∧ rs.getLast? = some .eos ∧ Finished N E t.decSide := by
  induction ns with
  | nil =>
    intro s r qs _ _ _ _ hlt
    exact absurd hlt (Nat.not_lt_zero _)
  | cons n ns ih =>
    intro s r qs hp hN h hns hlt
    obtain ⟨hn, hns'⟩ := List.forall_mem_cons.mp hns
    obtain ⟨q, hrun, -, hside, hran⟩ := runEvents_decRead hn h.waiting (reads ns)
    by_cases hne : r ++ qs.flatten = []
    · obtain ⟨v, hread, hv⟩ := h.read_end hN hne n
      rw [hread] at hside hran
      obtain ⟨t, hrest, ht, hran'⟩ := runEvents_reads_finished (ns := ns) (s := q) (by rw [hside]; exact hv) hns'
      refine ⟨t, List.replicate (n :: ns).length .eos, hrun.trans hrest, hran.trans hran', List.length_replicate ..,
        ?_, ?_, ht⟩
      · rw [hne, delivered_replicate_eos]
      · rw [List.getLast?_replicate, if_neg (by simp)]
    · obtain ⟨c, out, v, r', qs', hread, hout, hbytes, hv⟩ := h.read_bytes hp hN hne hn
      rw [hread] at hside hran
      have hpos := List.length_pos_iff.mpr hout
      rw [← hbytes, List.length_append, List.length_cons] at hlt
      obtain ⟨t, rs, hrest, hran', hlen, hdelivered, hlast, ht⟩ := ih (s := q) (r := r') (qs := qs')
        (by rwa [hran.params]) hN (by rwa [hside, hran.params]) hns' (by omega)
      refine ⟨t, _, hrun.trans hrest, hran.trans hran', ?_, ?_, ?_, ht⟩
      · rw [replies_done, List.singleton_append, List.length_cons, List.length_cons, hlen]
      · rw [replies_done, delivered_append, hdelivered, ← hbytes]
        simp [delivered, deliveredBy]
      · rw [List.getLast?_append, hlast]
        rfl

/-- Reading to the end returns all the bytes ahead and `EOS`. -/
theorem readUntilEnd_ahead {N E k : Nat} : ∀ {n : Nat → U32} {s : State} {r : Bytes} {qs : List Bytes}, s.params.Legal →
    N < 2 ^ 32 → Ahead s.params.maxBlockLen N E r qs s.decSide → (∀ i, n i ≠ 0) → (r ++ qs.flatten).length < k →
    ∃ t rs, readUntilEnd k n s = .next t ∧ t.responses = s.responses ++ (rs ++ [.eos]) ∧
      delivered rs = r ++ qs.flatten := by
  induction k with
  | zero =>
    intro n s r qs _ _ _ _ hlt
    exact absurd hlt (Nat.not_lt_zero _)
  | succ k ih =>
    intro n s r qs hp hN h hn hlt
    obtain ⟨q, hrun, hside, hran⟩ := runEvents_decRead_alone (hn 0) h.waiting
    by_cases hne : r ++ qs.flatten = []
    · obtain ⟨v, hread, -⟩ := h.read_end hN hne (n 0)
      rw [hread] at hran
      exact ⟨q, [], readUntilEnd_end hrun hran.responses rfl, hran.responses, hne.symm⟩
    · obtain ⟨c, out, v, r', qs', hread, hout, hbytes, hv⟩ := h.read_bytes hp hN hne (hn 0)
      rw [hread] at hside hran
      have hpos := List.length_pos_iff.mpr hout
      rw [← hbytes, List.length_append] at hlt
      obtain ⟨t, rs, hrest, hresponses, hdelivered⟩ := ih (n := fun i => n (i + 1)) (s := q) (r := r') (qs := qs')
        (by rwa [hran.params]) hN (by rwa [hside, hran.params]) (fun i => hn (i + 1)) (by omega)
      refine ⟨t, .ok (.chunk c out) :: rs, (readUntilEnd_ok hrun hran.responses).trans hrest, ?_, ?_⟩
      · rw [hresponses, hran.responses, List.append_assoc]
        rfl
      · rw [← hbytes, ← hdelivered]
        rfl

/-- Construction over a memory source that begins with a stream has the stream ahead. -/
theorem ahead_construct {p : Params} (d : Decoder) {ps : List Bytes} (trailing : Bytes) (hsha : p.sha256Available = true)
    (hps : ∀ q ∈ ps, 1 ≤ q.length ∧ q.length ≤ p.maxBlockLen) :
    Ahead p.maxBlockLen ps.length (streamOf ps).length [] ps
      { dec := constructDecoder p d, source := .memory (streamOf ps ++ trailing) } where
  err := by simp [constructionError, hsha]
  term := rfl
  waiting := rfl
  residual := ⟨Nat.le_refl _, rfl⟩
  index := Nat.zero_add _
  blocks := hps
  reliable := fun _ ha => absurd ha List.not_mem_nil
  holds := List.prefix_append _ _
  pos := Nat.zero_add _

end Sys2Proof.Machine

/-! `DECODE` over any byte sequence comes to an end (spec/30_encoding.md R95, log 22), and the round trip of `ENCODE` and
`DECODE` (spec/43_block_decoder.md R181). -/

namespace Sys2Proof.Machine

/-! ### What a read takes from the source -/

/-- From `r` to `r'` a reliable source has delivered `n` bytes. -/
structure Source.Advanced (r r' : Source) (n : Nat) : Prop where
  reliable : r'.Reliable
  data : r'.data = r.data
  pos : r'.pos = r.pos + n
  inside : r'.pos ≤ r'.data.length

theorem Source.Advanced.trans {r r' r'' : Source} {n m : Nat} (h : r.Advanced r' n) (h' : r'.Advanced r'' m) :
    r.Advanced r'' (n + m) where
  reliable := h'.reliable
  data := h'.data.trans h.data
  pos := by rw [h'.pos, h.pos, Nat.add_assoc]
  inside := h'.inside

theorem srcField_advanced (n : Nat) {u : DecSide} (h : u.source.Reliable) :
    (srcField n u).Post (fun b v => b.length = n ∧ v.dec = u.dec ∧ u.source.Advanced v.source n) (fun _ _ => True)
      (fun _ _ => False) (fun _ => False) := by
  unfold srcField srcReadExactly
  rw [h.answer]
  by_cases hin : u.source.pos + n ≤ u.source.data.length
  · simp only [hin, if_true, Flow.Post, List.length_take, List.length_drop]
    exact ⟨by omega, trivial, fun a ha => h a (List.mem_of_mem_tail ha), rfl, rfl, hin⟩
  · simp only [hin, if_false, Flow.Post]

/-- A frame accepted is 40 bytes and its payload, all of them in the source; no call is left unanswered. -/
theorem readFrame_advanced (p : Params) {u : DecSide} (h : u.source.Reliable) :
    (readFrame p u).Post
      (fun _ v => ∃ b : Bytes, 1 ≤ b.length ∧ v.dec = acceptBlock b u.dec ∧ u.source.Advanced v.source (40 + b.length))
      (fun _ _ => True) (fun r _ => r = .eos) (fun _ => False) := by
  have hbody : ∀ d len v, v.dec = u.dec → u.source.Advanced v.source 40 → (readBody p d len v).Post
      (fun _ v => ∃ b : Bytes, 1 ≤ b.length ∧ v.dec = acceptBlock b u.dec ∧ u.source.Advanced v.source (40 + b.length))
      (fun _ _ => True) (fun r _ => r = .eos) (fun _ => False) := by
    intro d len v hdec hv
    refine Flow.Post.bind (D := fun _ w => w = v) (by unfold checkLength; split <;> trivial) ?_
    rintro - w rfl
    by_cases hlen : len = 0
    · rw [if_pos hlen]; unfold acceptTerminal; split <;> trivial
    · rw [if_neg hlen]
      refine Flow.Post.bind ((srcField_advanced len hv.reliable).imp (fun _ _ => id) (fun _ _ => id)
        (fun _ _ => False.elim) (fun _ => id)) ?_
      rintro b x ⟨rfl, hx, hadvanced⟩
      split
      · trivial
      · exact ⟨b, Nat.pos_of_ne_zero hlen, by rw [hx, hdec], hv.trans hadvanced⟩
  have hfield : ∀ n {v}, v.source.Reliable → (srcField n v).Post (fun _ w => w.dec = v.dec ∧ v.source.Advanced w.source n)
      (fun _ _ => True) (fun r _ => r = .eos) (fun _ => False) := fun n v hv =>
    (srcField_advanced n hv).imp (fun _ _ => And.right) (fun _ _ => id) (fun _ _ => False.elim) (fun _ => id)
  rw [readFrame_eq]
  refine Flow.Post.bind (hfield 4 h) fun b v ⟨hvdec, hv⟩ => ?_
  refine Flow.Post.bind (D := fun _ w => w = v) (by unfold checkIndex; split <;> trivial) ?_
  rintro - w rfl
  refine Flow.Post.bind (hfield 32 hv.reliable) fun d x ⟨hxdec, hx⟩ => ?_
  refine Flow.Post.bind (hfield 4 hx.reliable) fun l y ⟨hydec, hy⟩ => ?_
  exact hbody _ _ y (hydec.trans (hxdec.trans hvdec)) ((hv.trans hx).trans hy)

/-! ### Every read that answers `OK` brings the end closer -/

/-- The bytes the decoder has at most to deliver: those of its residual and those left in the source. -/
def DecSide.bytesLeft (u : DecSide) : Nat := (u.dec.resLen - u.dec.resPos) + (u.source.data.length - u.source.pos)

/-- No read waits, and the source always serves. -/
structure Reading (u : DecSide) : Prop where
  waiting : u.dec.waiting = false
  range : u.dec.resPos ≤ u.dec.resLen
  reliable : u.source.Reliable

theorem deliver_bytesLeft {n : U32} (hn : n ≠ 0) {u : DecSide} (h : Reading u) (hpos : u.dec.resPos < u.dec.resLen) :
    ∃ x v, deliver n u = .done x v ∧ Reading v ∧ v.bytesLeft < u.bytesLeft := by
  have hcount := deliverLength_pos hn hpos
  have hle : deliverLength n u.dec ≤ u.dec.resLen - u.dec.resPos := Nat.min_le_right _ _
  refine ⟨_, _, rfl, ⟨h.waiting, ?_, h.reliable⟩, ?_⟩
  · show u.dec.resPos + deliverLength n u.dec ≤ u.dec.resLen
    omega
  · simp only [DecSide.bytesLeft]
    omega

/-- A read that answers `OK` takes a byte at least of those left; every read is answered. -/
theorem decReadFlow_bytesLeft (p : Params) {n : U32} (hn : n ≠ 0) {u : DecSide} (h : Reading u) :
    (decReadFlow p n u).Post (fun _ v => Reading v ∧ v.bytesLeft < u.bytesLeft) (fun _ _ => True)
      (fun r _ => r.isOk = false) (fun _ => False) := by
  rw [decReadFlow]
  cases herr : u.dec.err with
  | some e => rw [decAdmit_failed herr]; exact rfl
  | none =>
    rw [decAdmit_ready herr, bind_done]
    by_cases hres : u.dec.ResidualEmpty
    · cases hterm : u.dec.term with
      | true => rw [refill_terminated p hres hterm]; exact rfl
      | false =>
        rw [refill_frame p hres hterm]
        refine Flow.Post.bind ((readFrame_advanced p h.reliable).imp (fun _ _ => id) (fun _ _ => id) ?_ (fun _ => id)) ?_
        · rintro r - rfl
          rfl
        · rintro - v ⟨b, h1, hv, hadvanced⟩
          have hreading : Reading v := ⟨by rw [hv]; exact h.waiting, by rw [hv]; exact Nat.zero_le _, hadvanced.reliable⟩
          have hpos : v.dec.resPos < v.dec.resLen := by rw [hv]; exact h1
          obtain ⟨x, w, hdeliver, hw, hlt⟩ := deliver_bytesLeft hn hreading hpos
          rw [hdeliver]
          refine ⟨hw, Nat.lt_trans hlt ?_⟩
          have hinside := hadvanced.inside
          rw [hadvanced.pos, hadvanced.data] at hinside
          simp only [DecSide.bytesLeft, hv, acceptBlock_resLen, acceptBlock_resPos, hadvanced.data, hadvanced.pos]
          omega
    · obtain ⟨x, w, hdeliver, hw⟩ := deliver_bytesLeft hn h (Nat.lt_of_le_of_ne h.range hres)
      rw [refill_residual p hres, bind_done, hdeliver]
      exact hw

/-- Reading to the end ends, when there are more reads than bytes left. -/
theorem readUntilEnd_ends {k : Nat} : ∀ {n : Nat → U32} {s : State}, (∀ i, n i ≠ 0) → Reading s.decSide →
    s.decSide.bytesLeft < k →
    ∃ t rs r, readUntilEnd k n s = .next t ∧ t.responses = s.responses ++ (rs ++ [r]) ∧ r.isOk = false := by
  induction k with
  | zero =>
    intro n s _ _ hlt
    exact absurd hlt (Nat.not_lt_zero _)
  | succ k ih =>
    intro n s hn h hlt
    obtain ⟨q, hrun, hside, hran⟩ := runEvents_decRead_alone (hn 0) h.waiting
    have hpost := decReadFlow_bytesLeft s.params (hn 0) h
    cases hflow : decReadFlow s.params (n 0) s.decSide with
    | done x v =>
      rw [hflow] at hside hran hpost
      rw [decAfter_done] at hside
      obtain ⟨hreading, hless⟩ := hpost
      obtain ⟨t, rs, r, hrest, hresponses, hr⟩ := ih (n := fun i => n (i + 1)) (s := q) (fun i => hn (i + 1))
        (by rwa [hside]) (by rw [hside]; omega)
      refine ⟨t, .ok x :: rs, r, (readUntilEnd_ok hrun hran.responses).trans hrest, ?_, hr⟩
      rw [hresponses, hran.responses, List.append_assoc]
      rfl
    | raised e v =>
      rw [hflow] at hran
      exact ⟨q, [], .error e, readUntilEnd_end hrun hran.responses rfl, hran.responses, rfl⟩
    | answered r v =>
      rw [hflow] at hran hpost
      exact ⟨q, [], r, readUntilEnd_end hrun hran.responses hpost, hran.responses, hpost⟩
    | stuck v =>
      rw [hflow] at hpost
      exact hpost.elim

/-! ### `DECODE` -/

/-- The start of `DECODE`, then its reads. -/
theorem decodeRun_start {s : State} (n : Nat → U32) (stream : Bytes) (hw : s.dec.waiting = false) :
    ∃ t, decodeRun n stream s = readUntilEnd (stream.length + 1) n t ∧
      t.decSide = { dec := constructDecoder s.params s.dec, source := .memory stream } ∧
      DecoderRan [constructionResponse s.params] s t := by
  obtain ⟨t, hrun, hevents, hside, hran⟩ := runEvents_decInit stream hw []
  refine ⟨t, ?_, hside, hran⟩
  rw [decodeRun, hrun, runEvents_nil, andThen_next, ← hevents]

/-- `DECODE` of a stream is its blocks' bytes and `EOS`. -/
theorem decodeValue_streamOf {s : State} (ps : List Bytes) (trailing : Bytes) {n : Nat → U32} (hw : s.dec.waiting = false)
    (hp : s.params.Legal) (hsha : s.params.sha256Available = true)
    (hps : ∀ q ∈ ps, 1 ≤ q.length ∧ q.length ≤ s.params.maxBlockLen) (hN : ps.length < 2 ^ 32) (hn : ∀ i, n i ≠ 0) :
    decodeValue n (streamOf ps ++ trailing) s = some (ps.flatten, .eos) := by
  obtain ⟨q, hstart, hside, hq⟩ := decodeRun_start n (streamOf ps ++ trailing) hw
  have hahead := ahead_construct s.dec trailing hsha hps
  rw [← hside, ← hq.params] at hahead
  obtain ⟨t, rs, hrun, hresponses, hdelivered⟩ := readUntilEnd_ahead (k := (streamOf ps ++ trailing).length + 1)
    (by rwa [hq.params]) hN hahead hn (by rw [List.nil_append, List.length_append, streamOf_length]; omega)
  rw [hq.responses, List.append_assoc, ← List.append_assoc _ rs] at hresponses
  rw [decodeValue_of_run (hstart.trans hrun) hresponses, delivered_append, delivered_append, hdelivered,
    constructionResponse, hsha]
  simp [delivered, deliveredBy]

/-- `DECODE` of any bytes comes to a response other than `OK`. -/
theorem exists_decodeValue {s : State} (stream : Bytes) {n : Nat → U32} (hw : s.dec.waiting = false) (hn : ∀ i, n i ≠ 0) :
    ∃ out r, decodeValue n stream s = some (out, r) ∧ r.isOk = false := by
  obtain ⟨q, hstart, hside, hq⟩ := decodeRun_start n stream hw
  have hreading : Reading q.decSide := by
    rw [hside]
    exact ⟨rfl, Nat.le_refl _, fun _ ha => absurd ha List.not_mem_nil⟩
  obtain ⟨t, rs, r, hrun, hresponses, hr⟩ := readUntilEnd_ends (k := stream.length + 1) hn hreading (by
    rw [hside]
    simp [DecSide.bytesLeft, Source.memory])
  rw [hq.responses, List.append_assoc, ← List.append_assoc _ rs] at hresponses
  exact ⟨_, r, decodeValue_of_run (hstart.trans hrun) hresponses, hr⟩

/-! ### The statements -/

/-- Settles O52: what is ahead is carried along read by read (`Ahead`); any run ends, since every `OK` takes a byte
(`decReadFlow_bytesLeft`). -/
theorem decoderRunReturnsTheStream : Obligations.DecoderRunReturnsTheStream := by
  unfold Obligations.DecoderRunReturnsTheStream
  refine ⟨fun s ps trailing ns hw hp hsha hps hN hns hlt => ?_,
    fun s ps trailing n hw hp hsha hps hN hn => decodeValue_streamOf ps trailing hw hp hsha hps hN hn,
    fun s stream n hw hn => exists_decodeValue stream hw hn⟩
  obtain ⟨q, hstart, -, hside, hq⟩ := runEvents_decInit (streamOf ps ++ trailing) hw (reads ns)
  have hahead := ahead_construct s.dec trailing hsha hps
  rw [← hside, ← hq.params] at hahead
  obtain ⟨t, rs, hrun, ht, hlen, hdelivered, hlast, hfinished⟩ :=
    runEvents_reads (by rwa [hq.params]) hN hahead hns hlt
  have hran := hq.trans ht
  rw [constructionResponse, hsha] at hran
  exact ⟨t, rs, hstart.trans hrun, hran.responses, hlen, hdelivered, hlast,
    decoder_mode_eq_terminated.mpr ⟨hfinished.err, hfinished.term, hfinished.residual⟩, hfinished.index, hfinished.pos,
    hran.enc, hran.sink⟩

/-- The blocks are neither empty nor longer than the block size (R85). -/
theorem length_of_mem_blocksOf {B : Nat} {x q : Bytes} (hB : 1 ≤ B) (h : q ∈ blocksOf B x) : 1 ≤ q.length ∧ q.length ≤ B := by
  rcases List.mem_append.mp h with hfull | hrest
  · obtain ⟨k, hk, rfl⟩ := List.mem_map.mp hfull
    have hend : (k + 1) * B ≤ x.length :=
      le_trans (Nat.mul_le_mul_right B (List.mem_range.mp hk)) (Nat.div_mul_le_self ..)
    rw [Nat.succ_mul] at hend
    rw [List.length_take, List.length_drop]
    omega
  · split at hrest
    · exact absurd hrest List.not_mem_nil
    · next hne =>
      obtain rfl := List.mem_singleton.mp hrest
      have hlt := Nat.mod_lt x.length hB
      rw [← restBlock_length] at hlt
      omega

/-- The run of `ENCODE` from power-on. -/
theorem runEvents_encodeProgram {p : Params} (cfg : U32) {data : Bytes} (hp : p.Legal) (hsha : p.sha256Available = true)
    (hidx : (blocksOf (effectiveBlockSize p cfg) data).length + 1 ≤ 2 ^ 32) (hlen : data.length < 2 ^ 64) :
    ∃ t, runEvents (encodeProgram cfg data) (State.powerOn p) = .next t ∧
      t.sink.data = encodedStream (effectiveBlockSize p cfg) data ∧
      t.responses = [.ok .empty, .ok .empty, .ok .empty] := by
  have hbytes : [some data].reduceOption.flatten = data := by simp
  obtain ⟨t, hrun, hdata, -, -, -, -, ht⟩ := runEvents_encoder (s := { State.powerOn p with sink := .memory }) cfg [some data]
    rfl hsha (fun _ ha => absurd ha List.not_mem_nil) (fun _ => (effectiveBlockSize_range hp cfg).1)
    (fun d hd => by obtain rfl := Option.some.inj (List.mem_singleton.mp hd); exact hlen) (by rwa [hbytes])
  rw [hbytes] at hdata
  exact ⟨t, (runEvents_cons (step_attachSink rfl) rfl).trans hrun, hdata, ht.responses⟩

/-- Settles O53: `ENCODE` leaves the stream of the blocks of the data (O40), `DECODE` returns their bytes (O52). -/
theorem encodeThenDecodeIsTheIdentity : Obligations.EncodeThenDecodeIsTheIdentity := by
  unfold Obligations.EncodeThenDecodeIsTheIdentity
  intro p cfg data ns hp hsha hsize hidx hlen hns hlt
  obtain ⟨t, hencode, hstream, hresponses⟩ := runEvents_encodeProgram cfg hp hsha hidx hlen
  have hblocks : ∀ q ∈ blocksOf (effectiveBlockSize p cfg) data, 1 ≤ q.length ∧ q.length ≤ p.maxBlockLen := fun q hq =>
    (length_of_mem_blocksOf (effectiveBlockSize_range hp cfg).1 hq).imp_right fun hle => le_trans hle hsize
  have hvalue : encodeValue cfg data (State.powerOn p) = some t.sink.data := by rw [encodeValue, hencode, valueOf_next]
  obtain ⟨hdecodeRun, -, -⟩ := decoderRunReturnsTheStream
  obtain ⟨v, rs, hdecode, hreplies, -, hdelivered, hlast, -⟩ := hdecodeRun (State.powerOn p) _ [] ns rfl hp hsha hblocks hidx
    hns (by rwa [blocksOf_flatten])
  rw [List.append_nil, ← encodedStream, ← hstream] at hdecode
  rw [blocksOf_flatten] at hdelivered
  refine ⟨t, v, hencode, hresponses, hdecode, ?_, ?_, hvalue, fun n hn => ?_⟩
  · rw [hreplies]
    exact hdelivered
  · rw [hreplies, List.getLast?_append, List.getLast?_cons, hlast]
    rfl
  · have hround := decodeValue_streamOf (s := State.powerOn p) (n := n) _ [] rfl hp hsha hblocks (by omega) hn
    rw [List.append_nil, ← encodedStream, ← hstream, blocksOf_flatten] at hround
    rw [hvalue, Option.bind_some, hround]

end Sys2Proof.Machine

/-! No stale byte shows (spec/10_state.md R22, R29; spec/93_implementation_defined.md U6): two states alike but for such bytes
go through every operation alike. -/

namespace Sys2Proof.Machine

/-! ### Flows that end alike -/

/-- The two flows end in the same way, on sides that `R` relates. -/
inductive Flow.Alike {σ α : Type} (R : σ → σ → Prop) : Flow σ α → Flow σ α → Prop
  | done (a : α) {u v : σ} (h : R u v) : Alike R (.done a u) (.done a v)
  | raised (e : Err) {u v : σ} (h : R u v) : Alike R (.raised e u) (.raised e v)
  | answered (r : Response) {u v : σ} (h : R u v) : Alike R (.answered r u) (.answered r v)
  | stuck {u v : σ} (h : R u v) : Alike R (.stuck u) (.stuck v)

theorem Flow.Alike.bind {σ α β : Type} {R : σ → σ → Prop} {f f' : Flow σ α} {g g' : α → σ → Flow σ β}
    (hf : f.Alike R f') (hg : ∀ a u v, R u v → (g a u).Alike R (g' a v)) : (f.bind g).Alike R (f'.bind g') := by
  cases hf with
  | done a h => exact hg a _ _ h
  | raised e h => exact .raised e h
  | answered r h => exact .answered r h
  | stuck h => exact .stuck h

theorem Flow.Alike.replies {σ : Type} {R : σ → σ → Prop} {f f' : Flow σ Payload} (h : f.Alike R f') :
    f'.replies = f.replies := by
  cases h <;> rfl

/-- Two flows chosen by one condition. -/
theorem Flow.Alike.ite {σ α : Type} {R : σ → σ → Prop} {c : Prop} [Decidable c] {f f' g g' : Flow σ α}
    (hf : f.Alike R f') (hg : g.Alike R g') : (if c then f else g).Alike R (if c then f' else g') := by
  split
  · exact hf
  · exact hg

/-! ### Memories that agree below an offset -/

/-- The offsets below `n` read alike. -/
def AgreeBelow (free : Nat → Byte) (n : Nat) (m m' : Memory) : Prop := ∀ a, a < n → readByte free m' a = readByte free m a

theorem AgreeBelow.memRead {free : Nat → Byte} {n : Nat} {m m' : Memory} (h : AgreeBelow free n m m') {a k : Nat}
    (hk : k ≠ 0 → a + k ≤ n) : memRead free m' a k = memRead free m a k := by
  refine List.map_congr_left fun i hi => h _ ?_
  have hlt := List.mem_range.mp hi
  have hle := hk (by omega)
  omega

/-- Bytes written at the first offset that may differ, or below it, are read by both. -/
theorem AgreeBelow.memWrite {free : Nat → Byte} {n a : Nat} {m m' : Memory} (h : AgreeBelow free n m m') (ha : a ≤ n)
    (b : Bytes) : AgreeBelow free (a + b.length) (memWrite m a b) (memWrite m' a b) := by
  intro i hi
  simp only [readByte, readCell_memWrite]
  split
  · rfl
  · next hout => exact h i (by omega)

theorem agreeBelow_zero (free : Nat → Byte) (m m' : Memory) : AgreeBelow free 0 m m' := fun _ ha => absurd ha (Nat.not_lt_zero _)

/-! ### The encoder -/

/-- The encoder's side with another buffer. -/
def EncSide.withBuf (u : EncSide) (m : Memory) : EncSide := { u with enc := { u.enc with buf := m } }

/-- The two sides differ at most in stale bytes of the buffer. -/
def EncSide.Alike (u v : EncSide) : Prop :=
  ∃ m, v = u.withBuf m ∧ AgreeBelow Config.unwrittenEncBuf u.enc.fill u.enc.buf m

theorem EncSide.Alike.pendingBytes {u v : EncSide} (h : u.Alike v) : pendingBytes v.enc = pendingBytes u.enc := by
  obtain ⟨m, rfl, hm⟩ := h
  exact hm.memRead fun _ => by rw [Nat.zero_add]; exact Nat.le_refl _

/-- Sink calls do not look at the buffer. -/
theorem encCall_alike (call : Sink → SinkAnswer × Sink) (cause : Byte) {u v : EncSide} (h : u.Alike v) :
    (encCall call cause u).Alike EncSide.Alike (encCall call cause v) := by
  obtain ⟨m, rfl, hm⟩ := h
  unfold encCall
  rw [show (u.withBuf m).sink = u.sink from rfl]
  rcases call u.sink with ⟨a, k⟩
  cases a with
  | ok => exact .done () ⟨m, rfl, hm⟩
  | fail => exact .raised _ ⟨m, rfl, hm⟩
  | never => exact .stuck ⟨m, rfl, hm⟩

theorem emitFrame_alike (p d : Bytes) {u v : EncSide} (h : u.Alike v) :
    (emitFrame p d u).Alike EncSide.Alike (emitFrame p d v) := by
  have hindex : v.enc.nextIndex = u.enc.nextIndex := by obtain ⟨m, rfl, -⟩ := h; rfl
  unfold emitFrame
  rw [hindex]
  refine .ite (.raised _ h) ?_
  refine (encCall_alike _ 1 h).bind fun _ u v h => ?_
  refine (encCall_alike _ 1 h).bind fun _ u v h => ?_
  refine (encCall_alike _ 1 h).bind fun _ u v h => ?_
  refine Flow.Alike.bind (.ite (.done () h) (encCall_alike _ 1 h)) fun _ u v ⟨m, hv, hm⟩ => ?_
  exact .done () ⟨m, by rw [hv]; rfl, hm⟩

theorem emitBuffer_alike {u v : EncSide} (h : u.Alike v) : (emitBuffer u).Alike EncSide.Alike (emitBuffer v) := by
  rw [emitBuffer_eq, emitBuffer_eq, h.pendingBytes]
  refine (emitFrame_alike _ _ h).bind fun _ u v ⟨m, hv, _⟩ => ?_
  exact .done () ⟨m, by rw [hv]; rfl, agreeBelow_zero _ _ _⟩

theorem fillBuffer_alike (d : Bytes) {u v : EncSide} (h : u.Alike v) : (fillBuffer d u).Alike (fillBuffer d v) := by
  obtain ⟨m, rfl, hm⟩ := h
  exact ⟨_, rfl, hm.memWrite (Nat.le_refl _) d⟩

theorem writeLoop_alike (passes : Nat) (data : Bytes) {u v : EncSide} (h : u.Alike v) :
    (writeLoop passes data u).Alike EncSide.Alike (writeLoop passes data v) := by
  induction passes generalizing data u v with
  | zero =>
    cases data with
    | nil => exact .done () h
    | cons b bs => exact .stuck h
  | succ passes ih =>
    cases data with
    | nil => exact .done () h
    | cons b bs =>
      have hfill : v.enc.fill = u.enc.fill := by obtain ⟨m, rfl, -⟩ := h; rfl
      have hsize : v.enc.blockSize = u.enc.blockSize := by obtain ⟨m, rfl, -⟩ := h; rfl
      have hpass : passLength (b :: bs) v = passLength (b :: bs) u := by rw [passLength, hfill, hsize, passLength]
      rw [writeLoop_pass, writeLoop_pass, hfill, hsize, hpass]
      exact .ite ((emitBuffer_alike (fillBuffer_alike _ h)).bind fun _ _ _ h => ih _ h) (ih _ (fillBuffer_alike _ h))

theorem emitRest_alike {u v : EncSide} (h : u.Alike v) : (emitRest u).Alike EncSide.Alike (emitRest v) := by
  have hfill : v.enc.fill = u.enc.fill := by obtain ⟨m, rfl, -⟩ := h; rfl
  unfold emitRest
  rw [hfill]
  exact .ite (emitBuffer_alike h) (.done () h)

theorem encAdmit_alike {u v : EncSide} (h : u.Alike v) : (encAdmit u).Alike EncSide.Alike (encAdmit v) := by
  have herr : v.enc.err = u.enc.err := by obtain ⟨m, rfl, -⟩ := h; rfl
  have hclosed : v.enc.closed = u.enc.closed := by obtain ⟨m, rfl, -⟩ := h; rfl
  unfold encAdmit
  rw [herr, hclosed]
  cases u.enc.err with
  | some e => exact .answered _ h
  | none => exact .ite (.answered _ h) (.done () h)

theorem flushAndClose_alike {u v : EncSide} (h : u.Alike v) : (flushAndClose u).Alike EncSide.Alike (flushAndClose v) := by
  refine (encCall_alike _ 2 h).bind fun _ u v h => ?_
  refine (encCall_alike _ 3 h).bind fun _ u v ⟨m, hv, hm⟩ => ?_
  exact .done _ ⟨m, by rw [hv]; rfl, hm⟩

theorem admittedFlow_alike (i : Instr) {u v : EncSide} (h : u.Alike v) :
    (admittedFlow i u).Alike EncSide.Alike (admittedFlow i v) := by
  cases i with
  | encWrite data => exact (writeLoop_alike _ data h).bind fun _ _ _ h => .done _ h
  | encFlush => exact (encCall_alike _ 2 h).bind fun _ _ _ h => .done _ h
  | encClose =>
    exact (emitRest_alike h).bind fun _ _ _ h => (emitFrame_alike _ _ h).bind fun _ _ _ h => flushAndClose_alike h
  | _ => exact .done _ h

theorem encFlow_alike (p : Params) (i : Instr) {u v : EncSide} (h : u.Alike v) :
    (encFlow p i u).Alike EncSide.Alike (encFlow p i v) := by
  by_cases hinit : ∃ cfg, i = .encInit cfg
  · obtain ⟨cfg, rfl⟩ := hinit
    obtain ⟨m, rfl, -⟩ := h
    have hconstruct : EncSide.Alike { u with enc := constructEncoder p cfg u.enc }
      { u.withBuf m with enc := constructEncoder p cfg (u.withBuf m).enc } := ⟨m, rfl, agreeBelow_zero _ _ _⟩
    simp only [encFlow, encInitFlow]
    cases constructionError p with
    | none => exact .done _ hconstruct
    | some e => exact .raised e hconstruct
  · have hother : ∀ cfg, i ≠ .encInit cfg := fun cfg h => hinit ⟨cfg, h⟩
    rw [encFlow_admit p hother, encFlow_admit p hother]
    exact (encAdmit_alike h).bind fun _ _ _ h => admittedFlow_alike i h

/-- What the command leaves, an error latched or the unit waiting. -/
theorem encAfter_alike {f f' : Flow EncSide Payload} (h : f.Alike EncSide.Alike f') : (encAfter f).Alike (encAfter f') := by
  cases h with
  | done _ h => exact h
  | answered _ h => exact h
  | raised e h => obtain ⟨m, rfl, hm⟩ := h; exact ⟨m, rfl, hm⟩
  | stuck h => obtain ⟨m, rfl, hm⟩ := h; exact ⟨m, rfl, hm⟩

/-! ### The decoder -/

/-- The decoder's side with another residual buffer. -/
def DecSide.withRes (u : DecSide) (m : Memory) : DecSide := { u with dec := { u.dec with res := m } }

/-- The two sides differ at most in stale bytes of the residual buffer. -/
def DecSide.Alike (u v : DecSide) : Prop :=
  ∃ m, v = u.withRes m ∧ AgreeBelow Config.unwrittenDecRes u.dec.resLen u.dec.res m

theorem srcField_alike (n : Nat) {u v : DecSide} (h : u.Alike v) : (srcField n u).Alike DecSide.Alike (srcField n v) := by
  obtain ⟨m, rfl, hm⟩ := h
  unfold srcField
  rw [show (u.withRes m).source = u.source from rfl]
  rcases srcReadExactly n u.source with ⟨a, r⟩
  cases a with
  | ok b => exact .done b ⟨m, rfl, hm⟩
  | short => exact .raised _ ⟨m, rfl, hm⟩
  | fail => exact .raised _ ⟨m, rfl, hm⟩
  | never => exact .stuck ⟨m, rfl, hm⟩

theorem acceptTerminal_alike (d : Bytes) {u v : DecSide} (h : u.Alike v) :
    (acceptTerminal d u).Alike DecSide.Alike (acceptTerminal d v) := by
  refine .ite (.raised _ h) (.answered _ ?_)
  obtain ⟨m, rfl, hm⟩ := h
  exact ⟨m, rfl, hm⟩

/-- A block accepted is written over all that is read of the buffer. -/
theorem acceptData_alike (d : Bytes) (len : Nat) {u v : DecSide} (h : u.Alike v) :
    (acceptData d len u).Alike DecSide.Alike (acceptData d len v) := by
  refine (srcField_alike len h).bind fun b u v h => .ite (.raised _ h) (.done () ?_)
  obtain ⟨m, rfl, hm⟩ := h
  have hwritten := hm.memWrite (Nat.zero_le _) b
  rw [Nat.zero_add] at hwritten
  exact ⟨_, rfl, hwritten⟩

theorem readFrame_alike (p : Params) {u v : DecSide} (h : u.Alike v) :
    (readFrame p u).Alike DecSide.Alike (readFrame p v) := by
  refine (srcField_alike 4 h).bind fun i u v h => ?_
  have hindex : v.dec.expectedIndex = u.dec.expectedIndex := by obtain ⟨m, rfl, -⟩ := h; rfl
  refine Flow.Alike.bind (by rw [checkIndex, checkIndex, hindex]; exact .ite (.raised _ h) (.done () h)) fun _ u v h => ?_
  refine (srcField_alike 32 h).bind fun d u v h => ?_
  refine (srcField_alike 4 h).bind fun l u v h => ?_
  refine Flow.Alike.bind (.ite (.raised _ h) (.done () h)) fun _ u v h => ?_
  exact .ite (acceptTerminal_alike d h) (acceptData_alike d _ h)

/-- What is delivered lies below `DEC.RES_LEN` (R179). -/
theorem deliver_alike (n : U32) {u v : DecSide} (h : u.Alike v) : (deliver n u).Alike DecSide.Alike (deliver n v) := by
  obtain ⟨m, rfl, hm⟩ := h
  have hcount : deliverLength n (u.withRes m).dec = deliverLength n u.dec := rfl
  have hbytes : deliverBytes n (u.withRes m).dec = deliverBytes n u.dec := by
    have hle : deliverLength n u.dec ≤ u.dec.resLen - u.dec.resPos := Nat.min_le_right _ _
    refine hm.memRead fun hk => ?_
    show u.dec.resPos + deliverLength n u.dec ≤ u.dec.resLen
    omega
  rw [deliver, deliver, hbytes, hcount]
  exact .done _ ⟨m, rfl, hm⟩

theorem decReadFlow_alike (p : Params) (n : U32) {u v : DecSide} (h : u.Alike v) :
    (decReadFlow p n u).Alike DecSide.Alike (decReadFlow p n v) := by
  have hadmit : (decAdmit u).Alike DecSide.Alike (decAdmit v) := by
    have herr : v.dec.err = u.dec.err := by obtain ⟨m, rfl, -⟩ := h; rfl
    unfold decAdmit
    rw [herr]
    cases u.dec.err with
    | some e => exact .answered _ h
    | none => exact .done () h
  have hrefill : ∀ {u v : DecSide}, u.Alike v → (refill p u).Alike DecSide.Alike (refill p v) := by
    rintro u v ⟨m, rfl, hm⟩
    exact .ite (.ite (.answered _ ⟨m, rfl, hm⟩) (readFrame_alike p ⟨m, rfl, hm⟩)) (.done () ⟨m, rfl, hm⟩)
  exact hadmit.bind fun _ _ _ h => (hrefill h).bind fun _ _ _ h => deliver_alike n h

theorem decFlow_alike (p : Params) (i : Instr) {u v : DecSide} (h : u.Alike v) :
    (decFlow p i u).Alike DecSide.Alike (decFlow p i v) := by
  have hinit : (decInitFlow p u).Alike DecSide.Alike (decInitFlow p v) := by
    obtain ⟨m, rfl, -⟩ := h
    have hconstruct : DecSide.Alike { u with dec := constructDecoder p u.dec }
      { u.withRes m with dec := constructDecoder p (u.withRes m).dec } := ⟨m, rfl, agreeBelow_zero _ _ _⟩
    unfold decInitFlow
    cases constructionError p with
    | none => exact .done _ hconstruct
    | some e => exact .raised e hconstruct
  cases i with
  | decRead n => exact decReadFlow_alike p n h
  | _ => exact hinit

/-- What the command leaves, an error latched or the unit waiting. -/
theorem decAfter_alike {f f' : Flow DecSide Payload} (h : f.Alike DecSide.Alike f') : (decAfter f).Alike (decAfter f') := by
  cases h with
  | done _ h => exact h
  | answered _ h => exact h
  | raised e h => obtain ⟨m, rfl, hm⟩ := h; exact ⟨m, rfl, hm⟩
  | stuck h => obtain ⟨m, rfl, hm⟩ := h; exact ⟨m, rfl, hm⟩

/-! ### The state -/

/-- The two states differ at most in stale bytes exactly when both units' sides do and the rest is the same. -/
theorem sameButStale_iff {s s' : State} :
    s.SameButStale s' ↔ s'.params = s.params ∧ s'.events = s.events ∧ s'.responses = s.responses ∧
      s.encSide.Alike s'.encSide ∧ s.decSide.Alike s'.decSide := by
  constructor
  · rintro ⟨hrest, hbuf, hres⟩
    rw [hrest]
    exact ⟨rfl, rfl, rfl, ⟨s'.enc.buf, rfl, hbuf⟩, ⟨s'.dec.res, rfl, hres⟩⟩
  · rintro ⟨hparams, hevents, hresponses, ⟨m, henc, hbuf⟩, ⟨m', hdec, hres⟩⟩
    obtain ⟨p, e, k, d, r, es, rs⟩ := s'
    obtain ⟨rfl, rfl⟩ := EncSide.mk.inj henc
    obtain ⟨rfl, rfl⟩ := DecSide.mk.inj hdec
    obtain rfl : p = s.params := hparams
    obtain rfl : es = s.events := hevents
    obtain rfl : rs = s.responses := hresponses
    exact ⟨rfl, hbuf, hres⟩

/-- Settles O60: a command goes through its unit's operations alike, and the other unit's side stays. -/
theorem staleBytesNeverShow : Obligations.StaleBytesNeverShow := by
  unfold Obligations.StaleBytesNeverShow
  intro i s s' t hsame h
  obtain ⟨hparams, hevents, hresponses, henc, hdec⟩ := sameButStale_iff.mp hsame
  have hencWaiting : s'.enc.waiting = s.enc.waiting := by rw [hsame.rest]
  have hdecWaiting : s'.dec.waiting = s.dec.waiting := by rw [hsame.rest]
  have hrespond : ∀ r, (s.respond r).SameButStale (s'.respond r) := fun r =>
    sameButStale_iff.mpr ⟨hparams, hevents, congrArg (· ++ [r]) hresponses, henc, hdec⟩
  cases ran_of_exec h with
  | enc hunit hw ht =>
    have hflow := encFlow_alike s.params i henc
    refine ⟨_, exec_enc_idle hunit (hencWaiting.trans hw), ?_⟩
    rw [ht, hparams, finishEnc_eq, finishEnc_eq, hflow.replies, hresponses]
    exact sameButStale_iff.mpr ⟨hparams, hevents, rfl, encAfter_alike hflow, hdec⟩
  | dec hunit hn hw ht =>
    have hflow := decFlow_alike s.params i hdec
    refine ⟨_, exec_dec_idle hunit hn (hdecWaiting.trans hw), ?_⟩
    rw [ht, hparams, finishDec_eq, finishDec_eq, hflow.replies, hresponses]
    exact sameButStale_iff.mpr ⟨hparams, hevents, rfl, henc, decAfter_alike hflow⟩
  | answered hunit r ht =>
    rcases hunit with hnone | rfl
    · obtain ⟨r', hr, hr'⟩ := exec_prim_alike hnone hparams
      obtain rfl : t = s.respond r' := Host.Outcome.next.inj (h.symm.trans hr)
      exact ⟨_, hr', hrespond r'⟩
    · obtain rfl : t = s.respond .illegalCommand := Host.Outcome.next.inj (h.symm.trans (exec_decRead_zero s))
      exact ⟨_, exec_decRead_zero s', hrespond _⟩

end Sys2Proof.Machine
